-- ==== Sys2Proof/Word.lean ====
section
/-! DEFINITION. The word types of EARv3 and their plainest helpers: 8-bit bytes (R50), 16-bit words and
virtual addresses (R12, R16), 24-bit physical addresses (R50), 4-bit register, control register and port
numbers (R84, R87). -/

namespace Sys2Proof

/-- A byte of memory, of code or of a port (R50). -/
abbrev Byte := BitVec 8

/-- A general register, a control register, a virtual address (R12, R25, R42). -/
abbrev Word := BitVec 16

/-- A 24-bit physical address, an "EAR full" (R58). -/
abbrev PhysAddr := BitVec 24

/-- The number of a general register, 0 to 15 (R12). The manual does arithmetic on it (`Rdx` is the
number xor 1, R95), so it stays a bit vector. -/
abbrev RegNo := BitVec 4

/-- The number of a control register, 0 to 15 (R25). -/
abbrev CRegNo := BitVec 4

/-- The number of an I/O port, 0 to 15 (R225). -/
abbrev PortNo := BitVec 4

end Sys2Proof
end

