-- ==== Sys2Proof/Config.lean ====
section
/-! DEFINITION. The implementation parameters of 00_scope.md section 4 as plain data, and the free values.
A parameter stands in the state (`State.cfg`), so that a statement about every state is a statement about every
value of the parameter; no step changes it. What the spec leaves wholly open and no finite data can hold is an
opaque constant here. -/

namespace Sys2Proof

/-- The three access modes (R56). -/
inductive AccessMode where
  | read
  | write
  | execute
deriving DecidableEq, Repr

/-- `EXC_ACTION`: what the machine does after recording an exception (R244, D13). -/
inductive ExcAction where
  | stop
  | swap
deriving DecidableEq, Repr

/-- `DVS_ROUND`: the rounding of signed division (R146, D11). -/
inductive DvsRound where
  | trunc
  | floor
deriving DecidableEq, Repr, Inhabited

/-- `BYTE_LOAD_EXT`: how `LDB` and `RDB` widen a byte (R182, D12). -/
inductive ByteExt where
  | zero
  | sign
deriving DecidableEq, Repr

/-- `MEM_BASE_DEFAULT`: the base register of a load or store without a `DR` prefix (R186, D3). -/
inductive MemBase where
  | rx
  | zero
deriving DecidableEq, Repr

/-- `WRB_IMM_BYTES`: how many immediate bytes follow a regpair byte whose Y nibble is 15; a parameter for `WRB`, two for
every other instruction (R85, R221, D5). -/
inductive ImmLen where
  | one
  | two
deriving DecidableEq, Repr

/-- One line of `PTE_FAULT`: page-table entries from `lo` to `hi` raise `EXC_MMU` in this access mode. Every
predicate on entries and modes is a list of such lines (R61, D27). -/
structure PteRule where
  mode : AccessMode
  lo : Word
  hi : Word
deriving DecidableEq, Repr

/-- One line of `PHYS_MAP`: the `size` physical addresses from `base` on answer the kinds of bus access named
true. Every predicate on addresses and kinds is a list of such lines (R62, D28). -/
structure BusRegion where
  base : Nat
  size : Nat
  read : Bool
  write : Bool
  fetch : Bool
deriving DecidableEq, Repr

/-- `EXC_CODE`: the 3-bit type code of each of the six exceptions (R241, D14). -/
structure ExcCodes where
  unaligned : BitVec 3
  mmu : BitVec 3
  bus : BitVec 3
  deniedCreg : BitVec 3
  deniedInsn : BitVec 3
  timer : BitVec 3
deriving DecidableEq, Repr

/-- The parameters of 00_scope.md section 4 that plain data can hold. -/
structure Params where
  /-- `SHARED_CREGS`: bit `n` set makes control register `n` exist once (R10, D1). -/
  sharedCregs : BitVec 16
  /-- `MEM_BASE_DEFAULT` (D3). -/
  memBase : MemBase
  /-- `BYTE_LOAD_EXT` (D12). -/
  byteExt : ByteExt
  /-- `WRB_IMM_BYTES` (D5). -/
  wrbImm : ImmLen
  /-- `EXC_ACTION` (D13). -/
  excAction : ExcAction
  /-- `EXC_CODE` (D14). -/
  excCodes : ExcCodes
  /-- `CREG_FAIL(n, read)`: bit `n` set makes `RDC` of control register `n` fail (R170, D21). -/
  cregFailRead : BitVec 16
  /-- `CREG_FAIL(n, write)` (R170, D21). -/
  cregFailWrite : BitVec 16
  /-- `PTE_FAULT` (D27). -/
  pteFault : List PteRule
  /-- `PHYS_MAP` (D28). -/
  physMap : List BusRegion
  /-- `MUL_CF`: the signedness and operands for which `CF` after a multiply is not bit 16 of the product. Every function is
  such a list (R143, D7). -/
  mulCf : List (Bool × Word × Word)
  /-- `SHIFT_COUNT`: the values whose count is not the value itself, with their counts. Every function is such a list
  (R150, D8). -/
  shiftCount : List (Word × Nat)
  /-- `DVS_ROUND` (D11). -/
  dvsRound : DvsRound
  /-- `DEBUGGER_ATTACHED` (D33). -/
  debugger : Bool
deriving DecidableEq, Repr

/-! ## Free values: nothing in Lean can evaluate one or prove a value of it. -/

/-- The draws of R246, R39, R32, R171, R172 and R220: the machine reads draw number `State.draws` and counts it
(assumption log entry 7). -/
opaque Config.draw : Nat → Word

/-- `MUL_VF`, `VF` after `MLU` (`signed` false) and `MLS` (`signed` true) (R143, R144, D7; log entry 8). -/
opaque Config.mulVf : (signed : Bool) → Word → Word → Bool

/-- `SHR_CF`, `CF` after `SRU` (`signed` false) and `SRS` (`signed` true) of an operand by a count (R151, R152,
D9; log entry 8). -/
opaque Config.shrCf : (signed : Bool) → Word → Nat → Bool

/-- The type codes at launch: exception `k` of R240's table has code `excCodePerm k`. A permutation of 0 to 7
gives every injective assignment of six codes and no other (R241, D14; log entry 3). -/
opaque Config.excCodePerm : Equiv.Perm (Fin 8)

/-- `DVS_ROUND` at launch (R146, D11; log entry 3). -/
opaque Config.dvsRound : DvsRound

/-- `PTE_FAULT` at launch (R61, D27; log entry 3). -/
opaque Config.pteFault : List PteRule

/-- `PORT_ORACLE` for a read that the environment's script does not answer: access number `n` of the run, from
port `p`, answered with a byte or a failure (R225, D34; log entry 14). -/
opaque Config.portRead : (n : Nat) → (p : PortNo) → Option Byte

/-- `PORT_ORACLE` for a write that the script does not answer: accepted or failed (R225, D34; log entry 14). -/
opaque Config.portWrite : (n : Nat) → (p : PortNo) → (b : Byte) → Bool

end Sys2Proof
end

