-- ==== Sys2Proof/Syntax.lean ====
section
/-! DEFINITION. The syntax of EARv3: one constructor for each row of the opcode table. Thirty-two rows are
opcodes (R90); six are prefix bytes (R93); three are the reserved prefix bytes 0xC5 to 0xCF, which the table
splits into three groups (R96). An instruction of R80 is a run of prefix constructors ended by one opcode
constructor; the machine fetches and runs the whole run in one step (assumption log entry 1). -/

namespace Sys2Proof

/-- The value operand `Vy` (R85): a general register whose nibble is 0 to 14, or, when the nibble is 15, the
16-bit immediate that follows the regpair byte. -/
inductive Vy where
  | reg (r : RegNo)
  | imm (w : Word)
deriving DecidableEq, Repr

/-- The rows of the opcode table. `cond` is the 3-bit condition field of the opcode byte (R82); an `XC` prefix
adds 8 to it (R83). -/
inductive Instr where
  /-- `ADD Rx, Vy` (R141). -/
  | add (cond : BitVec 3) (rx : RegNo) (vy : Vy)
  /-- `SUB Rx, Vy` (R142). -/
  | sub (cond : BitVec 3) (rx : RegNo) (vy : Vy)
  /-- `MLU Rx, Vy`, multiply unsigned (R143). -/
  | mlu (cond : BitVec 3) (rx : RegNo) (vy : Vy)
  /-- `MLS Rx, Vy`, multiply signed (R144). -/
  | mls (cond : BitVec 3) (rx : RegNo) (vy : Vy)
  /-- `DVU Rx, Vy`, divide unsigned (R145). -/
  | dvu (cond : BitVec 3) (rx : RegNo) (vy : Vy)
  /-- `DVS Rx, Vy`, divide signed (R146). -/
  | dvs (cond : BitVec 3) (rx : RegNo) (vy : Vy)
  /-- `XOR Rx, Vy` (R147). -/
  | xor (cond : BitVec 3) (rx : RegNo) (vy : Vy)
  /-- `AND Rx, Vy` (R148). -/
  | and (cond : BitVec 3) (rx : RegNo) (vy : Vy)
  /-- `ORR Rx, Vy` (R149). -/
  | orr (cond : BitVec 3) (rx : RegNo) (vy : Vy)
  /-- `SHL Rx, Vy`, shift left (R150). -/
  | shl (cond : BitVec 3) (rx : RegNo) (vy : Vy)
  /-- `SRU Rx, Vy`, shift right unsigned (R151). -/
  | sru (cond : BitVec 3) (rx : RegNo) (vy : Vy)
  /-- `SRS Rx, Vy`, shift right signed (R152). -/
  | srs (cond : BitVec 3) (rx : RegNo) (vy : Vy)
  /-- `MOV Rx, Vy` (R153). -/
  | mov (cond : BitVec 3) (rx : RegNo) (vy : Vy)
  /-- `CMP Rx, Vy` (R154). -/
  | cmp (cond : BitVec 3) (rx : RegNo) (vy : Vy)
  /-- `RDC Rx, CReg`, read control register (R171). -/
  | rdc (cond : BitVec 3) (rx : RegNo) (creg : CRegNo)
  /-- `WRC CReg, Ry`, write control register: the regpair byte's X nibble is `CReg`, its Y nibble `Ry` (R172). -/
  | wrc (cond : BitVec 3) (creg : CRegNo) (ry : RegNo)
  /-- `LDW Rx, [Vy]`, load word (R180). -/
  | ldw (cond : BitVec 3) (rx : RegNo) (vy : Vy)
  /-- `STW [Vy], Rx`, store word (R181). -/
  | stw (cond : BitVec 3) (rx : RegNo) (vy : Vy)
  /-- `LDB Rx, [Vy]`, load byte (R182). -/
  | ldb (cond : BitVec 3) (rx : RegNo) (vy : Vy)
  /-- `STB [Vy], Rx`, store byte (R183). -/
  | stb (cond : BitVec 3) (rx : RegNo) (vy : Vy)
  /-- `BRA Rx, Vy`, branch absolute (R200). -/
  | bra (cond : BitVec 3) (rx : RegNo) (vy : Vy)
  /-- `BRR Imm16`, branch relative (R201). -/
  | brr (cond : BitVec 3) (imm : Word)
  /-- `FCA Rx, Vy`, function call absolute (R202). -/
  | fca (cond : BitVec 3) (rx : RegNo) (vy : Vy)
  /-- `FCR Imm16`, function call relative (R203). -/
  | fcr (cond : BitVec 3) (imm : Word)
  /-- `RDB Rx, (Imm4)`, input byte (R220). -/
  | rdb (cond : BitVec 3) (rx : RegNo) (port : PortNo)
  /-- `WRB (Imm4), V8`, output byte: the X nibble is the port, the Y nibble the value operand (R221). -/
  | wrb (cond : BitVec 3) (port : PortNo) (vy : Vy)
  /-- `PSH {Regs16}`, push registers; bit `n` of the set selects `Rn` (R184, R89). -/
  | psh (cond : BitVec 3) (regs : Word)
  /-- `POP {Regs16}`, pop registers (R185). -/
  | pop (cond : BitVec 3) (regs : Word)
  /-- `INC Rx, SImm4`, increment or decrement; the field is the raw nibble of R88 (R155). -/
  | inc (cond : BitVec 3) (rx : RegNo) (simm : BitVec 4)
  /-- `BPT`, breakpoint (R222). -/
  | bpt (cond : BitVec 3)
  /-- `HLT`, High Level Transfer: swap the contexts (R223). -/
  | hlt (cond : BitVec 3)
  /-- `NOP` (R224). -/
  | nop (cond : BitVec 3)
  /-- Prefix `XC`, byte 0xC0: extended condition, the last prefix (R83, R113). -/
  | xc
  /-- Prefix `TF`, byte 0xC1: toggle flag write-back (R113, R120). -/
  | tf
  /-- Prefix `XX`, byte 0xC2: `Rx` is in the inactive bank (R113). -/
  | xx
  /-- Prefix `XY`, byte 0xC3: `Ry` is in the inactive bank (R113). -/
  | xy
  /-- Prefix `XZ`, byte 0xC4: `Rd` and `Rdx` are in the inactive bank (R113, R95). -/
  | xz
  /-- Prefix `DR`, byte `0xD0 | d`: the first sets `Rd`, the second `Rdx` (R94). -/
  | dr (d : RegNo)
  /-- The reserved prefix byte 0xC5 (R96). -/
  | reservedC5
  /-- The reserved prefix bytes 0xC6 and 0xC7; `p` is bit 0 (R96). -/
  | reservedC6 (p : BitVec 1)
  /-- The reserved prefix bytes 0xC8 to 0xCF; `p` is bits 2 to 0 (R96). -/
  | reservedC8 (p : BitVec 3)
deriving DecidableEq, Repr

/-- The operand is a register (the `XY` prefix then has an operand to modify, R114). -/
def Vy.isReg : Vy → Bool
  | .reg _ => true
  | .imm _ => false

/-- The condition field of an opcode row; none for a prefix row. -/
def Instr.cond? : Instr → Option (BitVec 3)
  | .add c _ _ | .sub c _ _ | .mlu c _ _ | .mls c _ _ | .dvu c _ _ | .dvs c _ _ | .xor c _ _ | .and c _ _
  | .orr c _ _ | .shl c _ _ | .sru c _ _ | .srs c _ _ | .mov c _ _ | .cmp c _ _ | .rdc c _ _ | .wrc c _ _
  | .ldw c _ _ | .stw c _ _ | .ldb c _ _ | .stb c _ _ | .bra c _ _ | .brr c _ | .fca c _ _ | .fcr c _
  | .rdb c _ _ | .wrb c _ _ | .psh c _ | .pop c _ | .inc c _ _ | .bpt c | .hlt c | .nop c => some c
  | .xc | .tf | .xx | .xy | .xz | .dr _ | .reservedC5 | .reservedC6 _ | .reservedC8 _ => none

/-- The value operand of a row of format `RV`; none for the other formats. -/
def Instr.vy? : Instr → Option Vy
  | .add _ _ v | .sub _ _ v | .mlu _ _ v | .mls _ _ v | .dvu _ _ v | .dvs _ _ v | .xor _ _ v | .and _ _ v
  | .orr _ _ v | .shl _ _ v | .sru _ _ v | .srs _ _ v | .mov _ _ v | .cmp _ _ v | .ldw _ _ v | .stw _ _ v
  | .ldb _ _ v | .stb _ _ v | .bra _ _ v | .fca _ _ v | .wrb _ _ v => some v
  | .rdc _ _ _ | .wrc _ _ _ | .brr _ _ | .fcr _ _ | .rdb _ _ _ | .psh _ _ | .pop _ _ | .inc _ _ _ | .bpt _
  | .hlt _ | .nop _ | .xc | .tf | .xx | .xy | .xz | .dr _ | .reservedC5 | .reservedC6 _ | .reservedC8 _ => none

/-- The rows after which the fetch of the same instruction goes on: the six prefixes. -/
def Instr.isPrefix : Instr → Bool
  | .xc | .tf | .xx | .xy | .xz | .dr _ => true
  | .add _ _ _ | .sub _ _ _ | .mlu _ _ _ | .mls _ _ _ | .dvu _ _ _ | .dvs _ _ _ | .xor _ _ _ | .and _ _ _
  | .orr _ _ _ | .shl _ _ _ | .sru _ _ _ | .srs _ _ _ | .mov _ _ _ | .cmp _ _ _ | .rdc _ _ _ | .wrc _ _ _
  | .ldw _ _ _ | .stw _ _ _ | .ldb _ _ _ | .stb _ _ _ | .bra _ _ _ | .brr _ _ | .fca _ _ _ | .fcr _ _
  | .rdb _ _ _ | .wrb _ _ _ | .psh _ _ | .pop _ _ | .inc _ _ _ | .bpt _ | .hlt _ | .nop _
  | .reservedC5 | .reservedC6 _ | .reservedC8 _ => false

end Sys2Proof
end

