-- ==== Sys2Proof/WellFormed.lean ====
section
/-! DEFINITION. Which terms of `Instr` an encoding exists for. Three fields can be out of range: the condition
field 6 marks a prefix byte unless an `XC` prefix came just before (R83), register number 15 in the `Vy`
position selects an immediate (R85), and an immediate of one byte is below 256 (R221). A prefix row cannot stand
after `XC` (R83). -/

namespace Sys2Proof

/-- How long the immediate of a row is, where its value operand is one: `WRB_IMM_BYTES` for `WRB`, two bytes for
every other row (R85, R221). -/
def Instr.immLen (wrbImm : ImmLen) : Instr → ImmLen
  | .wrb _ _ _ => wrbImm
  | .add _ _ _ | .sub _ _ _ | .mlu _ _ _ | .mls _ _ _ | .dvu _ _ _ | .dvs _ _ _ | .xor _ _ _ | .and _ _ _
  | .orr _ _ _ | .shl _ _ _ | .sru _ _ _ | .srs _ _ _ | .mov _ _ _ | .cmp _ _ _ | .rdc _ _ _ | .wrc _ _ _
  | .ldw _ _ _ | .stw _ _ _ | .ldb _ _ _ | .stb _ _ _ | .bra _ _ _ | .brr _ _ | .fca _ _ _ | .fcr _ _
  | .rdb _ _ _ | .psh _ _ | .pop _ _ | .inc _ _ _ | .bpt _ | .hlt _ | .nop _ | .xc | .tf | .xx | .xy | .xz
  | .dr _ | .reservedC5 | .reservedC6 _ | .reservedC8 _ => .two

/-- Nibble 15 of a value operand means an immediate follows, so no register form has it (R85); an immediate fits in
its bytes (R221). -/
def Vy.wellFormed (len : ImmLen) : Vy → Bool
  | .reg r => r != 15#4
  | .imm w =>
    match len with
    | .one => decide (w.toNat < 256)
    | .two => true

/-- A 3-bit condition field can be 6 only in the byte after an `XC` prefix (R83). -/
def condWellFormed (afterXc : Bool) (c : BitVec 3) : Bool := afterXc || c != 6#3

/-- The term has an encoding where `WRB_IMM_BYTES` is `wrbImm`; `afterXc` says that the byte before it is an `XC`
prefix. -/
def Instr.wellFormed (wrbImm : ImmLen) (afterXc : Bool) (i : Instr) : Bool :=
  (match i.cond? with
    | some c => condWellFormed afterXc c
    | none => !afterXc) &&
  (match i.vy? with
    | some v => v.wellFormed (i.immLen wrbImm)
    | none => true)

end Sys2Proof
end

