-- ==== Sys2Proof/Decode.lean ====
section
/-! DEFINITION. The decoder and, after it, the encoder, both written from the encoding tables R80 to R97. -/

namespace Sys2Proof

/-- Why a list of bytes is no instruction. The spec has no illegal opcode (R97), so the one reason is that the
list ends before the instruction does. -/
inductive DecodeReject where
  /-- The bytes end inside the instruction. Safe: the machine fetches as many bytes as the decoder asks for. -/
  | truncated
deriving DecidableEq, Repr

/-! ## Fields of the code bytes -/

/-- Bits 4:0 of an opcode byte, the opcode (R82). -/
def opcodeField (b : Byte) : BitVec 5 := b.extractLsb' 0 5

/-- Bits 7:5 of an opcode byte, the condition field (R82). -/
def condField (b : Byte) : BitVec 3 := b.extractLsb' 5 3

/-- A byte with bits 7:5 = 110 is a prefix where a prefix can stand (R81, R83). -/
def isPrefixByte (b : Byte) : Bool := condField b == 6#3

/-- Bits 7:4 of the regpair byte (R84). -/
def xNibble (b : Byte) : BitVec 4 := b.extractLsb' 4 4

/-- Bits 3:0 of the regpair byte (R84). -/
def yNibble (b : Byte) : BitVec 4 := b.extractLsb' 0 4

/-- Two bytes in fetch order make a word, the first the low half (R86, R89, R112). -/
def wordOf (lo hi : Byte) : Word := hi ++ lo

/-- The low half of a word. -/
def loByte (w : Word) : Byte := w.extractLsb' 0 8

/-- The high half of a word. -/
def hiByte (w : Word) : Byte := w.extractLsb' 8 8

/-! ## The opcode map (R90) -/

/-- The operand format of an opcode, with the constructor that the operands fill (R90): `RV` regpair byte and
an immediate of the given length when Y is 15; `RN` regpair byte only; `I16` and `S16` one 16-bit word; `OP` nothing. -/
inductive Form where
  | rv (len : ImmLen) (build : BitVec 3 → BitVec 4 → Vy → Instr)
  | rn (build : BitVec 3 → BitVec 4 → BitVec 4 → Instr)
  | word (build : BitVec 3 → Word → Instr)
  | op (build : BitVec 3 → Instr)

/-- The 32 opcodes of R90, where `WRB_IMM_BYTES` is `k` (R221). The last arm is 0x1F, the one 5-bit value left. -/
def formOf (k : ImmLen) (op : BitVec 5) : Form :=
  match op.toNat with
  | 0x00 => .rv .two .add
  | 0x01 => .rv .two .sub
  | 0x02 => .rv .two .mlu
  | 0x03 => .rv .two .mls
  | 0x04 => .rv .two .dvu
  | 0x05 => .rv .two .dvs
  | 0x06 => .rv .two .xor
  | 0x07 => .rv .two .and
  | 0x08 => .rv .two .orr
  | 0x09 => .rv .two .shl
  | 0x0A => .rv .two .sru
  | 0x0B => .rv .two .srs
  | 0x0C => .rv .two .mov
  | 0x0D => .rv .two .cmp
  | 0x0E => .rn .rdc
  | 0x0F => .rn .wrc
  | 0x10 => .rv .two .ldw
  | 0x11 => .rv .two .stw
  | 0x12 => .rv .two .ldb
  | 0x13 => .rv .two .stb
  | 0x14 => .rv .two .bra
  | 0x15 => .word .brr
  | 0x16 => .rv .two .fca
  | 0x17 => .word .fcr
  | 0x18 => .rn .rdb
  | 0x19 => .rv k .wrb
  | 0x1A => .word .psh
  | 0x1B => .word .pop
  | 0x1C => .rn .inc
  | 0x1D => .op .bpt
  | 0x1E => .op .hlt
  | _ => .op .nop

/-! ## Length (R92) -/

/-- The number of bytes of an immediate. -/
def ImmLen.bytes : ImmLen → Nat
  | .one => 1
  | .two => 2

/-- How many code bytes certainly follow the first byte of a row. -/
def bytesAfterFirst (k : ImmLen) (afterXc : Bool) (b : Byte) : Nat :=
  if !afterXc && isPrefixByte b then 0
  else match formOf k (opcodeField b) with
    | .rv _ _ => 1
    | .rn _ => 1
    | .word _ => 2
    | .op _ => 0

/-- How many more follow once those are known: the bytes of an immediate when the row has format `RV` and
the Y nibble is 15 (R85, R221). -/
def bytesAfterRegpair (k : ImmLen) (afterXc : Bool) (bs : List Byte) : Nat :=
  match bs with
  | [b, pair] =>
    if !afterXc && isPrefixByte b then 0
    else match formOf k (opcodeField b) with
      | .rv len _ => if yNibble pair == 15#4 then len.bytes else 0
      | .rn _ => 0
      | .word _ => 0
      | .op _ => 0
  | _ => 0

/-! ## The decoder -/

/-- A byte `110PPPPP` in prefix position, by its low five bits (R93, R96). -/
def decodePrefix (b : Byte) : Instr :=
  match (opcodeField b).toNat with
  | 0 => .xc
  | 1 => .tf
  | 2 => .xx
  | 3 => .xy
  | 4 => .xz
  | 5 => .reservedC5
  | 6 => .reservedC6 (b.extractLsb' 0 1)
  | 7 => .reservedC6 (b.extractLsb' 0 1)
  | _ => if b.getLsbD 4 then .dr (b.extractLsb' 0 4) else .reservedC8 (b.extractLsb' 0 3)

/-- An immediate of the given length from the front of a list: two bytes, the low one first (R86), or one byte (R221). -/
def decodeImm (len : ImmLen) (bs : List Byte) : Except DecodeReject (Word × List Byte) :=
  match len, bs with
  | .two, lo :: hi :: rest => .ok (wordOf lo hi, rest)
  | .one, b :: rest => .ok (b.setWidth 16, rest)
  | _, _ => .error .truncated

/-- The operand bytes of an opcode byte, by the opcode's format (R90). -/
def decodeOperands (k : ImmLen) (b : Byte) (bs : List Byte) : Except DecodeReject (Instr × List Byte) :=
  match formOf k (opcodeField b), bs with
  | .op build, rest => .ok (build (condField b), rest)
  | .word build, lo :: hi :: rest => .ok (build (condField b) (wordOf lo hi), rest)
  | .rn build, pair :: rest => .ok (build (condField b) (xNibble pair) (yNibble pair), rest)
  | .rv len build, pair :: rest =>
    if yNibble pair == 15#4 then
      match decodeImm len rest with
      | .ok (w, rest') => .ok (build (condField b) (xNibble pair) (.imm w), rest')
      | .error e => .error e
    else .ok (build (condField b) (xNibble pair) (.reg (yNibble pair)), rest)
  | _, _ => .error .truncated

/-- One row of the opcode table from the front of a list of bytes in fetch order, with the bytes left over.
`k` is the parameter `WRB_IMM_BYTES` (R221); `afterXc` says that the byte before was an `XC` prefix, after which every
byte is an opcode byte (R83). -/
def decode (k : ImmLen) (afterXc : Bool) : List Byte → Except DecodeReject (Instr × List Byte)
  | [] => .error .truncated
  | b :: bs =>
    if !afterXc && isPrefixByte b then .ok (decodePrefix b, bs)
    else decodeOperands k b bs

/-! ## The encoder -/

/-- The opcode byte `CCCIIIII` (R82). -/
def opcodeByte (c : BitVec 3) (op : BitVec 5) : Byte := c ++ op

/-- The regpair byte `XXXXYYYY` (R84). -/
def regpair (x y : BitVec 4) : Byte := x ++ y

/-- The two bytes of a 16-bit field in fetch order, the low half first (R86, R89). -/
def encodeWord (w : Word) : List Byte := [loByte w, hiByte w]

/-- An immediate of the given length (R86, R221). -/
def encodeImm : ImmLen → Word → List Byte
  | .two, w => encodeWord w
  | .one, w => [loByte w]

/-- Format `RV`: the immediate follows when the operand is one (R85). -/
def encodeRv (len : ImmLen) (op : BitVec 5) (c : BitVec 3) (x : BitVec 4) : Vy → List Byte
  | .reg r => [opcodeByte c op, regpair x r]
  | .imm w => opcodeByte c op :: regpair x 15#4 :: encodeImm len w

/-- Format `RN` (R90). -/
def encodeRn (op : BitVec 5) (c : BitVec 3) (x y : BitVec 4) : List Byte := [opcodeByte c op, regpair x y]

/-- Formats `I16` and `S16` (R90). -/
def encodeI16 (op : BitVec 5) (c : BitVec 3) (w : Word) : List Byte := opcodeByte c op :: encodeWord w

/-- The code bytes of a row, in fetch order, where `WRB_IMM_BYTES` is `k` (R221). -/
def encode (k : ImmLen) : Instr → List Byte
  | .add c x v => encodeRv .two 0x00#5 c x v
  | .sub c x v => encodeRv .two 0x01#5 c x v
  | .mlu c x v => encodeRv .two 0x02#5 c x v
  | .mls c x v => encodeRv .two 0x03#5 c x v
  | .dvu c x v => encodeRv .two 0x04#5 c x v
  | .dvs c x v => encodeRv .two 0x05#5 c x v
  | .xor c x v => encodeRv .two 0x06#5 c x v
  | .and c x v => encodeRv .two 0x07#5 c x v
  | .orr c x v => encodeRv .two 0x08#5 c x v
  | .shl c x v => encodeRv .two 0x09#5 c x v
  | .sru c x v => encodeRv .two 0x0A#5 c x v
  | .srs c x v => encodeRv .two 0x0B#5 c x v
  | .mov c x v => encodeRv .two 0x0C#5 c x v
  | .cmp c x v => encodeRv .two 0x0D#5 c x v
  | .rdc c x n => encodeRn 0x0E#5 c x n
  | .wrc c n y => encodeRn 0x0F#5 c n y
  | .ldw c x v => encodeRv .two 0x10#5 c x v
  | .stw c x v => encodeRv .two 0x11#5 c x v
  | .ldb c x v => encodeRv .two 0x12#5 c x v
  | .stb c x v => encodeRv .two 0x13#5 c x v
  | .bra c x v => encodeRv .two 0x14#5 c x v
  | .brr c w => encodeI16 0x15#5 c w
  | .fca c x v => encodeRv .two 0x16#5 c x v
  | .fcr c w => encodeI16 0x17#5 c w
  | .rdb c x p => encodeRn 0x18#5 c x p
  | .wrb c p v => encodeRv k 0x19#5 c p v
  | .psh c w => encodeI16 0x1A#5 c w
  | .pop c w => encodeI16 0x1B#5 c w
  | .inc c x k => encodeRn 0x1C#5 c x k
  | .bpt c => [opcodeByte c 0x1D#5]
  | .hlt c => [opcodeByte c 0x1E#5]
  | .nop c => [opcodeByte c 0x1F#5]
  | .xc => [0xC0#8]
  | .tf => [0xC1#8]
  | .xx => [0xC2#8]
  | .xy => [0xC3#8]
  | .xz => [0xC4#8]
  | .dr d => [(0xD#4 ++ d : Byte)]
  | .reservedC5 => [0xC5#8]
  | .reservedC6 p => [(0x63#7 ++ p : Byte)]
  | .reservedC8 p => [(0x19#5 ++ p : Byte)]

/-! ## The opcode table's numbering -/

/-- The first `n` bytes of a number, the least significant first. -/
def bytesOf (w : Nat) : Nat → List Byte
  | 0 => []
  | n + 1 => BitVec.ofNat 8 w :: bytesOf (w / 256) n

/-- How many whole bytes `nbits` bits take. -/
def wholeBytes (nbits : Nat) : Nat := (nbits + 7) / 8

/-- The bytes of an instruction that the opcode table numbers as `w` over `nbits` bits, least significant byte
first, with eight zero bytes after them (more than any row's operands). -/
def tableBytes (nbits w : Nat) : List Byte := bytesOf (w % 2 ^ nbits) (wholeBytes nbits + 8)

/-- The row the decoder reads from the opcode table's number, under the default `WRB_IMM_BYTES` = 2 (D5). -/
def decodeTableWord (nbits w : Nat) : Option Instr :=
  match decode .two false (tableBytes nbits w) with
  | .ok (i, _) => some i
  | .error _ => none

end Sys2Proof
end

