-- ==== Sys2Proof/Machine/Flags.lean ====
section
/-! DEFINITION. Every flag computation of the spec (R20 to R24, R91, R118, R120) and the arithmetic that yields a
result together with its flags (R141 to R155). -/

namespace Sys2Proof.Machine

/-! ## The bits of `FLAGS` (R43) -/

/-- Bit `i` of a word replaced by `b`. -/
def withBit (w : Word) (i : Nat) (b : Bool) : Word :=
  if b then w ||| (1#16 <<< i) else w &&& ~~~(1#16 <<< i)

/-- `ZF` (R43). -/
def zfOf (f : Word) : Bool := f.getLsbD 0
/-- `SF` (R43). -/
def sfOf (f : Word) : Bool := f.getLsbD 1
/-- `PF` (R43). -/
def pfOf (f : Word) : Bool := f.getLsbD 2
/-- `CF` (R43). -/
def cfOf (f : Word) : Bool := f.getLsbD 3
/-- `VF` (R43). -/
def vfOf (f : Word) : Bool := f.getLsbD 4
/-- `FLAG_DENY_XREGS` (R44). -/
def denyXregsOf (f : Word) : Bool := f.getLsbD 5

/-- What an instruction writes to the five flags: a flag that its `FLAGS` column does not list is `none` and
keeps its value (R24, R91). -/
structure FlagWrite where
  z : Option Bool := none
  s : Option Bool := none
  p : Option Bool := none
  c : Option Bool := none
  v : Option Bool := none
deriving DecidableEq, Repr

/-- One flag bit written, or kept when the instruction does not list it. -/
def putFlag (i : Nat) (b : Option Bool) (f : Word) : Word :=
  match b with
  | some b => withBit f i b
  | none => f

/-- `FLAGS` after an instruction's write-back: only the listed bits of 0 to 4 change (R43). -/
def putFlags (f : Word) (w : FlagWrite) : Word :=
  putFlag 4 w.v (putFlag 3 w.c (putFlag 2 w.p (putFlag 1 w.s (putFlag 0 w.z f))))

/-! ## `ZF`, `SF`, `PF` of a result (R21) -/

/-- An odd number of bits set (R21). -/
def parity {n : Nat} (v : BitVec n) : Bool := (List.range n).foldl (fun acc i => acc ^^ v.getLsbD i) false

/-- The triple `ZSP(v)` and nothing else (R21), at the width of the result. -/
def zsp {n : Nat} (v : BitVec n) : FlagWrite :=
  { z := some (v == 0#n), s := some v.msb, p := some (parity v) }

/-! ## Conditions (R118) -/

/-- `Cond(c)` on a value of `FLAGS`. Code 6 cannot occur: a byte with that field is a prefix (R83); it is taken
as false (assumption log entry 21). -/
def condHolds (code : BitVec 4) (f : Word) : Bool :=
  match code.toNat with
  | 0x0 => zfOf f
  | 0x1 => !zfOf f
  | 0x2 => cfOf f && !zfOf f
  | 0x3 => !cfOf f || zfOf f
  | 0x4 => !cfOf f
  | 0x5 => cfOf f
  | 0x6 => false
  | 0x7 => true
  | 0x8 => sfOf f
  | 0x9 => !sfOf f
  | 0xA => !zfOf f && (sfOf f == vfOf f)
  | 0xB => zfOf f || (sfOf f != vfOf f)
  | 0xC => sfOf f != vfOf f
  | 0xD => sfOf f == vfOf f
  | 0xE => pfOf f
  | _ => !pfOf f

/-- The 4-bit condition code: an `XC` prefix adds 8 to the field (R83, R113). -/
def condCode (xc : Bool) (field : BitVec 3) : BitVec 4 := BitVec.ofBool xc ++ field

/-! ## Results with their flags -/

/-- A one-register result and the flags it would write. -/
structure Result where
  value : Word
  flags : FlagWrite
deriving DecidableEq, Repr

/-- A two-register result, for `Rd` and for `Rdx`, and the flags it would write. -/
structure PairResult where
  rd : Word
  rdx : Word
  flags : FlagWrite
deriving DecidableEq, Repr

/-- `a + b + carry` on 17 bits (R22). -/
def sum17 (a b : Word) (carry : BitVec 17) : BitVec 17 := a.setWidth 17 + b.setWidth 17 + carry

/-- `ADD` and `INC`: the sum modulo 2^16, `CF` the 17-bit sum's bit 16, `VF` signed overflow (R141, R155, R22,
R23). -/
def addResult (a b : Word) : Result :=
  let w := sum17 a b 0
  let r := w.setWidth 16
  { value := r
    flags := { zsp r with c := some (w.getLsbD 16), v := some (a.msb == b.msb && r.msb != a.msb) } }

/-- `SUB` and `CMP`: `a + ~b + 1`, so `CF` set means no borrow (R142, R154, R22, R23). -/
def subResult (a b : Word) : Result :=
  let w := sum17 a (~~~b) 1
  let r := w.setWidth 16
  { value := r
    flags := { zsp r with c := some (w.getLsbD 16), v := some (a.msb != b.msb && r.msb != a.msb) } }

/-- A result whose row lists `ZSP` only (R145 to R149, R153, R180, R182). -/
def plainResult (r : Word) : Result := { value := r, flags := zsp r }

/-- `MUL_CF`: bit 16 of the product, but for the operands that the parameter lists (R143, D7; assumption log entry 8). -/
def mulCf (table : List (Bool × Word × Word)) (signed : Bool) (a b : Word) (p : BitVec 32) : Bool :=
  p.getLsbD 16 != table.contains (signed, a, b)

/-- `MLU` and `MLS`: the low half for `Rd`, the high half for `Rdx`, `ZSP` of all 32 bits, `VF` open (R143, R144).
-/
def mulResult (table : List (Bool × Word × Word)) (signed : Bool) (a b : Word) : PairResult :=
  let p : BitVec 32 := if signed then a.signExtend 32 * b.signExtend 32 else a.setWidth 32 * b.setWidth 32
  { rd := p.extractLsb' 0 16
    rdx := p.extractLsb' 16 16
    flags := { zsp p with c := some (mulCf table signed a b p), v := some (Config.mulVf signed a b) } }

/-- `DVU` by a nonzero divisor: floor quotient for `Rd`, remainder for `Rdx`, `ZSP` of the quotient (R145). -/
def dvuResult (a b : Word) : PairResult :=
  let q : Word := BitVec.ofNat 16 (a.toNat / b.toNat)
  { rd := q, rdx := BitVec.ofNat 16 (a.toNat % b.toNat), flags := zsp q }

/-- `DVS` by a nonzero divisor without overflow: the quotient rounded as `DVS_ROUND` says, and the remainder that
makes `a = q * b + m` (R146). -/
def dvsResult (round : DvsRound) (a b : Word) : PairResult :=
  let q : Int := match round with
    | .trunc => a.toInt.tdiv b.toInt
    | .floor => a.toInt.fdiv b.toInt
  let m : Int := a.toInt - q * b.toInt
  let w : Word := BitVec.ofInt 16 q
  { rd := w, rdx := BitVec.ofInt 16 m, flags := zsp w }

/-- `SHIFT_COUNT`: the whole 16-bit value, but for the values that the parameter lists (R150, D8; assumption log
entry 9). -/
def shiftCount (table : List (Word × Nat)) (v : Word) : Nat := (table.lookup v).getD v.toNat

/-- `SHL`: `CF` is bit 16 of the unbounded result (R150). -/
def shlResult (a : Word) (n : Nat) : Result :=
  let r := a <<< n
  { value := r, flags := { zsp r with c := some ((a.setWidth 17 <<< n).getLsbD 16) } }

/-- `SRU`: zeros enter at the top; `CF` is the open `SHR_CF` (R151). -/
def sruResult (a : Word) (n : Nat) : Result :=
  let r := a >>> n
  { value := r, flags := { zsp r with c := some (Config.shrCf false a n) } }

/-- `SRS`: copies of the sign bit enter at the top; `CF` is the open `SHR_CF` (R152). -/
def srsResult (a : Word) (n : Nat) : Result :=
  let r := a.sshiftRight n
  { value := r, flags := { zsp r with c := some (Config.shrCf true a n) } }

/-- A byte widened to 16 bits as `BYTE_LOAD_EXT` says (R182, R220). -/
def widenByte (ext : ByteExt) (b : Byte) : Word :=
  match ext with
  | .zero => b.setWidth 16
  | .sign => b.signExtend 16

/-- `SImm4`: 1 to 8 for nibbles 0 to 7, -8 to -1 for nibbles 8 to 15, as a 16-bit pattern (R88). -/
def simm4 (n : BitVec 4) : Word := if n.msb then n.signExtend 16 else n.setWidth 16 + 1

/-- A result whose row lists `ZSPC`, with `CF` 0 because the access succeeded (R171, R172, R220). -/
def okResult (r : Word) : Result := { value := r, flags := { zsp r with c := some false } }

/-- The flags after a failed access: `CF` 1, the other three the low bits of a free value (R171, R172, R220). -/
def failFlags (free : Word) : FlagWrite :=
  { z := some (free.getLsbD 0), s := some (free.getLsbD 1), p := some (free.getLsbD 2), c := some true }

/-- `WRB` lists `C` alone (R221). -/
def carryOnly (b : Bool) : FlagWrite := { c := some b }

end Sys2Proof.Machine
end

