-- ==== Sys2Proof/Machine/Memory.lean ====
section
/-! DEFINITION. The physical memory as data: the bytes that something has written, as address and byte pairs in
strictly rising order of address. An address that is not listed holds no value, and reading it faults (R49,
R258; assumption log entry 5). -/

namespace Sys2Proof.Machine

/-- The byte at a physical address, if anything has written it. -/
def Memory.read : List Host.Cell → Nat → Option Byte
  | [], _ => none
  | (k, v) :: m, a => if k = a then some v else Memory.read m a

/-- Write one byte, keeping the addresses in strictly rising order. -/
def Memory.write : List Host.Cell → Nat → Byte → List Host.Cell
  | [], a, b => [(a, b)]
  | (k, v) :: m, a, b =>
    if a < k then (a, b) :: (k, v) :: m
    else if a = k then (a, b) :: m
    else (k, v) :: Memory.write m a b

/-- Every address is above `low` and the list rises strictly. -/
def Memory.rising : (low : Option Nat) → List Host.Cell → Bool
  | _, [] => true
  | none, (k, _) :: m => Memory.rising (some k) m
  | some l, (k, _) :: m => decide (l < k) && Memory.rising (some k) m

/-- The canonical form: strictly rising addresses, all of 24 bits (R50). An unlisted address reads as no value,
so no entry can equal what it reads as. -/
def Memory.wf (m : List Host.Cell) : Bool :=
  Memory.rising none m && m.all (fun e => decide (e.1 < 2 ^ 24))

end Sys2Proof.Machine
end

