-- ==== Sys2Proof/Machine/Launch.lean ====
section
/-! DEFINITION. The parameters a run starts with: the spec's defaults where it gives one, the launch convention
of R273 for `PHYS_MAP`, an opaque constant where the spec leaves the parameter OPEN (assumption log entries 3
and 4). -/

namespace Sys2Proof.Machine

/-- The code at launch of exception number `k` of R240's table. -/
def launchCode (k : Fin 8) : BitVec 3 := BitVec.ofFin (Config.excCodePerm k)

/-- `EXC_CODE` at launch: injective, otherwise unknown (R241). -/
def launchExcCodes : ExcCodes where
  deniedCreg := launchCode 0
  deniedInsn := launchCode 1
  timer := launchCode 2
  mmu := launchCode 3
  bus := launchCode 4
  unaligned := launchCode 5

/-- `PHYS_MAP` at launch: plain memory at physical addresses 0x000000 to 0x00FFFF (R273). -/
def launchPhysMap : List BusRegion :=
  [{ base := 0, size := 0x10000, read := true, write := true, fetch := true }]

/-- The parameters at launch. -/
def launchParams : Params where
  sharedCregs := 0
  memBase := .rx
  byteExt := .zero
  wrbImm := .two
  excAction := .stop
  excCodes := launchExcCodes
  cregFailRead := 0
  cregFailWrite := 0
  pteFault := Config.pteFault
  physMap := launchPhysMap
  mulCf := []
  shiftCount := []
  dvsRound := Config.dvsRound
  debugger := false

end Sys2Proof.Machine
end

