-- ==== Sys2Proof/Machine/State.lean ====
section
/-! DEFINITION. The state of the machine (R10, R11), as plain data, and the reasons a step can stop. -/

namespace Sys2Proof.Machine

/-- The two thread state contexts (R10). The source gives them no names; the one that runs first is context 0
(R49). -/
inductive CtxId where
  | ctx0
  | ctx1
deriving DecidableEq, Repr

/-- One thread state context: `R1` to `R15` (register 0 holds no state, R11) and `CR0` to `CR15` (R25). -/
structure Context where
  regs : Vector Word 15
  cregs : Vector Word 16
deriving DecidableEq, Repr

/-- The prefixes of the instruction being fetched (R110: `xc`, `tf`, `xx`, `xy`, `xz`, `nd`, `d1`, `d2`). -/
structure Latch where
  xc : Bool := false
  tf : Bool := false
  xx : Bool := false
  xy : Bool := false
  xz : Bool := false
  rd : Option RegNo := none
  rdx : Option RegNo := none
  extraDr : Bool := false
deriving DecidableEq, Repr

/-- The six exceptions with what they record: the access mode and the virtual address of a memory exception
(R240, R242). -/
inductive Exc where
  | deniedCreg
  | deniedInsn
  | timer
  | mmu (mode : AccessMode) (addr : Word)
  | bus (mode : AccessMode) (addr : Word)
  | unaligned (mode : AccessMode) (addr : Word)
deriving DecidableEq, Repr

/-- How the last step ended, for the host to see: completed (R122), with an exception (R243), or at a
breakpoint with a debugger attached (R222). -/
inductive StepEnd where
  | completed
  | exception (e : Exc)
  | breakpoint
deriving DecidableEq, Repr

/-- One port access, in the order the program makes them (R225). -/
inductive PortEvent where
  | read (port : PortNo) (answer : Option Byte)
  | write (port : PortNo) (byte : Byte) (accepted : Bool)
deriving DecidableEq, Repr

/-- The environment behind the 16 ports (R11, R225): the answers it has ready for the next reads and writes, in
order, and the accesses made so far. Where no answer is ready the oracle of Config answers. -/
structure Ports where
  reads : List (Option Byte)
  writes : List Bool
  log : List PortEvent
deriving DecidableEq, Repr

/-- The whole machine. -/
structure State where
  /-- Which context executes (R11). -/
  active : CtxId
  ctx0 : Context
  ctx1 : Context
  /-- Physical memory (R47), in the canonical form of `Memory.wf`. -/
  mem : List Host.Cell
  ports : Ports
  /-- The prefixes fetched so far of the instruction in progress; empty between steps. -/
  latch : Latch
  /-- How the last step ended. -/
  ended : StepEnd
  /-- The model's own: how many free values have been drawn. -/
  draws : Nat
  /-- The implementation parameters; no step changes them. -/
  cfg : Params
deriving DecidableEq, Repr

/-- Why the machine stops without a next state, and the machine as the rules left it at the stop (R226). Each is a
model fault of R258 and never a final state. -/
inductive Fault where
  /-- A reserved prefix byte 0xC5 to 0xCF (R96). Safe. -/
  | reservedPrefix (s : State)
  /-- `DVU` or `DVS` by 0 (R145, R146). Safe. -/
  | divideByZero (s : State)
  /-- `DVS` of -32768 by -1 (R146). Safe. -/
  | divideOverflow (s : State)
  /-- A read, fetch or table walk met a backed physical byte that nothing has written (R49, R258). Safe. -/
  | unwrittenMemory (pa : Nat) (s : State)
  /-- The fetch met only prefix bytes until it came back to the byte it began with, so the instruction never
  ends (R80, R92, R111). Safe. -/
  | endlessPrefixes (s : State)
  /-- A step was asked of a machine that a breakpoint has handed to the debugger (R222, U19). Safe. -/
  | heldByDebugger (s : State)
deriving DecidableEq, Repr

/-- Why an instruction is refused, and the machine as the rules left it (R226): the spec gives the form no meaning
(R258). -/
inductive Refusal where
  /-- An instruction that has no meaning in this model yet. Safe. -/
  | notModelled (mnemonic : String)
  /-- A prefix on an instruction that lacks the operand it modifies (R114). Safe. -/
  | prefixWithoutOperand (s : State)
  /-- A third `DR` prefix (R94, R114). Safe. -/
  | thirdDr (s : State)
  /-- `Rd` and `Rdx` are the same register (R158). Safe. -/
  | sameDestination (s : State)
  /-- `FCA` with `RA` or `RD` of the active bank as an operand (R204). Safe. -/
  | linkRegisterOperand (s : State)
  /-- `WRC` to `EXEC_STATE_0` or `EXEC_STATE_1` (R32, R172). Safe. -/
  | execStateWrite (s : State)
  /-- `WRC` that sets a reserved bit (R46, R172). Safe. -/
  | reservedBitWrite (s : State)
  /-- The fetched bytes are no row of the opcode table; `fetchRow_decodes` proves that no step answers it. Safe. -/
  | undecodable (s : State)
deriving DecidableEq, Repr

/-- A context after reset: `DPC` is 0 (R49); every other register at 0, the value assumption log entry 2 names. -/
def Context.reset : Context where
  regs := Vector.replicate 15 0
  cregs := Vector.replicate 16 0

/-- The machine right after reset (R49, R270): context 0 active, `DPC` and `R0` 0 in both contexts, nothing in
memory; the rest at the values that assumption log entries 2, 3 and 4 name. -/
def State.reset : State where
  active := .ctx0
  ctx0 := Context.reset
  ctx1 := Context.reset
  mem := []
  ports := { reads := [], writes := [], log := [] }
  latch := {}
  ended := .completed
  draws := 0
  cfg := launchParams

end Sys2Proof.Machine
end

