-- ==== Sys2Proof/Machine/Ops.lean ====
section
/-! DEFINITION. The named operations over the state: registers, control registers, free values, ports, address
translation, memory access, code fetch, the context swap, taking an exception, and the completion of an
instruction. -/

namespace Sys2Proof.Machine

/-! ## Contexts and general registers -/

/-- The other context. -/
def CtxId.other : CtxId → CtxId
  | .ctx0 => .ctx1
  | .ctx1 => .ctx0

/-- A context of the machine. -/
def State.ctx (s : State) : CtxId → Context
  | .ctx0 => s.ctx0
  | .ctx1 => s.ctx1

/-- The machine with one context replaced. -/
def State.setCtx (s : State) (c : CtxId) (x : Context) : State :=
  match c with
  | .ctx0 => { s with ctx0 := x }
  | .ctx1 => { s with ctx1 := x }

/-- A general register of a context; register 0 reads 0 (R13). -/
def Context.getReg (x : Context) (i : RegNo) : Word :=
  if i = 0#4 then 0#16 else x.regs[i.toNat - 1]'(by have := i.isLt; omega)

/-- A general register of a context written; a write to register 0 does nothing (R13). -/
def Context.setReg (x : Context) (i : RegNo) (v : Word) : Context :=
  if i = 0#4 then x else { x with regs := x.regs.set (i.toNat - 1) v (by have := i.isLt; omega) }

/-- `x[b,i]` (R13). -/
def State.getReg (s : State) (c : CtxId) (i : RegNo) : Word := (s.ctx c).getReg i

/-- `x[b,i] <- v` (R13). -/
def State.setReg (s : State) (c : CtxId) (i : RegNo) (v : Word) : State := s.setCtx c ((s.ctx c).setReg i v)

/-- `SP`, `RA`, `RD`, `PC`, `DPC` by number (R12). -/
abbrev regSP : RegNo := 11#4
abbrev regRA : RegNo := 12#4
abbrev regRD : RegNo := 13#4
abbrev regPC : RegNo := 14#4
abbrev regDPC : RegNo := 15#4

/-! ## Control registers (R25, R26) -/

abbrev crDenyR : CRegNo := 0#4
abbrev crDenyW : CRegNo := 1#4
abbrev crInsnDeny0 : CRegNo := 2#4
abbrev crInsnDeny1 : CRegNo := 3#4
abbrev crCountLo : CRegNo := 4#4
abbrev crCountHi : CRegNo := 5#4
abbrev crExecState0 : CRegNo := 6#4
abbrev crExecState1 : CRegNo := 7#4
abbrev crMembaseR : CRegNo := 8#4
abbrev crMembaseW : CRegNo := 9#4
abbrev crMembaseX : CRegNo := 10#4
abbrev crExcInfo : CRegNo := 11#4
abbrev crExcAddr : CRegNo := 12#4
abbrev crTimer : CRegNo := 13#4
abbrev crInsnAddr : CRegNo := 14#4
abbrev crFlags : CRegNo := 15#4

/-- The context whose storage holds control register `n` of context `c`: a shared register exists once, and its
one copy stands in context 0's storage (R10; assumption log entry 19). -/
def Params.home (p : Params) (c : CtxId) (n : CRegNo) : CtxId :=
  if p.sharedCregs.getLsbD n.toNat then .ctx0 else c

/-- `cr[b,n]` (R25). -/
def State.getCr (s : State) (c : CtxId) (n : CRegNo) : Word :=
  (s.ctx (Params.home s.cfg c n)).cregs[n.toNat]'n.isLt

/-- `cr[b,n] <- v` (R25). -/
def State.setCr (s : State) (c : CtxId) (n : CRegNo) (v : Word) : State :=
  let h := Params.home s.cfg c n
  s.setCtx h { s.ctx h with cregs := (s.ctx h).cregs.set n.toNat v n.isLt }

/-- `FLAGS` of a context (R43). -/
def State.flags (s : State) (c : CtxId) : Word := s.getCr c crFlags

/-- `WriteFlags`: the listed flags of the context's `FLAGS`, when write-back is on (R120). -/
def State.writeFlags (s : State) (c : CtxId) (wf : Bool) (w : FlagWrite) : State :=
  if wf then s.setCr c crFlags (putFlags (s.flags c) w) else s

/-! ## Free values (R246, R39, R32; assumption log entry 7) -/

/-- The next free value. -/
def State.freeWord (s : State) : Word := Config.draw s.draws

/-- The next free value is used up. -/
def State.drawn (s : State) : State := { s with draws := s.draws + 1 }

/-- A general register takes a free value. -/
def State.drawReg (s : State) (c : CtxId) (i : RegNo) : State := s.drawn.setReg c i s.freeWord

/-- A control register takes a free value. -/
def State.drawCr (s : State) (c : CtxId) (n : CRegNo) : State := s.drawn.setCr c n s.freeWord

/-! ## Ports (R225) -/

/-- The environment's answer to the next read of a port: the script's if it has one, else the oracle's. -/
def State.portAnswer (s : State) (p : PortNo) : Option Byte :=
  match s.ports.reads with
  | a :: _ => a
  | [] => Config.portRead s.ports.log.length p

/-- The environment's answer to the next write of a byte to a port. -/
def State.portAccepts (s : State) (p : PortNo) (b : Byte) : Bool :=
  match s.ports.writes with
  | a :: _ => a
  | [] => Config.portWrite s.ports.log.length p b

/-- A port read is made: its answer is used up and the access recorded, in program order. -/
def State.portReadDone (s : State) (p : PortNo) : State :=
  { s with ports := { s.ports with
      reads := s.ports.reads.tail
      log := s.ports.log ++ [.read p (s.portAnswer p)] } }

/-- A port write is made: its answer is used up and the access recorded, in program order. -/
def State.portWriteDone (s : State) (p : PortNo) (b : Byte) : State :=
  { s with ports := { s.ports with
      writes := s.ports.writes.tail
      log := s.ports.log ++ [.write p b (s.portAccepts p b)] } }

/-! ## Memory access -/

/-- What an access answers: a value, an exception to raise, or a backed byte that nothing has written, at which the
machine stops (R49). It changes no state. -/
inductive Access (α : Type) where
  | ok (a : α)
  | exc (e : Exc)
  | unwritten (pa : Nat)
deriving Repr

/-- An access that goes on with the value of another. -/
def Access.andThen {α β : Type} (x : Access α) (k : α → Access β) : Access β :=
  match x with
  | .ok a => k a
  | .exc e => .exc e
  | .unwritten pa => .unwritten pa

/-- The `MEMBASE` register of an access mode, in the active context (R56, R57). -/
def State.membase (s : State) : AccessMode → Word
  | .read => s.getCr s.active crMembaseR
  | .write => s.getCr s.active crMembaseW
  | .execute => s.getCr s.active crMembaseX

/-- The region answers this kind of bus access. -/
def regionAllows (r : BusRegion) : AccessMode → Bool
  | .read => r.read
  | .write => r.write
  | .execute => r.fetch

/-- `PHYS_MAP(pa, kind)` (R62). -/
def physMapHas (map : List BusRegion) (pa : Nat) (kind : AccessMode) : Bool :=
  map.any fun r => decide (r.base ≤ pa) && decide (pa < r.base + r.size) && regionAllows r kind

/-- `PTE_FAULT(pte, mode)` (R61). -/
def pteFaults (rules : List PteRule) (pte : Word) (mode : AccessMode) : Bool :=
  rules.any fun r => r.mode == mode && decide (r.lo.toNat ≤ pte.toNat) && decide (pte.toNat ≤ r.hi.toNat)

/-- `PhysRead(pa)` by a bus access of the given kind, on behalf of an access in `mode` at virtual address `va`
(R62). -/
def State.physRead (s : State) (kind mode : AccessMode) (va : Word) (pa : PhysAddr) : Access Byte :=
  if physMapHas s.cfg.physMap pa.toNat kind then
    match Memory.read s.mem pa.toNat with
    | some b => .ok b
    | none => .unwritten pa.toNat
  else .exc (.bus mode va)

/-- `RegionTranslate` (R58): the region number in front of the virtual address. -/
def regionTranslate (m va : Word) : PhysAddr := m.extractLsb' 8 8 ++ va

/-- The address of the page-table entry of a virtual address (R59, R60). -/
def pteAddr (m va : Word) : PhysAddr :=
  ((m &&& 0xFFFE#16) ++ 0#8 : BitVec 24) + 2#24 * (va.extractLsb' 8 8).setWidth 24

/-- `PageTranslate` (R60): the walk reads the entry from the physical bus, untranslated. -/
def State.pageTranslate (s : State) (m va : Word) (mode : AccessMode) : Access PhysAddr :=
  (s.physRead .read mode va (pteAddr m va)).andThen fun lo =>
  (s.physRead .read mode va (pteAddr m va + 1)).andThen fun hi =>
  if pteFaults s.cfg.pteFault (wordOf lo hi) mode then .exc (.mmu mode va)
  else .ok (wordOf lo hi ++ va.extractLsb' 0 8)

/-- `Translate(va, mode)` (R57). -/
def State.translate (s : State) (va : Word) (mode : AccessMode) : Access PhysAddr :=
  if (s.membase mode).getLsbD 0 then s.pageTranslate (s.membase mode) va mode
  else .ok (regionTranslate (s.membase mode) va)

/-- `MemRead(addr, 1)` (R63). -/
def State.readByte (s : State) (va : Word) : Access Byte :=
  (s.translate va .read).andThen fun pa => s.physRead .read .read va pa

/-- `MemRead(addr, 2)` (R63): alignment, translation, then the two bytes, low first. -/
def State.readWord (s : State) (va : Word) : Access Word :=
  if va.getLsbD 0 then .exc (.unaligned .read va)
  else
    (s.translate va .read).andThen fun pa =>
    (s.physRead .read .read va pa).andThen fun lo =>
    (s.physRead .read .read va (pa + 1)).andThen fun hi =>
    .ok (wordOf lo hi)

/-- `PhysWrite(pa, b)` where the bus answers (R62). -/
def State.putByte (s : State) (pa : PhysAddr) (b : Byte) : State :=
  { s with mem := Memory.write s.mem pa.toNat b }

/-- `MemWrite(addr, 1, b)` (R64). -/
def State.writeByte (s : State) (va : Word) (b : Byte) : Access State :=
  (s.translate va .write).andThen fun pa =>
  if physMapHas s.cfg.physMap pa.toNat .write then .ok (s.putByte pa b) else .exc (.bus .write va)

/-- `MemWrite(addr, 2, v)` (R64): when an exception is raised no byte is written, so both bytes' bus answers are
asked first. -/
def State.writeWord (s : State) (va : Word) (v : Word) : Access State :=
  if va.getLsbD 0 then .exc (.unaligned .write va)
  else
    (s.translate va .write).andThen fun pa =>
    if physMapHas s.cfg.physMap pa.toNat .write && physMapHas s.cfg.physMap (pa + 1).toNat .write then
      .ok ((s.putByte pa (loByte v)).putByte (pa + 1) (hiByte v))
    else .exc (.bus .write va)

/-! ## What an instruction's execute step answers -/

/-- The answer of an instruction's own rule: done, an exception raised in a state that keeps what was already
done, a stop at a breakpoint, a model fault, or a refusal. -/
inductive Effect where
  | done (s : State)
  | raise (e : Exc) (s : State)
  | halt (s : State)
  | fault (f : Fault)
  | refuse (r : Refusal)
deriving Repr

/-- Go on with the value of an access; if it raises, the state is `onExc`, and if it stops at a byte that nothing has
written, the machine is left in `onStop` (R226). -/
def Access.thenDo {α : Type} (x : Access α) (onExc onStop : State) (k : α → Effect) : Effect :=
  match x with
  | .ok a => k a
  | .exc e => .raise e onExc
  | .unwritten pa => .fault (.unwrittenMemory pa onStop)

/-! ## Code fetch (R111) -/

/-- The address of the next code byte: `PC + 1 + DPC` (R17). -/
def nextPc (pc dpc : Word) : Word := pc + 1 + dpc

/-- What a fetch answers, each with the machine as the fetch left it: what it read, an exception to raise, or a stop at
a byte that nothing has written. `PC` is past the bytes read and not past the failing one (R111). -/
inductive Fetch (α : Type) where
  | ok (a : α) (s : State)
  | exc (e : Exc) (s : State)
  | unwritten (pa : Nat) (s : State)
deriving Repr

/-- A fetch that goes on from where another left the machine. -/
def Fetch.andThen {α β : Type} (x : Fetch α) (k : α → State → Fetch β) : Fetch β :=
  match x with
  | .ok a s => k a s
  | .exc e s => .exc e s
  | .unwritten pa s => .unwritten pa s

/-- The code byte at `PC` of the active context (R111). -/
def State.codeByte (s : State) : Access Byte :=
  (s.translate (s.getReg s.active regPC) .execute).andThen fun pa =>
  s.physRead .execute .execute (s.getReg s.active regPC) pa

/-- `PC` of the active context past one code byte (R17). -/
def State.stepPc (s : State) : State :=
  s.setReg s.active regPC (nextPc (s.getReg s.active regPC) (s.getReg s.active regDPC))

/-- `FetchByte()` in the active context (R111). -/
def State.fetchByte (s : State) : Fetch Byte :=
  match s.codeByte with
  | .ok b => .ok b s.stepPc
  | .exc e => .exc e s
  | .unwritten pa => .unwritten pa s

/-! ## The context swap, taking an exception, completion -/

/-- The context swap of `HLT` (R223), which is also the only way back from a handler context: the architecture
has no return-from-exception instruction (R248). -/
def State.swapContexts (s : State) : State := { s with active := s.active.other }

/-- The type code of an exception (R241). -/
def excCode (codes : ExcCodes) : Exc → BitVec 3
  | .deniedCreg => codes.deniedCreg
  | .deniedInsn => codes.deniedInsn
  | .timer => codes.timer
  | .mmu _ _ => codes.mmu
  | .bus _ _ => codes.bus
  | .unaligned _ _ => codes.unaligned

/-- The mode field's value of an access mode (R35). -/
def modeBits : AccessMode → BitVec 2
  | .read => 0b01#2
  | .write => 0b10#2
  | .execute => 0b11#2

/-- The mode field of an exception: `00` unless it is a memory exception (R35, R242). -/
def excMode : Exc → BitVec 2
  | .deniedCreg | .deniedInsn | .timer => 0b00#2
  | .mmu m _ | .bus m _ | .unaligned m _ => modeBits m

/-- The virtual address a memory exception records (R39, R242). -/
def excAddr : Exc → Option Word
  | .deniedCreg | .deniedInsn | .timer => none
  | .mmu _ a | .bus _ a | .unaligned _ a => some a

/-- What an exception writes to `EXC_INFO` (R38). -/
def excInfo (codes : ExcCodes) (e : Exc) : Word := excMode e ++ 0#10 ++ excCode codes e ++ 1#1

/-- The record of an exception in context `c` (R242, R243): `EXC_INFO`, and `EXC_ADDR`, which after a non-memory
exception is a free value (R39). -/
def State.recordExc (s : State) (c : CtxId) (e : Exc) : State :=
  let t := s.setCr c crExcInfo (excInfo s.cfg.excCodes e)
  match excAddr e with
  | some a => t.setCr c crExcAddr a
  | none => t.drawCr c crExcAddr

/-- `PC` of the executing context is unspecified after every exception but `EXC_TIMER`, which is precise (R245,
R246). -/
def State.loosePc (s : State) (c : CtxId) (e : Exc) : State :=
  if e = .timer then s else s.drawReg c regPC

/-- `deliver` (R244): under `stop` the machine hands its state to the host; under `swap` the other context runs
on. -/
def State.deliver (s : State) : State :=
  match s.cfg.excAction with
  | .stop => s
  | .swap => s.swapContexts

/-- The prefixes noted so far replaced. -/
def State.setLatch (s : State) (l : Latch) : State := { s with latch := l }

/-- The step is over and ended as said; the prefixes lasted for its one instruction (R113). -/
def State.endStep (s : State) (e : StepEnd) : State := { s with latch := {}, ended := e }

/-- `raise`: take exception `e` raised by the instruction that context `c` began (R243, R246, R244). -/
def State.takeException (s : State) (c : CtxId) (e : Exc) : State :=
  (((s.recordExc c e).loosePc c e).deliver).endStep (.exception e)

/-- `INSN_COUNT`, the 32-bit count of a context (R31). -/
def State.insnCount (s : State) (c : CtxId) : BitVec 32 := s.getCr c crCountHi ++ s.getCr c crCountLo

/-- `INSN_COUNT` one higher, modulo 2^32 (R31). -/
def State.countUp (s : State) (c : CtxId) : State :=
  let n := s.insnCount c + 1
  (s.setCr c crCountLo (n.extractLsb' 0 16)).setCr c crCountHi (n.extractLsb' 16 16)

/-- Completion of an instruction that context `c` began: the count, then the timer, whose step from 1 to 0
raises `EXC_TIMER` (R122, R123). -/
def State.complete (s : State) (c : CtxId) : State :=
  let s := s.countUp c
  let t := s.getCr c crTimer
  if t = 0#16 then s.endStep .completed
  else
    let s := s.setCr c crTimer (t - 1)
    if t - 1 = 0#16 then s.takeException c .timer
    else s.endStep .completed

/-- A stop at a breakpoint: the state goes to the host; the instruction does not complete (R222, R226; assumption
log entry 15). -/
def State.stopAtBreakpoint (s : State) : State := s.endStep .breakpoint

end Sys2Proof.Machine
end

