-- ==== Sys2Proof/Machine/Operands.lean ====
section
/-! DEFINITION. Operand resolution (R114), the operand shapes of the instructions, and the common part of the
instruction cycle after the fetch: the deny checks, the prefix check, the condition, the execute step and the
completion (R110, R115, R116). -/

namespace Sys2Proof.Machine

/-- An operand that is a register: a bank and a number (R114). -/
structure RegRef where
  bank : CtxId
  num : RegNo
deriving DecidableEq, Repr

/-- A register operand's value. -/
def State.getRef (s : State) (r : RegRef) : Word := s.getReg r.bank r.num

/-- A register operand written. -/
def State.setRef (s : State) (r : RegRef) (v : Word) : State := s.setReg r.bank r.num v

/-- A register operand takes a free value. -/
def State.drawRef (s : State) (r : RegRef) : State := s.drawReg r.bank r.num

/-- The bank of an operand: the inactive one under its cross prefix (R15, R114). -/
def State.bankOf (s : State) (cross : Bool) : CtxId := if cross then s.active.other else s.active

/-- `Rx` (R114). -/
def State.rx (s : State) (x : RegNo) : RegRef := { bank := s.bankOf s.latch.xx, num := x }

/-- `Ry` (R114). -/
def State.ry (s : State) (y : RegNo) : RegRef := { bank := s.bankOf s.latch.xy, num := y }

/-- `Rd`: the register of the first `DR` prefix, else the default (R94, R114). -/
def State.rd (s : State) (dflt : RegNo) : RegRef := { bank := s.bankOf s.latch.xz, num := s.latch.rd.getD dflt }

/-- `Rdx`: the register of the second `DR` prefix, else the one paired with `Rd`; in `Rd`'s bank (R95, R114). -/
def State.rdx (s : State) (dflt : RegNo) : RegRef :=
  { bank := s.bankOf s.latch.xz, num := s.latch.rdx.getD ((s.rd dflt).num ^^^ 1#4) }

/-- `Vy`: a register's value or the immediate (R85, R114). -/
def State.vy (s : State) : Vy → Word
  | .reg y => s.getRef (s.ry y)
  | .imm w => w

/-- Which operands an instruction has (the table of R114), with its opcode. -/
structure Shape where
  op : BitVec 5
  rx : Bool := false
  ry : Bool := false
  rd : Bool := false
  rdx : Bool := false
deriving DecidableEq, Repr

/-- Every prefix of the instruction modifies an operand it has (R114). -/
def Shape.allows (sh : Shape) (l : Latch) : Bool :=
  (!l.xx || sh.rx) && (!l.xy || sh.ry) && (!l.xz || sh.rd) && (l.rd.isNone || sh.rd) && (l.rdx.isNone || sh.rdx)

/-- The cross-bank check (R115, R44). -/
def State.deniesCross (s : State) : Bool :=
  (s.latch.xx || s.latch.xy || s.latch.xz) && denyXregsOf (s.flags s.active)

/-- The opcode deny masks (R29, R116). -/
def State.deniesOpcode (s : State) (op : BitVec 5) : Bool :=
  if op.toNat < 16 then (s.getCr s.active crInsnDeny0).getLsbD op.toNat
  else (s.getCr s.active crInsnDeny1).getLsbD (op.toNat - 16)

/-- The condition of the instruction holds (R118). -/
def State.condOn (s : State) (cond : BitVec 3) : Bool := condHolds (condCode s.latch.xc cond) (s.flags s.active)

/-- Flag write-back is on: the instruction is unconditional, inverted by `TF` (R120). -/
def State.writeBack (s : State) (cond : BitVec 3) : Bool := (cond == 7#3 && !s.latch.xc) != s.latch.tf

/-- The end of an instruction's step, by what its own rule answered. -/
def finish (c : CtxId) : Effect → Host.Outcome State Fault Refusal
  | .done s => .next (s.complete c)
  | .raise e s => .next (s.takeException c e)
  | .halt s => .next s.stopAtBreakpoint
  | .fault f => .fault f
  | .refuse r => .refused r

/-- Parts 2 to 4 of R110 for an instruction of the given shape: the cross-bank check, the opcode masks, the
refusal of prefixes without meaning (after the deny checks, R114), the condition, the execute step `body` (told
whether flag write-back is on) and the completion. -/
def runInsn (sh : Shape) (cond : BitVec 3) (body : Bool → State → Effect) (s : State) :
    Host.Outcome State Fault Refusal :=
  if s.deniesCross || s.deniesOpcode sh.op then .next (s.takeException s.active .deniedInsn)
  else if s.latch.extraDr then .refused (.thirdDr s)
  else if !sh.allows s.latch then .refused (.prefixWithoutOperand s)
  else if s.condOn cond then finish s.active (body (s.writeBack cond) s)
  else .next (s.complete s.active)

/-! ## Shapes shared by many instructions (R114) -/

/-- `ADD SUB XOR AND ORR SHL SRU SRS`, `LDW LDB STW STB`: `Rx`, `Vy` and `Rd`. -/
def shapeRd (op : BitVec 5) (v : Vy) : Shape := { op := op, rx := true, ry := v.isReg, rd := true }

/-- `MLU MLS DVU DVS`: `Rx`, `Vy`, `Rd` and `Rdx`. -/
def shapeRdx (op : BitVec 5) (v : Vy) : Shape := { op := op, rx := true, ry := v.isReg, rd := true, rdx := true }

/-- `MOV CMP BRA FCA`: `Rx` and `Vy`. -/
def shapeRxVy (op : BitVec 5) (v : Vy) : Shape := { op := op, rx := true, ry := v.isReg }

/-- `RDC RDB`: `Rx` alone. -/
def shapeRx (op : BitVec 5) : Shape := { op := op, rx := true }

/-- `BRR FCR BPT HLT NOP`: no operand a prefix modifies. -/
def shapeNone (op : BitVec 5) : Shape := { op := op }

end Sys2Proof.Machine
end

