-- ==== Sys2Proof/Machine/Arith.lean ====
section
/-! DEFINITION. Arithmetic, logic, shift, move, compare and increment (R140 to R158). -/

namespace Sys2Proof.Machine

/-- The execute step of an instruction that computes one result of `Rx` and `Vy`, writes it to `Rd` and writes its
flags: both operands are read before the write (R121, R140). -/
def oneResult (f : Word → Word → Result) (x : RegNo) (v : Vy) (wf : Bool) (s : State) : Effect :=
  let r := f (s.getRef (s.rx x)) (s.vy v)
  .done ((s.setRef (s.rd x) r.value).writeFlags s.active wf r.flags)

/-- The execute step of an instruction with two results: `Rd` and `Rdx` must differ (R158), both operands are read
before either write (R121, R157). -/
def twoResults (f : Word → Word → PairResult) (x : RegNo) (v : Vy) (wf : Bool) (s : State) : Effect :=
  let r := f (s.getRef (s.rx x)) (s.vy v)
  if (s.rd x).num = (s.rdx x).num then .refuse (.sameDestination s)
  else .done (((s.setRef (s.rd x) r.rd).setRef (s.rdx x) r.rdx).writeFlags s.active wf r.flags)

/-- The execute step of a shift: one result of `Rx` and of the count that `SHIFT_COUNT` makes of `Vy` (R150). -/
def shiftEffect (f : Word → Nat → Result) (x : RegNo) (v : Vy) (wf : Bool) (s : State) : Effect :=
  oneResult (fun a b => f a (shiftCount s.cfg.shiftCount b)) x v wf s

/-- The execute step of a multiply, with the `CF` of `MUL_CF` (R143). -/
def mulEffect (signed : Bool) (x : RegNo) (v : Vy) (wf : Bool) (s : State) : Effect :=
  twoResults (mulResult s.cfg.mulCf signed) x v wf s

/-- `ADD Rx, Vy`: `Rd := Rx + Vy`, flags `ZSPCV` (R141). -/
def execAdd (cond : BitVec 3) (x : RegNo) (v : Vy) (s : State) : Host.Outcome State Fault Refusal :=
  runInsn (shapeRd 0x00#5 v) cond (oneResult addResult x v) s

/-- `SUB Rx, Vy`: `Rd := Rx - Vy`, flags `ZSPCV` (R142). -/
def execSub (cond : BitVec 3) (x : RegNo) (v : Vy) (s : State) : Host.Outcome State Fault Refusal :=
  runInsn (shapeRd 0x01#5 v) cond (oneResult subResult x v) s

/-- `MLU Rx, Vy`: `Rdx:Rd := Rx * Vy` unsigned, flags `ZSPC*` (R143). -/
def execMlu (cond : BitVec 3) (x : RegNo) (v : Vy) (s : State) : Host.Outcome State Fault Refusal :=
  runInsn (shapeRdx 0x02#5 v) cond (mulEffect false x v) s

/-- `MLS Rx, Vy`: `Rdx:Rd := Rx * Vy` signed, flags `ZSPC*` (R144). -/
def execMls (cond : BitVec 3) (x : RegNo) (v : Vy) (s : State) : Host.Outcome State Fault Refusal :=
  runInsn (shapeRdx 0x03#5 v) cond (mulEffect true x v) s

/-- The execute step of `DVU`: a zero divisor is a model fault (R145). -/
def dvuEffect (x : RegNo) (v : Vy) (wf : Bool) (s : State) : Effect :=
  if s.vy v = 0#16 then .fault (.divideByZero s) else twoResults dvuResult x v wf s

/-- `DVU Rx, Vy`: `Rd, Rdx := Rx // Vy, Rx % Vy` unsigned, flags `ZSP` of the quotient (R145). -/
def execDvu (cond : BitVec 3) (x : RegNo) (v : Vy) (s : State) : Host.Outcome State Fault Refusal :=
  runInsn (shapeRdx 0x04#5 v) cond (dvuEffect x v) s

/-- The execute step of `DVS`: a zero divisor, and -32768 by -1, are model faults (R146). -/
def dvsEffect (x : RegNo) (v : Vy) (wf : Bool) (s : State) : Effect :=
  if s.vy v = 0#16 then .fault (.divideByZero s)
  else if s.getRef (s.rx x) = 0x8000#16 ∧ s.vy v = 0xFFFF#16 then .fault (.divideOverflow s)
  else twoResults (dvsResult s.cfg.dvsRound) x v wf s

/-- `DVS Rx, Vy`: `Rd, Rdx := Rx // Vy, Rx % Vy` signed, rounded as `DVS_ROUND` says, flags `ZSP` of the quotient
(R146). -/
def execDvs (cond : BitVec 3) (x : RegNo) (v : Vy) (s : State) : Host.Outcome State Fault Refusal :=
  runInsn (shapeRdx 0x05#5 v) cond (dvsEffect x v) s

/-- `XOR Rx, Vy`: `Rd := Rx ^ Vy`, flags `ZSP` (R147). -/
def execXor (cond : BitVec 3) (x : RegNo) (v : Vy) (s : State) : Host.Outcome State Fault Refusal :=
  runInsn (shapeRd 0x06#5 v) cond (oneResult (fun a b => plainResult (a ^^^ b)) x v) s

/-- `AND Rx, Vy`: `Rd := Rx & Vy`, flags `ZSP` (R148). -/
def execAnd (cond : BitVec 3) (x : RegNo) (v : Vy) (s : State) : Host.Outcome State Fault Refusal :=
  runInsn (shapeRd 0x07#5 v) cond (oneResult (fun a b => plainResult (a &&& b)) x v) s

/-- `ORR Rx, Vy`: `Rd := Rx | Vy`, flags `ZSP` (R149). -/
def execOrr (cond : BitVec 3) (x : RegNo) (v : Vy) (s : State) : Host.Outcome State Fault Refusal :=
  runInsn (shapeRd 0x08#5 v) cond (oneResult (fun a b => plainResult (a ||| b)) x v) s

/-- `SHL Rx, Vy`: `Rd := Rx << Vy`, flags `ZSPC` (R150). -/
def execShl (cond : BitVec 3) (x : RegNo) (v : Vy) (s : State) : Host.Outcome State Fault Refusal :=
  runInsn (shapeRd 0x09#5 v) cond (shiftEffect shlResult x v) s

/-- `SRU Rx, Vy`: `Rd := Rx >> Vy` with zeros entering, flags `ZSPC` (R151). -/
def execSru (cond : BitVec 3) (x : RegNo) (v : Vy) (s : State) : Host.Outcome State Fault Refusal :=
  runInsn (shapeRd 0x0A#5 v) cond (shiftEffect sruResult x v) s

/-- `SRS Rx, Vy`: `Rd := Rx >> Vy` with the sign entering, flags `ZSPC` (R152). -/
def execSrs (cond : BitVec 3) (x : RegNo) (v : Vy) (s : State) : Host.Outcome State Fault Refusal :=
  runInsn (shapeRd 0x0B#5 v) cond (shiftEffect srsResult x v) s

/-- The execute step of `MOV`: the destination is `Rx`, not `Rd` (R153). -/
def movEffect (x : RegNo) (v : Vy) (wf : Bool) (s : State) : Effect :=
  .done ((s.setRef (s.rx x) (s.vy v)).writeFlags s.active wf (zsp (s.vy v)))

/-- `MOV Rx, Vy`: `Rx := Vy`, flags `ZSP` (R153). -/
def execMov (cond : BitVec 3) (x : RegNo) (v : Vy) (s : State) : Host.Outcome State Fault Refusal :=
  runInsn (shapeRxVy 0x0C#5 v) cond (movEffect x v) s

/-- The execute step of `CMP`: the flags of `SUB` and no register write (R154). -/
def cmpEffect (x : RegNo) (v : Vy) (wf : Bool) (s : State) : Effect :=
  .done (s.writeFlags s.active wf (subResult (s.getRef (s.rx x)) (s.vy v)).flags)

/-- `CMP Rx, Vy`: `(void)(Rx - Vy)`, flags `ZSPCV` (R154). -/
def execCmp (cond : BitVec 3) (x : RegNo) (v : Vy) (s : State) : Host.Outcome State Fault Refusal :=
  runInsn (shapeRxVy 0x0D#5 v) cond (cmpEffect x v) s

/-- `INC Rx, SImm4`: `Rd := Rx + SImm4`, flags `ZSPCV` (R155). -/
def execInc (cond : BitVec 3) (x : RegNo) (k : BitVec 4) (s : State) : Host.Outcome State Fault Refusal :=
  runInsn { op := 0x1C#5, rx := true, rd := true } cond (oneResult addResult x (.imm (simm4 k))) s

end Sys2Proof.Machine
end

