-- ==== Sys2Proof/Machine/Control.lean ====
section
/-! DEFINITION. Control register access: `RDC` and `WRC` (R170 to R173). -/

namespace Sys2Proof.Machine

/-- `EXEC_STATE_0` or `EXEC_STATE_1` (R32). -/
def isExecState (n : CRegNo) : Bool := n == crExecState0 || n == crExecState1

/-- The value sets a reserved bit of control register `n`: bits 15:6 of `FLAGS`, bits 13:4 of `EXC_INFO`, bits 7:1
of a `MEMBASE` register whose bit 0 is 0 (R46, R34). -/
def setsReserved (n : CRegNo) (v : Word) : Bool :=
  if n = crFlags then v &&& 0xFFC0#16 != 0#16
  else if n = crExcInfo then v &&& 0x3FF0#16 != 0#16
  else if n = crMembaseR ∨ n = crMembaseW ∨ n = crMembaseX then !v.getLsbD 0 && v &&& 0x00FE#16 != 0#16
  else false

/-- The execute step of `RDC` (R171): the deny mask; a failing register leaves `CF` 1 and free values; a read of
`EXEC_STATE` is a free value (R32); every other register is read as it stands. -/
def rdcEffect (x : RegNo) (n : CRegNo) (wf : Bool) (s : State) : Effect :=
  if (s.getCr s.active crDenyR).getLsbD n.toNat then .raise .deniedCreg s
  else if s.cfg.cregFailRead.getLsbD n.toNat then
    let t := s.drawRef (s.rx x)
    .done (t.drawn.writeFlags s.active wf (failFlags t.freeWord))
  else if isExecState n then
    .done ((s.drawRef (s.rx x)).writeFlags s.active wf (okResult s.freeWord).flags)
  else
    let v := s.getCr s.active n
    .done ((s.setRef (s.rx x) v).writeFlags s.active wf (okResult v).flags)

/-- `RDC Rx, CReg`: read a control register, flags `ZSPC` (R171). -/
def execRdc (cond : BitVec 3) (x : RegNo) (n : CRegNo) (s : State) : Host.Outcome State Fault Refusal :=
  runInsn (shapeRx 0x0E#5) cond (rdcEffect x n) s

/-- The execute step of `WRC` (R172): the deny mask, the two refusals, a failing register, and otherwise the write
and then the flags. -/
def wrcEffect (n : CRegNo) (y : RegNo) (wf : Bool) (s : State) : Effect :=
  let v := s.getRef (s.ry y)
  if (s.getCr s.active crDenyW).getLsbD n.toNat then .raise .deniedCreg s
  else if isExecState n then .refuse (.execStateWrite s)
  else if setsReserved n v then .refuse (.reservedBitWrite s)
  else if s.cfg.cregFailWrite.getLsbD n.toNat then
    .done (s.drawn.writeFlags s.active wf (failFlags s.freeWord))
  else .done ((s.setCr s.active n v).writeFlags s.active wf (okResult v).flags)

/-- `WRC CReg, Ry`: write a control register, flags `ZSPC`; all 16 nibbles of `Ry` are registers (R172). -/
def execWrc (cond : BitVec 3) (n : CRegNo) (y : RegNo) (s : State) : Host.Outcome State Fault Refusal :=
  runInsn { op := 0x0F#5, ry := true } cond (wrcEffect n y) s

end Sys2Proof.Machine
end

