-- ==== Sys2Proof/Machine/LoadStore.lean ====
section
/-! DEFINITION. Loads, stores, push and pop (R180 to R188). -/

namespace Sys2Proof.Machine

/-- The default base register of a load or store (`MEM_BASE_DEFAULT`, R186). -/
def State.baseDefault (s : State) (x : RegNo) : RegNo :=
  match s.cfg.memBase with
  | .rx => x
  | .zero => 0#4

/-- The effective address `Rd + Vy`, modulo 2^16 (R186, R68). -/
def State.effAddr (s : State) (x : RegNo) (v : Vy) : Word := s.getRef (s.rd (s.baseDefault x)) + s.vy v

/-- The execute step of `LDW` (R180). -/
def ldwEffect (x : RegNo) (v : Vy) (wf : Bool) (s : State) : Effect :=
  (s.readWord (s.effAddr x v)).thenDo s s fun w =>
    .done ((s.setRef (s.rx x) w).writeFlags s.active wf (zsp w))

/-- `LDW Rx, [Vy]`: load the word at `Rd + Vy` into `Rx`, flags `ZSP` (R180). -/
def execLdw (cond : BitVec 3) (x : RegNo) (v : Vy) (s : State) : Host.Outcome State Fault Refusal :=
  runInsn (shapeRd 0x10#5 v) cond (ldwEffect x v) s

/-- The execute step of `STW` (R181). -/
def stwEffect (x : RegNo) (v : Vy) (_wf : Bool) (s : State) : Effect :=
  (s.writeWord (s.effAddr x v) (s.getRef (s.rx x))).thenDo s s .done

/-- `STW [Vy], Rx`: store the word `Rx` at `Rd + Vy`, no flags (R181). -/
def execStw (cond : BitVec 3) (x : RegNo) (v : Vy) (s : State) : Host.Outcome State Fault Refusal :=
  runInsn (shapeRd 0x11#5 v) cond (stwEffect x v) s

/-- The execute step of `LDB` (R182). -/
def ldbEffect (x : RegNo) (v : Vy) (wf : Bool) (s : State) : Effect :=
  (s.readByte (s.effAddr x v)).thenDo s s fun b =>
    let w := widenByte s.cfg.byteExt b
    .done ((s.setRef (s.rx x) w).writeFlags s.active wf (zsp w))

/-- `LDB Rx, [Vy]`: load the byte at `Rd + Vy` into `Rx`, flags `ZSP` (R182). -/
def execLdb (cond : BitVec 3) (x : RegNo) (v : Vy) (s : State) : Host.Outcome State Fault Refusal :=
  runInsn (shapeRd 0x12#5 v) cond (ldbEffect x v) s

/-- The execute step of `STB` (R183). -/
def stbEffect (x : RegNo) (v : Vy) (_wf : Bool) (s : State) : Effect :=
  (s.writeByte (s.effAddr x v) (loByte (s.getRef (s.rx x)))).thenDo s s .done

/-- `STB [Vy], Rx`: store the low byte of `Rx` at `Rd + Vy`, no flags (R183). -/
def execStb (cond : BitVec 3) (x : RegNo) (v : Vy) (s : State) : Host.Outcome State Fault Refusal :=
  runInsn (shapeRd 0x13#5 v) cond (stbEffect x v) s

/-! ## Push and pop -/

/-- The registers of a `Regs16` set, lowest number first (R89). -/
def regsOf (set : Word) : List RegNo :=
  ((List.range 16).filter fun i => set.getLsbD i).map (BitVec.ofNat 4)

/-- `PSH` and `POP` have `Rd` only, by default `SP` (R114, R184). -/
def shapeStack (op : BitVec 5) : Shape := { op := op, rd := true }

/-- The pointer down by 2 (R184). -/
def State.pointerDown (s : State) (ptr : RegRef) : State := s.setRef ptr (s.getRef ptr - 2#16)

/-- One push: the pointer down by 2, then the register's value at that moment to where it points (R184). -/
def State.pushOne (s : State) (ptr : RegRef) (n : RegNo) : Access State :=
  let t := s.pointerDown ptr
  t.writeWord (t.getRef ptr) (t.getReg t.active n)

/-- Push the listed registers in order. When a word raises, the earlier ones stay and the pointer is a free value
(R184, R246); at a page-table byte that nothing has written the machine stops with the pointer already down (R226). -/
def pushAll (ptr : RegRef) : List RegNo → State → Effect
  | [], s => .done s
  | n :: ns, s => (s.pushOne ptr n).thenDo (s.drawRef ptr) (s.pointerDown ptr) fun t => pushAll ptr ns t

/-- `PSH` of the set with pointer `Rd`: highest register first (R184). -/
def pshEffect (set : Word) (_wf : Bool) (s : State) : Effect := pushAll (s.rd regSP) (regsOf set).reverse s

/-- `PSH {Regs16}`, no flags (R184). -/
def execPsh (cond : BitVec 3) (set : Word) (s : State) : Host.Outcome State Fault Refusal :=
  runInsn (shapeStack 0x1A#5) cond (pshEffect set) s

/-- One pop: the word the pointer points to into the register, then the pointer, as it then stands, up by 2
(R185). -/
def State.popOne (s : State) (ptr : RegRef) (n : RegNo) : Access State :=
  (s.readWord (s.getRef ptr)).andThen fun w =>
    let t := s.setReg s.active n w
    .ok (t.setRef ptr (t.getRef ptr + 2#16))

/-- Pop the listed registers in order. When a word raises, the earlier ones stay and the pointer is a free value
(R185, R246); at a byte that nothing has written the machine stops with the earlier ones done (R226). -/
def popAll (ptr : RegRef) : List RegNo → State → Effect
  | [], s => .done s
  | n :: ns, s => (s.popOne ptr n).thenDo (s.drawRef ptr) s fun t => popAll ptr ns t

/-- `POP` of the set with pointer `Rd`: lowest register first (R185). -/
def popEffect (set : Word) (_wf : Bool) (s : State) : Effect := popAll (s.rd regSP) (regsOf set) s

/-- `POP {Regs16}`, no flags (R185). -/
def execPop (cond : BitVec 3) (set : Word) (s : State) : Host.Outcome State Fault Refusal :=
  runInsn (shapeStack 0x1B#5) cond (popEffect set) s

end Sys2Proof.Machine
end

