-- ==== Sys2Proof/Machine/Prefixes.lean ====
section
/-! DEFINITION. What a prefix byte does: it is noted in the latch for the instruction it precedes (R110, R113,
R94). The reserved prefix bytes are a model fault (R96). -/

namespace Sys2Proof.Machine

/-- `XC`: 8 is added to the condition code of the opcode byte that follows (R113). -/
def execXc (s : State) : Host.Outcome State Fault Refusal := .next (s.setLatch { s.latch with xc := true })

/-- `TF`: each one toggles flag write-back (R113). -/
def execTf (s : State) : Host.Outcome State Fault Refusal :=
  .next (s.setLatch { s.latch with tf := !s.latch.tf })

/-- `XX`: `Rx` in the inactive bank; repeating it has no further effect (R113). -/
def execXx (s : State) : Host.Outcome State Fault Refusal := .next (s.setLatch { s.latch with xx := true })

/-- `XY`: `Ry` in the inactive bank (R113). -/
def execXy (s : State) : Host.Outcome State Fault Refusal := .next (s.setLatch { s.latch with xy := true })

/-- `XZ`: `Rd` and `Rdx` in the inactive bank (R113, R95). -/
def execXz (s : State) : Host.Outcome State Fault Refusal := .next (s.setLatch { s.latch with xz := true })

/-- A `DR` prefix noted: the first is `Rd`, the second `Rdx`, a third has no meaning and is noted as such (R94). -/
def Latch.withDr (l : Latch) (d : RegNo) : Latch :=
  match l.rd, l.rdx with
  | none, _ => { l with rd := some d }
  | some _, none => { l with rdx := some d }
  | some _, some _ => { l with extraDr := true }

/-- `DR` (R94). The refusal of a third one comes after the deny checks, so it stands in `runInsn` (R114). -/
def execDr (d : RegNo) (s : State) : Host.Outcome State Fault Refusal := .next (s.setLatch (s.latch.withDr d))

/-- The reserved prefix byte 0xC5 (R96). -/
def execReservedC5 (s : State) : Host.Outcome State Fault Refusal := .fault (.reservedPrefix s)

/-- The reserved prefix bytes 0xC6 and 0xC7 (R96). -/
def execReservedC6 (_p : BitVec 1) (s : State) : Host.Outcome State Fault Refusal := .fault (.reservedPrefix s)

/-- The reserved prefix bytes 0xC8 to 0xCF (R96). -/
def execReservedC8 (_p : BitVec 3) (s : State) : Host.Outcome State Fault Refusal := .fault (.reservedPrefix s)

end Sys2Proof.Machine
end

