-- ==== Sys2Proof/Machine/System.lean ====
section
/-! DEFINITION. Port input and output, breakpoint, context swap and no-op (R220 to R226). -/

namespace Sys2Proof.Machine

/-- The execute step of `RDB` (R220): a byte is widened into `Rx`; after a failure `Rx`, `ZF`, `SF` and `PF` are
free values and `CF` is 1. -/
def rdbEffect (x : RegNo) (p : PortNo) (wf : Bool) (s : State) : Effect :=
  let t := s.portReadDone p
  match s.portAnswer p with
  | some b =>
    let w := widenByte s.cfg.byteExt b
    .done ((t.setRef (s.rx x) w).writeFlags s.active wf (okResult w).flags)
  | none =>
    let u := t.drawRef (s.rx x)
    .done (u.drawn.writeFlags s.active wf (failFlags u.freeWord))

/-- `RDB Rx, (Imm4)`: read a byte from a port, flags `ZSPC` (R220). -/
def execRdb (cond : BitVec 3) (x : RegNo) (p : PortNo) (s : State) : Host.Outcome State Fault Refusal :=
  runInsn (shapeRx 0x18#5) cond (rdbEffect x p) s

/-- The execute step of `WRB` (R221): the low 8 bits of the value operand go to the port; `CF` says whether the
write failed. -/
def wrbEffect (p : PortNo) (v : Vy) (wf : Bool) (s : State) : Effect :=
  let b := loByte (s.vy v)
  .done ((s.portWriteDone p b).writeFlags s.active wf (carryOnly (!s.portAccepts p b)))

/-- `WRB (Imm4), V8`: write a byte to a port, flag `C` only (R221). -/
def execWrb (cond : BitVec 3) (p : PortNo) (v : Vy) (s : State) : Host.Outcome State Fault Refusal :=
  runInsn { op := 0x19#5, ry := v.isReg } cond (wrbEffect p v) s

/-- The execute step of `BPT` (R222). -/
def bptEffect (_wf : Bool) (s : State) : Effect := if s.cfg.debugger then .halt s else .done s

/-- `BPT`: stop into the debugger if one is attached, else nothing (R222). -/
def execBpt (cond : BitVec 3) (s : State) : Host.Outcome State Fault Refusal :=
  runInsn (shapeNone 0x1D#5) cond bptEffect s

/-- The execute step of `HLT` (R223). -/
def hltEffect (_wf : Bool) (s : State) : Effect := .done s.swapContexts

/-- `HLT`: the other context becomes active (R223). -/
def execHlt (cond : BitVec 3) (s : State) : Host.Outcome State Fault Refusal :=
  runInsn (shapeNone 0x1E#5) cond hltEffect s

/-- The execute step of `NOP` (R224). -/
def nopEffect (_wf : Bool) (s : State) : Effect := .done s

/-- `NOP` (R224). -/
def execNop (cond : BitVec 3) (s : State) : Host.Outcome State Fault Refusal :=
  runInsn (shapeNone 0x1F#5) cond nopEffect s

end Sys2Proof.Machine
end

