-- ==== Sys2Proof/Machine/Transfer.lean ====
section
/-! DEFINITION. Branches and calls (R200 to R204). `PC` is the address of the next instruction while an
instruction executes (R18). -/

namespace Sys2Proof.Machine

/-- `DPC` and `PC` of the active context written together (R200). -/
def State.jumpTo (s : State) (dpc pc : Word) : State :=
  (s.setReg s.active regDPC dpc).setReg s.active regPC pc

/-- The target of a relative branch: `PC + Imm16 * (DPC + 1)`, modulo 2^16 (R201). -/
def State.relTarget (s : State) (imm : Word) : Word :=
  s.getReg s.active regPC + imm * (s.getReg s.active regDPC + 1)

/-- `RD` takes `DPC` and `RA` takes the next `PC`, in the active context (R202, R203). -/
def State.linked (s : State) : State :=
  (s.setReg s.active regRD (s.getReg s.active regDPC)).setReg s.active regRA (s.getReg s.active regPC)

/-- The execute step of `BRA` (R200). -/
def braEffect (x : RegNo) (v : Vy) (_wf : Bool) (s : State) : Effect :=
  .done (s.jumpTo (s.getRef (s.rx x)) (s.vy v))

/-- `BRA Rx, Vy`: `DPC := Rx`, `PC := Vy`, no flags (R200). -/
def execBra (cond : BitVec 3) (x : RegNo) (v : Vy) (s : State) : Host.Outcome State Fault Refusal :=
  runInsn (shapeRxVy 0x14#5 v) cond (braEffect x v) s

/-- The execute step of `BRR` (R201). -/
def brrEffect (imm : Word) (_wf : Bool) (s : State) : Effect :=
  .done (s.setReg s.active regPC (s.relTarget imm))

/-- `BRR Imm16`: relative branch, no flags (R201). -/
def execBrr (cond : BitVec 3) (imm : Word) (s : State) : Host.Outcome State Fault Refusal :=
  runInsn (shapeNone 0x15#5) cond (brrEffect imm) s

/-- The number is `RA` or `RD`. -/
def isLink (n : RegNo) : Bool := n == regRA || n == regRD

/-- An operand of `FCA` is a link register of the active bank (R204). -/
def State.linkOperand (s : State) (x : RegNo) (v : Vy) : Bool :=
  (!s.latch.xx && isLink x) ||
  (match v with
    | .reg y => !s.latch.xy && isLink y
    | .imm _ => false)

/-- The execute step of `FCA` (R202). -/
def fcaEffect (x : RegNo) (v : Vy) (_wf : Bool) (s : State) : Effect :=
  if s.linkOperand x v then .refuse (.linkRegisterOperand s)
  else .done (s.linked.jumpTo (s.getRef (s.rx x)) (s.vy v))

/-- `FCA Rx, Vy`: `RD := DPC`, `RA := PC`, then as `BRA`, no flags (R202). -/
def execFca (cond : BitVec 3) (x : RegNo) (v : Vy) (s : State) : Host.Outcome State Fault Refusal :=
  runInsn (shapeRxVy 0x16#5 v) cond (fcaEffect x v) s

/-- The execute step of `FCR` (R203). -/
def fcrEffect (imm : Word) (_wf : Bool) (s : State) : Effect :=
  .done (s.linked.setReg s.active regPC (s.relTarget imm))

/-- `FCR Imm16`: `RD := DPC`, `RA := PC`, then as `BRR`, no flags (R203). -/
def execFcr (cond : BitVec 3) (imm : Word) (s : State) : Host.Outcome State Fault Refusal :=
  runInsn (shapeNone 0x17#5) cond (fcrEffect imm) s

end Sys2Proof.Machine
end

