-- ==== Sys2Proof/Machine/Dispatch.lean ====
section
/-! DEFINITION. The dispatch: one arm for each row of the opcode table. -/

namespace Sys2Proof.Machine

/-- The meaning of a row of the opcode table: what an opcode does once its bytes are fetched (R110 parts 2 to 4),
or what a prefix byte notes. -/
def exec (i : Instr) (s : State) : Host.Outcome State Fault Refusal :=
  match i with
  | .add c x v => Sys2Proof.Machine.execAdd c x v s
  | .sub c x v => Sys2Proof.Machine.execSub c x v s
  | .mlu c x v => Sys2Proof.Machine.execMlu c x v s
  | .mls c x v => Sys2Proof.Machine.execMls c x v s
  | .dvu c x v => Sys2Proof.Machine.execDvu c x v s
  | .dvs c x v => Sys2Proof.Machine.execDvs c x v s
  | .xor c x v => Sys2Proof.Machine.execXor c x v s
  | .and c x v => Sys2Proof.Machine.execAnd c x v s
  | .orr c x v => Sys2Proof.Machine.execOrr c x v s
  | .shl c x v => Sys2Proof.Machine.execShl c x v s
  | .sru c x v => Sys2Proof.Machine.execSru c x v s
  | .srs c x v => Sys2Proof.Machine.execSrs c x v s
  | .mov c x v => Sys2Proof.Machine.execMov c x v s
  | .cmp c x v => Sys2Proof.Machine.execCmp c x v s
  | .rdc c x n => Sys2Proof.Machine.execRdc c x n s
  | .wrc c n y => Sys2Proof.Machine.execWrc c n y s
  | .ldw c x v => Sys2Proof.Machine.execLdw c x v s
  | .stw c x v => Sys2Proof.Machine.execStw c x v s
  | .ldb c x v => Sys2Proof.Machine.execLdb c x v s
  | .stb c x v => Sys2Proof.Machine.execStb c x v s
  | .bra c x v => Sys2Proof.Machine.execBra c x v s
  | .brr c imm => Sys2Proof.Machine.execBrr c imm s
  | .fca c x v => Sys2Proof.Machine.execFca c x v s
  | .fcr c imm => Sys2Proof.Machine.execFcr c imm s
  | .rdb c x p => Sys2Proof.Machine.execRdb c x p s
  | .wrb c p v => Sys2Proof.Machine.execWrb c p v s
  | .psh c set => Sys2Proof.Machine.execPsh c set s
  | .pop c set => Sys2Proof.Machine.execPop c set s
  | .inc c x k => Sys2Proof.Machine.execInc c x k s
  | .bpt c => Sys2Proof.Machine.execBpt c s
  | .hlt c => Sys2Proof.Machine.execHlt c s
  | .nop c => Sys2Proof.Machine.execNop c s
  | .xc => Sys2Proof.Machine.execXc s
  | .tf => Sys2Proof.Machine.execTf s
  | .xx => Sys2Proof.Machine.execXx s
  | .xy => Sys2Proof.Machine.execXy s
  | .xz => Sys2Proof.Machine.execXz s
  | .dr d => Sys2Proof.Machine.execDr d s
  | .reservedC5 => Sys2Proof.Machine.execReservedC5 s
  | .reservedC6 p => Sys2Proof.Machine.execReservedC6 p s
  | .reservedC8 p => Sys2Proof.Machine.execReservedC8 p s

end Sys2Proof.Machine
end

