-- ==== Sys2Proof/Machine/Cycle.lean ====
section
/-! DEFINITION. The instruction cycle around `exec`: the fetch of the code bytes of one instruction, row by row
(R110 part 1, R111, R112), and where a word is put for the next step to fetch it. -/

namespace Sys2Proof.Machine

/-- Fetch a number of code bytes (R111). Where one raises or stops, the whole fetch does, with `PC` past the earlier
ones. -/
def State.fetchBytes : Nat → State → Fetch (List Byte)
  | 0, s => .ok [] s
  | n + 1, s =>
    s.fetchByte.andThen fun b t =>
    (State.fetchBytes n t).andThen fun bs u =>
    .ok (b :: bs) u

/-- Fetch the bytes of one row of the opcode table: a prefix byte, or an opcode byte and its operand bytes, as many
as its format asks for (R83, R92, R112, R221). -/
def State.fetchRow (s : State) : Fetch (List Byte) :=
  s.fetchByte.andThen fun b t =>
  (State.fetchBytes (bytesAfterFirst s.cfg.wrbImm s.latch.xc b) t).andThen fun q u =>
  (State.fetchBytes (bytesAfterRegpair s.cfg.wrbImm s.latch.xc (b :: q)) u).andThen fun p v =>
  .ok (b :: (q ++ p)) v

/-- The number of rows after which an instruction without end is known to be one: `PC` moves by the constant stride
`DPC + 1` while only prefixes are fetched, so after 2^16 prefix bytes the fetch is back at its first byte
(R17, R80, R111; assumption log entry 16). -/
def maxRows : Nat := 65537

/-- Fetch and run rows until one that is not a prefix has run (R110). -/
def runRows : Nat → State → Host.Outcome State Fault Refusal
  | 0, s => .fault (.endlessPrefixes s)
  | fuel + 1, s =>
    match s.fetchRow with
    | .exc e t => .next (t.takeException t.active e)
    | .unwritten pa t => .fault (.unwrittenMemory pa t)
    | .ok bytes t =>
      match decode s.cfg.wrbImm s.latch.xc bytes with
      | .error _ => .refused (.undecodable t)
      | .ok (i, _) =>
        if i.isPrefix then
          match exec i t with
          | .next u => runRows fuel u
          | .fault f => .fault f
          | .refused r => .refused r
        else exec i t

/-- The start of a step: no prefix seen, and `INSN_ADDR` takes `PC` (R41, R110). -/
def State.begin (s : State) : State :=
  (s.setCr s.active crInsnAddr (s.getReg s.active regPC)).setLatch {}

/-- One `Step()` of R110: one instruction of the active context. After an exception under `EXC_ACTION = stop` the
next call resumes at `PC` (R244); after a breakpoint the debugger holds the machine (R222, U19). -/
def runStep (s : State) : Host.Outcome State Fault Refusal :=
  if s.ended = .breakpoint then .fault (.heldByDebugger s) else runRows maxRows s.begin

/-- Put bytes where the fetch that starts at virtual address `va` will find them, at the active context's stride
and through its execute mapping. -/
def placeBytes : List Byte → Word → State → State
  | [], _, s => s
  | b :: bs, va, s =>
    placeBytes bs (nextPc va (s.getReg s.active regDPC))
      (match s.translate va .execute with
        | .ok pa => s.putByte pa b
        | .exc _ => s
        | .unwritten _ => s)

/-- The machine with an instruction of the opcode table, its operand bytes zero, where the next step fetches, and
not held by a debugger. -/
def placeWord (s : State) (nbits w : Nat) : State :=
  { placeBytes (tableBytes nbits w) (s.getReg s.active regPC) s with ended := .completed }

end Sys2Proof.Machine
end

