-- ==== Sys2Proof/Machine/Step.lean ====
section
/-! DEFINITION. The step function, and where the host puts an instruction for the next step. -/

namespace Sys2Proof.Machine

/-- One step of the machine executes one instruction of the active context (R110). -/
def step (s : State) : Host.Outcome State Fault Refusal := runStep s

/-- `s` with an instruction of the opcode table stored where `step` fetches its next instruction. -/
def State.withFetchWord (s : State) (nbits w : Nat) : State := placeWord s nbits w

end Sys2Proof.Machine
end

