-- ==== Sys2Proof/Safety.lean ====
section
/-! DEFINITION. The terms in which claims about the machine are stated: when an instruction is free to do what its
rule says, what a step leaves and changes, what a raised exception leaves, and the invariant of the state. The
flag formulas here are written a second time, from the manual's words, so that a claim does not repeat the
machine's own. -/

namespace Sys2Proof.Machine

/-! ## When an instruction does what its own rule says (R110, R114 to R118) -/

/-- The opcode of an instruction, its condition field, and which operands it has (the tables of R90 and R114). -/
structure OpcodeRow where
  op : Nat
  cond : BitVec 3
  rx : Bool := false
  ry : Bool := false
  rd : Bool := false
  rdx : Bool := false
deriving DecidableEq, Repr

/-- The opcode map (R90) with the operand table (R114); a prefix byte has no opcode. -/
def opcodeRow : Instr → Option OpcodeRow
  | .add c _ v => some { op := 0x00, cond := c, rx := true, ry := v.isReg, rd := true }
  | .sub c _ v => some { op := 0x01, cond := c, rx := true, ry := v.isReg, rd := true }
  | .mlu c _ v => some { op := 0x02, cond := c, rx := true, ry := v.isReg, rd := true, rdx := true }
  | .mls c _ v => some { op := 0x03, cond := c, rx := true, ry := v.isReg, rd := true, rdx := true }
  | .dvu c _ v => some { op := 0x04, cond := c, rx := true, ry := v.isReg, rd := true, rdx := true }
  | .dvs c _ v => some { op := 0x05, cond := c, rx := true, ry := v.isReg, rd := true, rdx := true }
  | .xor c _ v => some { op := 0x06, cond := c, rx := true, ry := v.isReg, rd := true }
  | .and c _ v => some { op := 0x07, cond := c, rx := true, ry := v.isReg, rd := true }
  | .orr c _ v => some { op := 0x08, cond := c, rx := true, ry := v.isReg, rd := true }
  | .shl c _ v => some { op := 0x09, cond := c, rx := true, ry := v.isReg, rd := true }
  | .sru c _ v => some { op := 0x0A, cond := c, rx := true, ry := v.isReg, rd := true }
  | .srs c _ v => some { op := 0x0B, cond := c, rx := true, ry := v.isReg, rd := true }
  | .mov c _ v => some { op := 0x0C, cond := c, rx := true, ry := v.isReg }
  | .cmp c _ v => some { op := 0x0D, cond := c, rx := true, ry := v.isReg }
  | .rdc c _ _ => some { op := 0x0E, cond := c, rx := true }
  | .wrc c _ _ => some { op := 0x0F, cond := c, ry := true }
  | .ldw c _ v => some { op := 0x10, cond := c, rx := true, ry := v.isReg, rd := true }
  | .stw c _ v => some { op := 0x11, cond := c, rx := true, ry := v.isReg, rd := true }
  | .ldb c _ v => some { op := 0x12, cond := c, rx := true, ry := v.isReg, rd := true }
  | .stb c _ v => some { op := 0x13, cond := c, rx := true, ry := v.isReg, rd := true }
  | .bra c _ v => some { op := 0x14, cond := c, rx := true, ry := v.isReg }
  | .brr c _ => some { op := 0x15, cond := c }
  | .fca c _ v => some { op := 0x16, cond := c, rx := true, ry := v.isReg }
  | .fcr c _ => some { op := 0x17, cond := c }
  | .rdb c _ _ => some { op := 0x18, cond := c, rx := true }
  | .wrb c _ v => some { op := 0x19, cond := c, ry := v.isReg }
  | .psh c _ => some { op := 0x1A, cond := c, rd := true }
  | .pop c _ => some { op := 0x1B, cond := c, rd := true }
  | .inc c _ _ => some { op := 0x1C, cond := c, rx := true, rd := true }
  | .bpt c => some { op := 0x1D, cond := c }
  | .hlt c => some { op := 0x1E, cond := c }
  | .nop c => some { op := 0x1F, cond := c }
  | .xc | .tf | .xx | .xy | .xz | .dr _ | .reservedC5 | .reservedC6 _ | .reservedC8 _ => none

/-- `FLAG_DENY_XREGS` denies the instruction: it carries a cross-bank prefix and bit 5 of `FLAGS` is set (R115). -/
def State.xregsDenied (s : State) : Prop :=
  (s.latch.xx = true ∨ s.latch.xy = true ∨ s.latch.xz = true) ∧ (s.getCr s.active 15#4).getLsbD 5 = true

/-- The opcode's bit of `INSN_DENY_0` or `INSN_DENY_1` is set (R29, R116). -/
def State.opcodeDenied (s : State) (op : Nat) : Prop :=
  if op < 16 then (s.getCr s.active 2#4).getLsbD op = true else (s.getCr s.active 3#4).getLsbD (op - 16) = true

/-- Every prefix modifies an operand the instruction has, and there is no third `DR` (R114). -/
def prefixesFit (l : Latch) (r : OpcodeRow) : Prop :=
  (l.xx = true → r.rx = true) ∧ (l.xy = true → r.ry = true) ∧ (l.xz = true → r.rd = true) ∧
  (l.rd ≠ none → r.rd = true) ∧ (l.rdx ≠ none → r.rdx = true) ∧ l.extraDr = false

/-- Nothing denies the instruction, its prefixes fit, and its condition holds: it executes (R110). -/
def Ready (i : Instr) (s : State) : Prop :=
  ∃ r, opcodeRow i = some r ∧ ¬ s.xregsDenied ∧ ¬ s.opcodeDenied r.op ∧ prefixesFit s.latch r ∧
    s.condOn r.cond = true

/-- The instruction executes and its completion does not make the timer expire (R123). -/
def Runs (i : Instr) (s : State) : Prop := Ready i s ∧ s.getCr s.active 13#4 ≠ 1#16

/-! ## Flags, in the manual's words (R20 to R23) -/

/-- An odd number of bits set (R20, R21). -/
def oddOnes {n : Nat} (v : BitVec n) : Bool := decide ((List.range n).countP (fun i => v.getLsbD i) % 2 = 1)

/-- `ZF` when the result is zero, `SF` its high bit, `PF` when an odd number of its bits is set (R20, R21). -/
def resultFlags {n : Nat} (v : BitVec n) : FlagWrite :=
  { z := some (decide (v.toNat = 0)), s := some (decide (2 ^ n ≤ 2 * v.toNat)), p := some (oddOnes v) }

/-- The signed value does not fit in 16 bits (R23). -/
def signedOverflow (k : Int) : Bool := decide (k < -32768 ∨ 32767 < k)

/-- The flags of a sum: `CF` when it reaches 2^16, `VF` on signed overflow (R22, R23). -/
def sumFlags (a b : Word) : FlagWrite :=
  { resultFlags (a + b) with
    c := some (decide (65536 ≤ a.toNat + b.toNat)), v := some (signedOverflow (a.toInt + b.toInt)) }

/-- The flags of a difference: `CF` when there is no borrow, `VF` on signed overflow (R22, R23). -/
def diffFlags (a b : Word) : FlagWrite :=
  { resultFlags (a - b) with
    c := some (decide (b.toNat ≤ a.toNat)), v := some (signedOverflow (a.toInt - b.toInt)) }

/-- The value of `SImm4` (R88). -/
def simm4Value (n : BitVec 4) : Int := if n.toNat ≤ 7 then n.toNat + 1 else (n.toNat : Int) - 16

/-! ## What an instruction leaves and what it changes -/

/-- Flag write-back is on: the condition is `AL`, inverted by `TF` (R120). -/
def State.writesFlags (s : State) (cond : BitVec 3) : Prop :=
  if s.latch.tf then ¬ (cond = 7#3 ∧ s.latch.xc = false) else cond = 7#3 ∧ s.latch.xc = false

/-- `FLAGS` of the executing context afterwards: with write-back on the listed flags take their values and every
other bit is kept; with write-back off nothing changes (R24, R43, R120). -/
def FlagsAfter (s t : State) (cond : BitVec 3) (w : FlagWrite) : Prop :=
  (s.writesFlags cond →
    zfOf (t.getCr s.active 15#4) = w.z.getD (zfOf (s.getCr s.active 15#4)) ∧
    sfOf (t.getCr s.active 15#4) = w.s.getD (sfOf (s.getCr s.active 15#4)) ∧
    pfOf (t.getCr s.active 15#4) = w.p.getD (pfOf (s.getCr s.active 15#4)) ∧
    cfOf (t.getCr s.active 15#4) = w.c.getD (cfOf (s.getCr s.active 15#4)) ∧
    vfOf (t.getCr s.active 15#4) = w.v.getD (vfOf (s.getCr s.active 15#4)) ∧
    ∀ j, 5 ≤ j → (t.getCr s.active 15#4).getLsbD j = (s.getCr s.active 15#4).getLsbD j) ∧
  (¬ s.writesFlags cond → t.getCr s.active 15#4 = s.getCr s.active 15#4)

/-- Every general register of both banks afterwards: `w` gives the values written, every other register is kept,
and register 0 reads 0 whatever is written to it (R13). -/
def RegsAfter (s t : State) (w : CtxId → RegNo → Option Word) : Prop :=
  ∀ c i, t.getReg c i = if i = 0#4 then 0#16 else (w c i).getD (s.getReg c i)

/-- No register is written. -/
def noReg : CtxId → RegNo → Option Word := fun _ _ => none

/-- One register operand is written. -/
def oneReg (r : RegRef) (v : Word) : CtxId → RegNo → Option Word :=
  fun c i => if c = r.bank ∧ i = r.num then some v else none

/-- Two register operands are written. -/
def twoRegs (r : RegRef) (v : Word) (q : RegRef) (u : Word) : CtxId → RegNo → Option Word :=
  fun c i => if c = q.bank ∧ i = q.num then some u else oneReg r v c i

/-- Register `n` of context `d` is the same storage as the executing context's: always in that context, and in the
other one where the register is shared (R10). -/
def State.sameCreg (s : State) (d : CtxId) (n : CRegNo) : Prop :=
  d = s.active ∨ s.cfg.sharedCregs.getLsbD n.toNat = true

/-- Every control register of both contexts keeps its value, but for the ones in `w` of the executing context. -/
def CregsKept (s t : State) (w : List CRegNo) : Prop :=
  ∀ d n, ¬ (n ∈ w ∧ s.sameCreg d n) → t.getCr d n = s.getCr d n

/-- The count and the timer of an executed instruction, `INSN_COUNT` up by 1 modulo 2^32 and a running `TIMER` down
by 1 (R122, R123). -/
def Counted (s t : State) : Prop :=
  t.insnCount s.active = s.insnCount s.active + 1 ∧
  t.getCr s.active 13#4 = if s.getCr s.active 13#4 = 0#16 then 0#16 else s.getCr s.active 13#4 - 1#16

/-- The step ended as said, its prefixes are forgotten (R113), and the parameters are as before. -/
def Ended (s t : State) (e : StepEnd) : Prop := t.ended = e ∧ t.latch = {} ∧ t.cfg = s.cfg

/-- Every byte of physical memory reads as before. -/
def MemKept (s t : State) : Prop := ∀ a, Memory.read t.mem a = Memory.read s.mem a

/-- Every byte of physical memory outside `bytes` reads as before. -/
def MemKeptBut (s t : State) (bytes : List Nat) : Prop :=
  ∀ a, a ∉ bytes → Memory.read t.mem a = Memory.read s.mem a

/-- An instruction completed that wrote the general registers `regs` and the flags `flags`, and no control register
but `FLAGS`, the count and the timer. -/
structure Completes (s t : State) (cond : BitVec 3) (regs : CtxId → RegNo → Option Word) (flags : FlagWrite) :
    Prop where
  regs : RegsAfter s t regs
  flags : FlagsAfter s t cond flags
  cregs : CregsKept s t [4#4, 5#4, 13#4, 15#4]
  counted : Counted s t
  ended : Ended s t .completed

/-- The instruction touched neither memory nor the ports, and the same context stays active. -/
structure Stays (s t : State) : Prop where
  mem : MemKept s t
  ports : t.ports = s.ports
  active : t.active = s.active

/-- `i` executes to a next state in which it has written `regs` and `flags` and nothing else. -/
def Computes (i : Instr) (s : State) (cond : BitVec 3) (regs : CtxId → RegNo → Option Word) (flags : FlagWrite) :
    Prop :=
  ∃ t, exec i s = .next t ∧ Completes s t cond regs flags ∧ Stays s t

/-- Registers of the executing context's bank are written. -/
def State.bankRegs (s : State) (f : RegNo → Option Word) : CtxId → RegNo → Option Word :=
  fun c i => if c = s.active then f i else none

/-- A value has 0 in the reserved bits of control register `n`: bits 15:6 of `FLAGS`, bits 13:4 of `EXC_INFO`, and
bits 7:1 of a `MEMBASE` register whose bit 0 is 0 (R46). -/
def reservedOk (n : CRegNo) (v : Word) : Prop :=
  (n = 15#4 → v.extractLsb' 6 10 = 0#10) ∧ (n = 11#4 → v.extractLsb' 4 10 = 0#10) ∧
  (n = 8#4 ∨ n = 9#4 ∨ n = 10#4 → v.getLsbD 0 = false → v.extractLsb' 1 7 = 0#7)

/-- A byte widened to a register as `BYTE_LOAD_EXT` says (R182). -/
def widened (ext : ByteExt) (b : Byte) : Word :=
  match ext with
  | .zero => BitVec.ofNat 16 b.toNat
  | .sign => BitVec.ofInt 16 b.toInt

/-! ## Memory, as an instruction sees it -/

/-- The physical bytes of the word that an access to `va` in this mode reaches: the translated address and the next
one, where an even address is asked for and the bus answers both (R63, R64). -/
def State.wordAt (s : State) (mode : AccessMode) (va : Word) (pa : PhysAddr) : Prop :=
  va.toNat % 2 = 0 ∧ s.translate va mode = .ok pa ∧
  physMapHas s.cfg.physMap pa.toNat mode = true ∧ physMapHas s.cfg.physMap (pa + 1#24).toNat mode = true

/-- The same for a byte. -/
def State.byteAt (s : State) (mode : AccessMode) (va : Word) (pa : PhysAddr) : Prop :=
  s.translate va mode = .ok pa ∧ physMapHas s.cfg.physMap pa.toNat mode = true

/-- Physical memory holds the word `w` at `pa`, the low byte at the lower address (R51). -/
def State.holdsWord (s : State) (pa : PhysAddr) (w : Word) : Prop :=
  Memory.read s.mem pa.toNat = some (BitVec.ofNat 8 w.toNat) ∧
  Memory.read s.mem (pa + 1#24).toNat = some (BitVec.ofNat 8 (w.toNat / 256))

/-- A word access at `va` in this mode raises `e`: at an odd address `EXC_UNALIGNED`; at an even one what the translation
raises, or `EXC_BUS` where the bus does not answer the first byte, or answers it and not the second (R54, R62 to R64, R72;
assumption log entry 18). A read meets the first byte, which something must have written, before the second. -/
def State.wordRaises (s : State) (mode : AccessMode) (va : Word) (e : Exc) : Prop :=
  (va.toNat % 2 = 1 ∧ e = .unaligned mode va) ∨
  (va.toNat % 2 = 0 ∧ (s.translate va mode = .exc e ∨
    ∃ pa, s.translate va mode = .ok pa ∧ e = .bus mode va ∧
      (physMapHas s.cfg.physMap pa.toNat mode = false ∨
        (mode = .read → Memory.read s.mem pa.toNat ≠ none) ∧ physMapHas s.cfg.physMap (pa + 1#24).toNat mode = false)))

/-- A word access at `va` in this mode stops at the byte `m`, which nothing has written (R49): one of the page-table entry's,
or, for a read, the first byte of the word or, after it, the second. -/
def State.wordStops (s : State) (mode : AccessMode) (va : Word) (m : Nat) : Prop :=
  va.toNat % 2 = 0 ∧ (s.translate va mode = .unwritten m ∨
    mode = .read ∧ ∃ pa, s.translate va mode = .ok pa ∧ physMapHas s.cfg.physMap pa.toNat mode = true ∧
      (Memory.read s.mem pa.toNat = none ∧ m = pa.toNat ∨
        Memory.read s.mem pa.toNat ≠ none ∧ physMapHas s.cfg.physMap (pa + 1#24).toNat mode = true ∧
          Memory.read s.mem (pa + 1#24).toNat = none ∧ m = (pa + 1#24).toNat))

/-- The two byte addresses of the word at `pa`. -/
def wordBytes (pa : PhysAddr) : List Nat := [pa.toNat, (pa + 1#24).toNat]

/-! ## A raised exception (R242 to R246) -/

/-- The 3-bit code and the mode field that an exception records (R35, R241). -/
def excFields (codes : ExcCodes) : Exc → BitVec 3 × BitVec 2
  | .deniedCreg => (codes.deniedCreg, 0b00#2)
  | .deniedInsn => (codes.deniedInsn, 0b00#2)
  | .timer => (codes.timer, 0b00#2)
  | .mmu m _ => (codes.mmu, modeField m)
  | .bus m _ => (codes.bus, modeField m)
  | .unaligned m _ => (codes.unaligned, modeField m)
where
  /-- `01` read, `10` write, `11` execute (R35). -/
  modeField : AccessMode → BitVec 2
    | .read => 0b01#2
    | .write => 0b10#2
    | .execute => 0b11#2

/-- `EXC_INFO` records the exception: bit 0 set, bits 3:1 the code, bits 13:4 zero, bits 15:14 the mode (R35, R38). -/
def InfoRecords (info : Word) (codes : ExcCodes) (e : Exc) : Prop :=
  info.getLsbD 0 = true ∧ info.extractLsb' 1 3 = (excFields codes e).1 ∧ info.extractLsb' 4 10 = 0#10 ∧
  info.extractLsb' 14 2 = (excFields codes e).2

/-- `EXC_ADDR` records the address of a memory exception; after another it is any value (R39). -/
def AddrRecords (addr : Word) : Exc → Prop
  | .deniedCreg | .deniedInsn | .timer => True
  | .mmu _ a | .bus _ a | .unaligned _ a => addr = a

/-- Which context is active once an exception is delivered (R244). -/
def activeAfterExc (s : State) : CtxId := if s.cfg.excAction = .swap then s.active.other else s.active

/-- From `s` to `t`, the executing context's instruction raised `e` and had written nothing but the registers in
`loose`, which hold any value: the record of R242 stands in `EXC_INFO` and `EXC_ADDR`, the count and the timer are as
before, and so is everything else (R243, R244, R246). -/
structure Raises (s t : State) (e : Exc) (loose : CtxId → RegNo → Prop) : Prop where
  info : InfoRecords (t.getCr s.active 11#4) s.cfg.excCodes e
  addr : AddrRecords (t.getCr s.active 12#4) e
  cregs : CregsKept s t [11#4, 12#4]
  regs : ∀ c i, ¬ loose c i → t.getReg c i = s.getReg c i
  mem : MemKept s t
  ports : t.ports = s.ports
  active : t.active = activeAfterExc s
  ended : Ended s t (.exception e)

/-- `PC` of the executing context, which is any value after every exception but `EXC_TIMER` (R246). -/
def loosePC (s : State) : CtxId → RegNo → Prop := fun c i => c = s.active ∧ i = 14#4

/-! ## The timer (R123, R245) -/

/-- The instruction, where it executes, reads or writes `TIMER` itself: an `RDC` or `WRC` of it that does not fail (R171,
R172). -/
def State.usesTimer (s : State) (i : Instr) : Prop :=
  (∃ cond x, i = .rdc cond x 13#4 ∧ s.cfg.cregFailRead.getLsbD 13 = false) ∨
  (∃ cond y, i = .wrc cond 13#4 y ∧ s.cfg.cregFailWrite.getLsbD 13 = false)

/-- From `s` an instruction completed as in `u`, where it expired no timer, but in `t` its completion took `TIMER` to 0:
`EXC_TIMER` is recorded in the executing context and delivered, and everything else is as in `u` (R123, R242 to R245). -/
structure Expires (s u t : State) : Prop where
  regs : ∀ c i, t.getReg c i = u.getReg c i
  timer : t.getCr s.active 13#4 = 0#16
  info : InfoRecords (t.getCr s.active 11#4) s.cfg.excCodes .timer
  cregs : ∀ d n, ¬ (n ∈ [11#4, 12#4, 13#4] ∧ s.sameCreg d n) → t.getCr d n = u.getCr d n
  mem : MemKept u t
  ports : t.ports = u.ports
  active : t.active = activeAfterExc u
  ended : Ended s t (.exception .timer)

/-! ## Push and pop, one word at a time (R184, R185) -/

/-- The machine with a word stored at a physical address, the low byte first (R51). -/
def State.withWord (s : State) (pa : PhysAddr) (w : Word) : State :=
  (s.putByte pa (BitVec.ofNat 8 w.toNat)).putByte (pa + 1#24) (BitVec.ofNat 8 (w.toNat / 256))

/-- One push of register `n`: `x[Rd] <- x[Rd] - 2`, then the register's value at that moment to where `x[Rd]` points
(R184). -/
def PushesOne (ptr : RegRef) (n : RegNo) (s u : State) : Prop :=
  ∃ d pa, d = s.setReg ptr.bank ptr.num (s.getReg ptr.bank ptr.num - 2#16) ∧
    d.wordAt .write (d.getReg ptr.bank ptr.num) pa ∧ u = d.withWord pa (d.getReg d.active n)

/-- One pop of register `n`: the word that `x[Rd]` points to, then `x[Rd] <- x[Rd] + 2` read after that write (R185). -/
def PopsOne (ptr : RegRef) (n : RegNo) (s u : State) : Prop :=
  ∃ w d pa, s.wordAt .read (s.getReg ptr.bank ptr.num) pa ∧ s.holdsWord pa w ∧ d = s.setReg s.active n w ∧
    u = d.setReg ptr.bank ptr.num (d.getReg ptr.bank ptr.num + 2#16)

/-- A sequence of such transfers. -/
def Chain (one : RegNo → State → State → Prop) : List RegNo → State → State → Prop
  | [], s, u => u = s
  | n :: ns, s, u => ∃ v, one n s v ∧ Chain one ns v u

/-- The registers of a set, in descending order: the order of `PSH` (R184). -/
def descending (set : Word) : List RegNo :=
  [15#4, 14#4, 13#4, 12#4, 11#4, 10#4, 9#4, 8#4, 7#4, 6#4, 5#4, 4#4, 3#4, 2#4, 1#4, 0#4].filter
    fun n => set.getLsbD n.toNat

/-- The same in ascending order: the order of `POP` (R185). -/
def ascending (set : Word) : List RegNo :=
  [0#4, 1#4, 2#4, 3#4, 4#4, 5#4, 6#4, 7#4, 8#4, 9#4, 10#4, 11#4, 12#4, 13#4, 14#4, 15#4].filter
    fun n => set.getLsbD n.toNat

/-! ## Code in memory -/

/-- The fetch that starts at `va` finds these code bytes: each stands where the execute mapping takes its address, and
successive ones are `DPC + 1` addresses apart (R17, R111). -/
def State.codeAt (s : State) : Word → List Byte → Prop
  | _, [] => True
  | va, b :: bs =>
    (∃ pa, s.translate va .execute = .ok pa ∧ physMapHas s.cfg.physMap pa.toNat .execute = true ∧
      Memory.read s.mem pa.toNat = some b) ∧
    s.codeAt (va + (1#16 + s.getReg s.active 15#4)) bs

/-- The machine once `n` code bytes are fetched: `INSN_ADDR` holds the address of the first, `PC` is past the last,
and the prefixes among them are noted (R18, R41, R110). -/
def State.fetched (s : State) (n : Nat) (l : Latch) : State :=
  ((s.setCr s.active 14#4 (s.getReg s.active 14#4)).setReg s.active 14#4
    (s.getReg s.active 14#4 + BitVec.ofNat 16 n * (1#16 + s.getReg s.active 15#4))).setLatch l

/-- What R110 has noted after these prefixes. -/
def notedPrefixes (ps : List Instr) : Latch where
  xc := ps.contains .xc
  tf := ps.count .tf % 2 == 1
  xx := ps.contains .xx
  xy := ps.contains .xy
  xz := ps.contains .xz
  rd := (drNumbers ps)[0]?
  rdx := (drNumbers ps)[1]?
  extraDr := (drNumbers ps)[2]?.isSome
where
  /-- The registers that the `DR` prefixes name, in order. -/
  drNumbers (ps : List Instr) : List RegNo := ps.filterMap drNumber
  /-- The register that a `DR` prefix names. -/
  drNumber : Instr → Option RegNo
    | .dr d => some d
    | _ => none

/-! ## The invariant of the state -/

/-- The reserved bits of every control register of a context read 0 (R46). -/
def State.reservedClear (s : State) (c : CtxId) : Prop := ∀ n, reservedOk n (s.getCr c n)

/-- What every step keeps: memory is in its canonical form at 24-bit addresses (R50), the reserved control register
bits are 0 in both contexts (R46), and no prefix is left over from one instruction to the next (R113). -/
def State.Inv (s : State) : Prop :=
  Memory.wf s.mem = true ∧ s.reservedClear .ctx0 ∧ s.reservedClear .ctx1 ∧ s.latch = {}

end Sys2Proof.Machine
end

