-- ==== Sys2Proof/Certificates/Slice0/Obligations.lean ====
section
/-! DEFINITION. The statements for the provers. A statement about an instruction speaks of `exec` on a state in which
its bytes are fetched and its prefixes are noted in `State.latch`; `StepRunsDecodedInstruction` and
`StepRunsPrefixedInstruction` carry them to `step`. The terms they use (`Runs`, `Computes`, `Raises` and the rest) stand
in Safety.lean. -/

open Sys2Proof Sys2Proof.Machine

/-! ## Reset and the invariant -/

/-- R270 in its own terms (`DPC` and `R0` are 0 in both contexts), and the invariant holds after reset. The other
register values of reset are the model's choice (log entry 2) and nothing here speaks of them but for the reserved bits.
-/
def Obligations.ResetMeetsInvariant : Prop :=
  State.reset.Inv ∧ ∀ c, State.reset.getReg c 15#4 = 0#16 ∧ State.reset.getReg c 0#4 = 0#16

/-- Every step keeps the canonical form of memory, the reserved bits at 0 and the prefix latch empty (R46, R50, R113). -/
def Obligations.StepKeepsInvariant : Prop := ∀ s t : State, s.Inv → step s = .next t → t.Inv

/-! ## Arithmetic, logic, shifts, moves -/

/-- R141, R140, R121: the sum to `Rd`, the five flags, nothing else. -/
def Obligations.AddWritesSumAndFlags : Prop :=
  ∀ (cond : BitVec 3) (x : RegNo) (v : Vy) (s : State), Runs (.add cond x v) s →
    Computes (.add cond x v) s cond (oneReg (s.rd x) (s.getRef (s.rx x) + s.vy v))
      (sumFlags (s.getRef (s.rx x)) (s.vy v))

/-- R142: the difference to `Rd`, `CF` set when there is no borrow. -/
def Obligations.SubWritesDifferenceAndFlags : Prop :=
  ∀ (cond : BitVec 3) (x : RegNo) (v : Vy) (s : State), Runs (.sub cond x v) s →
    Computes (.sub cond x v) s cond (oneReg (s.rd x) (s.getRef (s.rx x) - s.vy v))
      (diffFlags (s.getRef (s.rx x)) (s.vy v))

/-- R154: the flags of `SUB`, no register. -/
def Obligations.CmpWritesFlagsOnly : Prop :=
  ∀ (cond : BitVec 3) (x : RegNo) (v : Vy) (s : State), Runs (.cmp cond x v) s →
    Computes (.cmp cond x v) s cond noReg (diffFlags (s.getRef (s.rx x)) (s.vy v))

/-- R155, R88: `Rx` and the small constant as a 16-bit pattern, added as by `ADD`. -/
def Obligations.IncAddsSmallConstant : Prop :=
  ∀ (cond : BitVec 3) (x : RegNo) (k : BitVec 4) (s : State), Runs (.inc cond x k) s →
    Computes (.inc cond x k) s cond (oneReg (s.rd x) (s.getRef (s.rx x) + BitVec.ofInt 16 (simm4Value k)))
      (sumFlags (s.getRef (s.rx x)) (BitVec.ofInt 16 (simm4Value k)))

/-- R147, R148, R149: bit by bit, with `ZF`, `SF`, `PF` of the result; `CF` and `VF` are kept. -/
def Obligations.LogicWritesResultAndFlags : Prop :=
  ∀ (cond : BitVec 3) (x : RegNo) (v : Vy) (s : State) (r : Word),
    (Runs (.xor cond x v) s →
      (∀ j, r.getLsbD j = ((s.getRef (s.rx x)).getLsbD j != (s.vy v).getLsbD j)) →
      Computes (.xor cond x v) s cond (oneReg (s.rd x) r) (resultFlags r)) ∧
    (Runs (.and cond x v) s →
      (∀ j, r.getLsbD j = ((s.getRef (s.rx x)).getLsbD j && (s.vy v).getLsbD j)) →
      Computes (.and cond x v) s cond (oneReg (s.rd x) r) (resultFlags r)) ∧
    (Runs (.orr cond x v) s →
      (∀ j, r.getLsbD j = ((s.getRef (s.rx x)).getLsbD j || (s.vy v).getLsbD j)) →
      Computes (.orr cond x v) s cond (oneReg (s.rd x) r) (resultFlags r))

/-- R150, R151, R152: `Rx` times 2 to the count with `CF` its bit 16, and the quotients by 2 to the count of the unsigned
and of the signed value, for which `CF` is some bit, which the spec leaves open (log entry 8). The count is what
`SHIFT_COUNT` makes of `Vy`: the value itself, but for the values that the parameter lists (log entry 9). -/
def Obligations.ShiftsWriteResultAndFlags : Prop :=
  ∀ (cond : BitVec 3) (x : RegNo) (v : Vy) (s : State) (p : Nat) (r : Word),
    p = 2 ^ (s.cfg.shiftCount.lookup (s.vy v)).getD (s.vy v).toNat →
    (Runs (.shl cond x v) s → r = BitVec.ofNat 16 ((s.getRef (s.rx x)).toNat * p) →
      Computes (.shl cond x v) s cond (oneReg (s.rd x) r)
        { resultFlags r with c := some (((s.getRef (s.rx x)).toNat * p).testBit 16) }) ∧
    (Runs (.sru cond x v) s → r = BitVec.ofNat 16 ((s.getRef (s.rx x)).toNat / p) →
      ∃ cf, Computes (.sru cond x v) s cond (oneReg (s.rd x) r) { resultFlags r with c := some cf }) ∧
    (Runs (.srs cond x v) s → r = BitVec.ofInt 16 ((s.getRef (s.rx x)).toInt / p) →
      ∃ cf, Computes (.srs cond x v) s cond (oneReg (s.rd x) r) { resultFlags r with c := some cf })

/-- R143, R144: the exact product, its low half to `Rd` and its high half to `Rdx`, `ZF`, `SF`, `PF` of all 32 bits; `CF`
is bit 16 of the product, but for the operands that `MUL_CF` lists (log entry 8), and `VF` is some bit, which the spec leaves
open. -/
def Obligations.MultiplyWritesBothHalves : Prop :=
  ∀ (cond : BitVec 3) (x : RegNo) (v : Vy) (s : State) (p : BitVec 32), (s.rd x).num ≠ (s.rdx x).num →
    (Runs (.mlu cond x v) s → p = BitVec.ofNat 32 ((s.getRef (s.rx x)).toNat * (s.vy v).toNat) →
      ∃ vf, Computes (.mlu cond x v) s cond
        (twoRegs (s.rd x) (p.extractLsb' 0 16) (s.rdx x) (p.extractLsb' 16 16))
        { resultFlags p with
          c := some (p.getLsbD 16 != s.cfg.mulCf.contains (false, s.getRef (s.rx x), s.vy v)), v := some vf }) ∧
    (Runs (.mls cond x v) s → p = BitVec.ofInt 32 ((s.getRef (s.rx x)).toInt * (s.vy v).toInt) →
      ∃ vf, Computes (.mls cond x v) s cond
        (twoRegs (s.rd x) (p.extractLsb' 0 16) (s.rdx x) (p.extractLsb' 16 16))
        { resultFlags p with
          c := some (p.getLsbD 16 != s.cfg.mulCf.contains (true, s.getRef (s.rx x), s.vy v)), v := some vf })

/-- R145: by 0 a model fault, by anything else the floor quotient to `Rd` and the remainder to `Rdx`. -/
def Obligations.DvuWritesQuotientAndRemainder : Prop :=
  ∀ (cond : BitVec 3) (x : RegNo) (v : Vy) (s : State),
    (Ready (.dvu cond x v) s → s.vy v = 0#16 → exec (.dvu cond x v) s = .fault (.divideByZero s)) ∧
    (Runs (.dvu cond x v) s → s.vy v ≠ 0#16 → (s.rd x).num ≠ (s.rdx x).num →
      ∀ q m : Nat, (s.getRef (s.rx x)).toNat = q * (s.vy v).toNat + m → m < (s.vy v).toNat →
      Computes (.dvu cond x v) s cond (twoRegs (s.rd x) (BitVec.ofNat 16 q) (s.rdx x) (BitVec.ofNat 16 m))
        (resultFlags (BitVec.ofNat 16 q)))

/-- R146: by 0, and of -32768 by -1, a model fault; otherwise the quotient and remainder that `DVS_ROUND` names, the
remainder with the sign of the dividend under `trunc` and of the divisor under `floor`. -/
def Obligations.DvsWritesQuotientAndRemainder : Prop :=
  ∀ (cond : BitVec 3) (x : RegNo) (v : Vy) (s : State) (a b : Int), a = (s.getRef (s.rx x)).toInt → b = (s.vy v).toInt →
    (Ready (.dvs cond x v) s → b = 0 → exec (.dvs cond x v) s = .fault (.divideByZero s)) ∧
    (Ready (.dvs cond x v) s → a = -32768 → b = -1 → exec (.dvs cond x v) s = .fault (.divideOverflow s)) ∧
    (Runs (.dvs cond x v) s → b ≠ 0 → ¬ (a = -32768 ∧ b = -1) → (s.rd x).num ≠ (s.rdx x).num →
      ∃ q m : Int, a = q * b + m ∧ |m| < |b| ∧
        (s.cfg.dvsRound = .trunc → m = 0 ∨ (m < 0 ↔ a < 0)) ∧ (s.cfg.dvsRound = .floor → m = 0 ∨ (m < 0 ↔ b < 0)) ∧
        Computes (.dvs cond x v) s cond (twoRegs (s.rd x) (BitVec.ofInt 16 q) (s.rdx x) (BitVec.ofInt 16 m))
          (resultFlags (BitVec.ofInt 16 q)))

/-- R158: `Rd` and `Rdx` the same register is refused, after the divide faults of R145 and R146; with the prefixes noted
in order it can only happen when two `DR` prefixes name the same number. -/
def Obligations.SameDestinationIsRefused : Prop :=
  ∀ (cond : BitVec 3) (x : RegNo) (v : Vy) (s : State), (s.rd x).num = (s.rdx x).num →
    (Ready (.mlu cond x v) s → exec (.mlu cond x v) s = .refused (.sameDestination s)) ∧
    (Ready (.mls cond x v) s → exec (.mls cond x v) s = .refused (.sameDestination s)) ∧
    (Ready (.dvu cond x v) s → s.vy v ≠ 0#16 → exec (.dvu cond x v) s = .refused (.sameDestination s)) ∧
    (Ready (.dvs cond x v) s → s.vy v ≠ 0#16 → ¬ (s.getRef (s.rx x) = 0x8000#16 ∧ s.vy v = 0xFFFF#16) →
      exec (.dvs cond x v) s = .refused (.sameDestination s)) ∧
    ∀ ps, s.latch = notedPrefixes ps → ∃ d, (notedPrefixes.drNumbers ps)[0]? = some d ∧
      (notedPrefixes.drNumbers ps)[1]? = some d

/-- R153: the value to `Rx`, `ZF`, `SF`, `PF` of it. -/
def Obligations.MovWritesValueAndFlags : Prop :=
  ∀ (cond : BitVec 3) (x : RegNo) (v : Vy) (s : State), Runs (.mov cond x v) s →
    Computes (.mov cond x v) s cond (oneReg (s.rx x) (s.vy v)) (resultFlags (s.vy v))

/-! ## Control register access -/

/-- R171: a control register that is not denied and does not fail goes to `Rx`, `CF` 0; a read of `EXEC_STATE` gives
some value, which nothing constrains (R32). -/
def Obligations.RdcReadsControlRegister : Prop :=
  ∀ (cond : BitVec 3) (x : RegNo) (n : CRegNo) (s : State), Runs (.rdc cond x n) s →
    (s.getCr s.active 0#4).getLsbD n.toNat = false → s.cfg.cregFailRead.getLsbD n.toNat = false →
    ∃ w, (n ≠ 6#4 → n ≠ 7#4 → w = s.getCr s.active n) ∧
      Computes (.rdc cond x n) s cond (oneReg (s.rx x) w) { resultFlags w with c := some false }

/-- R171, R172: an access that `CREG_FAIL` fails completes with `CF` 1; the other flags the row lists, and the register
of a read, hold some value; the control register is not written. -/
def Obligations.ControlAccessFailureSetsCarry : Prop :=
  ∀ (cond : BitVec 3) (x y : RegNo) (n : CRegNo) (s : State),
    (Runs (.rdc cond x n) s → (s.getCr s.active 0#4).getLsbD n.toNat = false →
      s.cfg.cregFailRead.getLsbD n.toNat = true →
      ∃ w zf sf pf, Computes (.rdc cond x n) s cond (oneReg (s.rx x) w)
        { z := some zf, s := some sf, p := some pf, c := some true }) ∧
    (Runs (.wrc cond n y) s → (s.getCr s.active 1#4).getLsbD n.toNat = false → n ≠ 6#4 → n ≠ 7#4 →
      reservedOk n (s.getRef (s.ry y)) → s.cfg.cregFailWrite.getLsbD n.toNat = true →
      ∃ zf sf pf, Computes (.wrc cond n y) s cond noReg
        { z := some zf, s := some sf, p := some pf, c := some true })

/-- R27, R28, R170, R173: a set mask bit makes the access raise `EXC_DENIED_CREG` and do nothing. -/
def Obligations.DeniedControlAccessRaises : Prop :=
  ∀ (cond : BitVec 3) (x y : RegNo) (n : CRegNo) (s : State),
    (Ready (.rdc cond x n) s → (s.getCr s.active 0#4).getLsbD n.toNat = true →
      ∃ t, exec (.rdc cond x n) s = .next t ∧ Raises s t .deniedCreg (loosePC s)) ∧
    (Ready (.wrc cond n y) s → (s.getCr s.active 1#4).getLsbD n.toNat = true →
      ∃ t, exec (.wrc cond n y) s = .next t ∧ Raises s t .deniedCreg (loosePC s))

/-- R172: a control register that hardware neither counts nor writes back takes `Ry`, `CF` 0. -/
def Obligations.WrcWritesControlRegister : Prop :=
  ∀ (cond : BitVec 3) (n : CRegNo) (y : RegNo) (s : State), Runs (.wrc cond n y) s →
    n ∉ [4#4, 5#4, 6#4, 7#4, 13#4, 15#4] → (s.getCr s.active 1#4).getLsbD n.toNat = false →
    reservedOk n (s.getRef (s.ry y)) → s.cfg.cregFailWrite.getLsbD n.toNat = false →
    ∃ t, exec (.wrc cond n y) s = .next t ∧ t.getCr s.active n = s.getRef (s.ry y) ∧
      CregsKept s t [n, 4#4, 5#4, 13#4, 15#4] ∧ RegsAfter s t noReg ∧ Counted s t ∧ Ended s t .completed ∧ Stays s t ∧
      FlagsAfter s t cond { resultFlags (s.getRef (s.ry y)) with c := some false }

/-- R172, D22: `WRC FLAGS` with write-back takes `VF` and bits 5 and above from the value and the other four flags from
the write-back; without it takes the value whole. -/
def Obligations.WrcFlagsWriteBackComesLast : Prop :=
  ∀ (cond : BitVec 3) (y : RegNo) (s : State) (w : Word), Runs (.wrc cond 15#4 y) s → w = s.getRef (s.ry y) →
    (s.getCr s.active 1#4).getLsbD 15 = false → reservedOk 15#4 w → s.cfg.cregFailWrite.getLsbD 15 = false →
    ∃ t, exec (.wrc cond 15#4 y) s = .next t ∧ CregsKept s t [4#4, 5#4, 13#4, 15#4] ∧ RegsAfter s t noReg ∧
      Counted s t ∧ Ended s t .completed ∧ Stays s t ∧ (¬ s.writesFlags cond → t.getCr s.active 15#4 = w) ∧
      (s.writesFlags cond →
        zfOf (t.getCr s.active 15#4) = decide (w = 0#16) ∧ sfOf (t.getCr s.active 15#4) = w.getLsbD 15 ∧
        pfOf (t.getCr s.active 15#4) = oddOnes w ∧ cfOf (t.getCr s.active 15#4) = false ∧
        ∀ j, 4 ≤ j → (t.getCr s.active 15#4).getLsbD j = w.getLsbD j)

/-- R123, R172: `WRC TIMER` is itself the first instruction the new value counts: 0 turns the timer off, 1 raises
`EXC_TIMER` at its own completion, anything else is left one lower. -/
def Obligations.WrcTimerCountsItself : Prop :=
  ∀ (cond : BitVec 3) (y : RegNo) (s : State) (w : Word), Ready (.wrc cond 13#4 y) s → w = s.getRef (s.ry y) →
    (s.getCr s.active 1#4).getLsbD 13 = false → s.cfg.cregFailWrite.getLsbD 13 = false →
    ∃ t, exec (.wrc cond 13#4 y) s = .next t ∧ RegsAfter s t noReg ∧ MemKept s t ∧ t.ports = s.ports ∧
      t.insnCount s.active = s.insnCount s.active + 1 ∧
      FlagsAfter s t cond { resultFlags w with c := some false } ∧
      t.getCr s.active 13#4 = (if w = 0#16 then 0#16 else w - 1#16) ∧
      (w ≠ 1#16 → CregsKept s t [4#4, 5#4, 13#4, 15#4] ∧ Ended s t .completed ∧ t.active = s.active) ∧
      (w = 1#16 → CregsKept s t [4#4, 5#4, 11#4, 12#4, 13#4, 15#4] ∧ Ended s t (.exception .timer) ∧
        InfoRecords (t.getCr s.active 11#4) s.cfg.excCodes .timer ∧ t.active = activeAfterExc s)

/-- R31, R172: `WRC` to a half of `INSN_COUNT` stores the value, and its own increment comes on top of it. -/
def Obligations.WrcCountThenIncrements : Prop :=
  ∀ (cond : BitVec 3) (n : CRegNo) (y : RegNo) (s : State), Runs (.wrc cond n y) s → n = 4#4 ∨ n = 5#4 →
    (s.getCr s.active 1#4).getLsbD n.toNat = false → s.cfg.cregFailWrite.getLsbD n.toNat = false →
    ∃ t, exec (.wrc cond n y) s = .next t ∧ CregsKept s t [4#4, 5#4, 13#4, 15#4] ∧ RegsAfter s t noReg ∧
      FlagsAfter s t cond { resultFlags (s.getRef (s.ry y)) with c := some false } ∧ Ended s t .completed ∧ Stays s t ∧
      t.getCr s.active 13#4 = (if s.getCr s.active 13#4 = 0#16 then 0#16 else s.getCr s.active 13#4 - 1#16) ∧
      t.insnCount s.active =
        (if n = 4#4 then s.getCr s.active 5#4 ++ s.getRef (s.ry y) else s.getRef (s.ry y) ++ s.getCr s.active 4#4) + 1

/-- R32, R46, R172: a write to `EXEC_STATE`, and one that sets a reserved bit, are refused. -/
def Obligations.WrcRefusesExecStateAndReservedBits : Prop :=
  ∀ (cond : BitVec 3) (n : CRegNo) (y : RegNo) (s : State), Ready (.wrc cond n y) s →
    (s.getCr s.active 1#4).getLsbD n.toNat = false →
    (n = 6#4 ∨ n = 7#4 → exec (.wrc cond n y) s = .refused (.execStateWrite s)) ∧
    (¬ reservedOk n (s.getRef (s.ry y)) → exec (.wrc cond n y) s = .refused (.reservedBitWrite s))

/-! ## Loads, stores, push, pop -/

/-- R180, R182, R188: the word or the widened byte at `Rd + Vy` to `Rx`, `ZF`, `SF`, `PF` of it. -/
def Obligations.LoadsWriteValueAndFlags : Prop :=
  ∀ (cond : BitVec 3) (x : RegNo) (v : Vy) (s : State) (pa : PhysAddr),
    (∀ w, Runs (.ldw cond x v) s → s.wordAt .read (s.effAddr x v) pa → s.holdsWord pa w →
      Computes (.ldw cond x v) s cond (oneReg (s.rx x) w) (resultFlags w)) ∧
    (∀ b, Runs (.ldb cond x v) s → s.byteAt .read (s.effAddr x v) pa → Memory.read s.mem pa.toNat = some b →
      Computes (.ldb cond x v) s cond (oneReg (s.rx x) (widened s.cfg.byteExt b))
        (resultFlags (widened s.cfg.byteExt b)))

/-- R181, R183, R188: the word or the low byte of `Rx` at `Rd + Vy`, every other byte of memory as before, no register
and no flag written. -/
def Obligations.StoresWriteBytes : Prop :=
  ∀ (cond : BitVec 3) (x : RegNo) (v : Vy) (s : State) (pa : PhysAddr),
    (Runs (.stw cond x v) s → s.wordAt .write (s.effAddr x v) pa →
      ∃ t, exec (.stw cond x v) s = .next t ∧ Completes s t cond noReg {} ∧ t.holdsWord pa (s.getRef (s.rx x)) ∧
        MemKeptBut s t (wordBytes pa) ∧ t.ports = s.ports ∧ t.active = s.active) ∧
    (Runs (.stb cond x v) s → s.byteAt .write (s.effAddr x v) pa →
      ∃ t, exec (.stb cond x v) s = .next t ∧ Completes s t cond noReg {} ∧
        Memory.read t.mem pa.toNat = some (BitVec.ofNat 8 (s.getRef (s.rx x)).toNat) ∧
        MemKeptBut s t [pa.toNat] ∧ t.ports = s.ports ∧ t.active = s.active)

/-- R54: a 16-bit access at an odd address raises `EXC_UNALIGNED` with its mode and that address, and does nothing. For
`PSH` the address is the decremented pointer, and the pointer register is left with any value (R246). -/
def Obligations.UnalignedAccessRaises : Prop :=
  ∀ (cond : BitVec 3) (x : RegNo) (v : Vy) (set : Word) (s : State),
    (Ready (.ldw cond x v) s → (s.effAddr x v).toNat % 2 = 1 →
      ∃ t, exec (.ldw cond x v) s = .next t ∧ Raises s t (.unaligned .read (s.effAddr x v)) (loosePC s)) ∧
    (Ready (.stw cond x v) s → (s.effAddr x v).toNat % 2 = 1 →
      ∃ t, exec (.stw cond x v) s = .next t ∧ Raises s t (.unaligned .write (s.effAddr x v)) (loosePC s)) ∧
    (Ready (.psh cond set) s → set ≠ 0#16 → (s.getRef (s.rd 11#4)).toNat % 2 = 1 →
      ∃ t, exec (.psh cond set) s = .next t ∧
        Raises s t (.unaligned .write (s.getRef (s.rd 11#4) - 2#16))
          (fun c i => loosePC s c i ∨ (c = (s.rd 11#4).bank ∧ i = (s.rd 11#4).num))) ∧
    (Ready (.pop cond set) s → set ≠ 0#16 → (s.getRef (s.rd 11#4)).toNat % 2 = 1 →
      ∃ t, exec (.pop cond set) s = .next t ∧
        Raises s t (.unaligned .read (s.getRef (s.rd 11#4)))
          (fun c i => loosePC s c i ∨ (c = (s.rd 11#4).bank ∧ i = (s.rd 11#4).num)))

/-- R62 to R64, R72: an access whose translation raises, or one of whose bytes the bus does not answer, raises that
exception, and the instruction does nothing. (The second byte of a load is asked for once the first is read.) -/
def Obligations.DataAccessExceptionRaises : Prop :=
  ∀ (cond : BitVec 3) (x : RegNo) (v : Vy) (s : State) (e : Exc) (mode : AccessMode) (i : Instr),
    (i = .ldb cond x v ∧ mode = .read ∨ i = .stb cond x v ∧ mode = .write ∨
      (i = .ldw cond x v ∧ mode = .read ∨ i = .stw cond x v ∧ mode = .write) ∧ (s.effAddr x v).toNat % 2 = 0) →
    (s.translate (s.effAddr x v) mode = .exc e ∨
      ∃ pa, s.translate (s.effAddr x v) mode = .ok pa ∧ e = .bus mode (s.effAddr x v) ∧
        (physMapHas s.cfg.physMap pa.toNat mode = false ∨
          (i = .ldw cond x v ∧ Memory.read s.mem pa.toNat ≠ none ∨ i = .stw cond x v) ∧
            physMapHas s.cfg.physMap (pa + 1#24).toNat mode = false)) →
    Ready i s → ∃ t, exec i s = .next t ∧ Raises s t e (loosePC s)

/-- R184: the pushes of the set in descending order, each at the address and with the value of its moment, and
nothing else. -/
def Obligations.PshPushesInDescendingOrder : Prop :=
  ∀ (cond : BitVec 3) (set : Word) (s u : State), Runs (.psh cond set) s →
    Chain (PushesOne (s.rd 11#4)) (descending set) s u →
    ∃ t, exec (.psh cond set) s = .next t ∧ RegsAfter u t noReg ∧ MemKept u t ∧
      CregsKept s t [4#4, 5#4, 13#4] ∧ Counted s t ∧ Ended s t .completed ∧ t.ports = s.ports ∧ t.active = s.active

/-- R185: the pops of the set in ascending order, each through the pointer as it then stands, and nothing else. -/
def Obligations.PopPopsInAscendingOrder : Prop :=
  ∀ (cond : BitVec 3) (set : Word) (s u : State), Runs (.pop cond set) s →
    Chain (PopsOne (s.rd 11#4)) (ascending set) s u →
    ∃ t, exec (.pop cond set) s = .next t ∧ RegsAfter u t noReg ∧
      CregsKept s t [4#4, 5#4, 13#4] ∧ Counted s t ∧ Ended s t .completed ∧ Stays s t

/-- R246: a push or pop that raises part way keeps the transfers already made, leaves the failing word untransferred and
the pointer at any value, and records the address of the failing word. One that meets a byte nothing has written stops the
machine with the transfers before it made, a push with the pointer already down (R49, R226). -/
def Obligations.StackExceptionKeepsEarlierTransfers : Prop :=
  ∀ (cond : BitVec 3) (set : Word) (s u d : State) (before after : List RegNo) (n : RegNo) (ptr : RegRef),
    ptr = s.rd 11#4 →
    (Ready (.psh cond set) s → descending set = before ++ n :: after → Chain (PushesOne ptr) before s u →
      d = u.setReg ptr.bank ptr.num (u.getReg ptr.bank ptr.num - 2#16) →
      (∀ e, d.wordRaises .write (d.getReg ptr.bank ptr.num) e →
        ∃ t, exec (.psh cond set) s = .next t ∧
          Raises u t e (fun c i => loosePC s c i ∨ (c = ptr.bank ∧ i = ptr.num))) ∧
      ∀ m, d.wordStops .write (d.getReg ptr.bank ptr.num) m → exec (.psh cond set) s = .fault (.unwrittenMemory m d)) ∧
    (Ready (.pop cond set) s → ascending set = before ++ n :: after → Chain (PopsOne ptr) before s u →
      (∀ e, u.wordRaises .read (u.getReg ptr.bank ptr.num) e →
        ∃ t, exec (.pop cond set) s = .next t ∧
          Raises u t e (fun c i => loosePC s c i ∨ (c = ptr.bank ∧ i = ptr.num))) ∧
      ∀ m, u.wordStops .read (u.getReg ptr.bank ptr.num) m → exec (.pop cond set) s = .fault (.unwrittenMemory m u))

/-- R185, R188: where the read and write mappings are the same region and the bus answers both, `POP` of a set that
does not hold `SP` restores every register that `PSH` of the set saved, and `SP` itself. -/
def Obligations.PopRestoresWhatPshSaved : Prop :=
  ∀ (set : Word) (s t : State), Runs (.psh 7#3 set) s → s.latch = {} → set.getLsbD 11 = false →
    (s.getReg s.active 11#4).toNat % 2 = 0 →
    s.getCr s.active 8#4 = s.getCr s.active 9#4 → (s.getCr s.active 9#4).getLsbD 0 = false →
    (∀ va : Word, ∀ mode, mode ≠ .execute →
      physMapHas s.cfg.physMap (regionTranslate (s.getCr s.active 9#4) va).toNat mode = true) →
    exec (.psh 7#3 set) s = .next t → Runs (.pop 7#3 set) t →
    ∃ u, exec (.pop 7#3 set) t = .next u ∧ RegsAfter s u noReg

/-- R53, R69: after `STW` the word reads back through a read mapping that reaches the same physical address, its low
byte at the address and its high byte at the next. -/
def Obligations.StoredWordReadsBackLittleEndian : Prop :=
  ∀ (cond : BitVec 3) (x : RegNo) (v : Vy) (s t : State) (pa : PhysAddr) (w : Word),
    Runs (.stw cond x v) s → s.wordAt .write (s.effAddr x v) pa → exec (.stw cond x v) s = .next t →
    w = s.getRef (s.rx x) → t.wordAt .read (s.effAddr x v) pa →
    t.readWord (s.effAddr x v) = .ok w ∧ t.readByte (s.effAddr x v) = .ok (BitVec.ofNat 8 w.toNat) ∧
    (t.byteAt .read (s.effAddr x v + 1#16) (pa + 1#24) →
      t.readByte (s.effAddr x v + 1#16) = .ok (BitVec.ofNat 8 (w.toNat / 256)))

/-! ## Translation -/

/-- R57, R58: with the MMU off the region is put in front of the virtual address and nothing is raised. -/
def Obligations.RegionTranslationPrependsRegion : Prop :=
  ∀ (s : State) (va : Word) (mode : AccessMode) (m : Word),
    m = (match mode with
      | .read => s.getCr s.active 8#4
      | .write => s.getCr s.active 9#4
      | .execute => s.getCr s.active 10#4) →
    m.getLsbD 0 = false →
    ∃ pa, s.translate va mode = .ok pa ∧ pa.toNat = m.toNat / 256 * 65536 + va.toNat

/-- R59 to R62: with the MMU on the entry of the virtual page is read from the table, little-endian, and gives the
physical page. That the bus is asked for it with kind read, also for a write or a fetch, is the model's deduction (log
entry 17). A refused entry raises `EXC_MMU`, an entry the bus does not answer `EXC_BUS`, each with the mode and
the virtual address of the access. -/
def Obligations.PageTranslationWalksTable : Prop :=
  ∀ (s : State) (va : Word) (mode : AccessMode) (m : Word) (ea : PhysAddr),
    m = (match mode with
      | .read => s.getCr s.active 8#4
      | .write => s.getCr s.active 9#4
      | .execute => s.getCr s.active 10#4) →
    m.getLsbD 0 = true → ea.toNat = m.toNat / 2 * 2 * 256 + 2 * (va.toNat / 256) →
    (physMapHas s.cfg.physMap ea.toNat .read = false → s.translate va mode = .exc (.bus mode va)) ∧
    (physMapHas s.cfg.physMap ea.toNat .read = true → Memory.read s.mem ea.toNat ≠ none →
      physMapHas s.cfg.physMap (ea.toNat + 1) .read = false → s.translate va mode = .exc (.bus mode va)) ∧
    (∀ pte : Word, physMapHas s.cfg.physMap ea.toNat .read = true →
      physMapHas s.cfg.physMap (ea.toNat + 1) .read = true → s.holdsWord ea pte →
      (pteFaults s.cfg.pteFault pte mode = true → s.translate va mode = .exc (.mmu mode va)) ∧
      (pteFaults s.cfg.pteFault pte mode = false →
        ∃ pa, s.translate va mode = .ok pa ∧ pa.toNat = pte.toNat * 256 + va.toNat % 256))

/-! ## Control transfer -/

/-- R200: `DPC` takes `Rx` and `PC` takes `Vy`, both of the executing context. -/
def Obligations.BraWritesDpcAndPc : Prop :=
  ∀ (cond : BitVec 3) (x : RegNo) (v : Vy) (s : State), Runs (.bra cond x v) s →
    Computes (.bra cond x v) s cond
      (s.bankRegs fun i => if i = 15#4 then some (s.getRef (s.rx x)) else if i = 14#4 then some (s.vy v) else none) {}

/-- R201: `PC` moves by the offset times the stride, modulo 2^16. -/
def Obligations.BrrMovesPcByStrides : Prop :=
  ∀ (cond : BitVec 3) (imm : Word) (s : State), Runs (.brr cond imm) s →
    Computes (.brr cond imm) s cond
      (s.bankRegs fun i => if i = 14#4 then
        some (BitVec.ofNat 16 ((s.getReg s.active 14#4).toNat + imm.toNat * ((s.getReg s.active 15#4).toNat + 1)))
        else none) {}

/-- R202: `RD` takes `DPC` and `RA` the next `PC`, then as `BRA` with the operands read before. -/
def Obligations.FcaLinksAndBranches : Prop :=
  ∀ (cond : BitVec 3) (x : RegNo) (v : Vy) (s : State), Runs (.fca cond x v) s →
    (s.rx x ≠ ⟨s.active, 12#4⟩ ∧ s.rx x ≠ ⟨s.active, 13#4⟩) →
    (∀ y, v = .reg y → s.ry y ≠ ⟨s.active, 12#4⟩ ∧ s.ry y ≠ ⟨s.active, 13#4⟩) →
    Computes (.fca cond x v) s cond
      (s.bankRegs fun i =>
        if i = 13#4 then some (s.getReg s.active 15#4) else if i = 12#4 then some (s.getReg s.active 14#4)
        else if i = 15#4 then some (s.getRef (s.rx x)) else if i = 14#4 then some (s.vy v) else none) {}

/-- R204: `FCA` is refused for an operand that is `RA` or `RD` of the active bank, and for no other: with `XX` or `XY` the
operand is in the inactive bank. -/
def Obligations.FcaRefusesLinkOperand : Prop :=
  ∀ (cond : BitVec 3) (x : RegNo) (v : Vy) (s : State), Ready (.fca cond x v) s →
    (exec (.fca cond x v) s = .refused (.linkRegisterOperand s) ↔
      (s.latch.xx = false ∧ (x = 12#4 ∨ x = 13#4)) ∨
        ∃ y, v = .reg y ∧ s.latch.xy = false ∧ (y = 12#4 ∨ y = 13#4))

/-- R203: `RD` takes `DPC` and `RA` the next `PC`, then as `BRR`. -/
def Obligations.FcrLinksAndMovesPc : Prop :=
  ∀ (cond : BitVec 3) (imm : Word) (s : State), Runs (.fcr cond imm) s →
    Computes (.fcr cond imm) s cond
      (s.bankRegs fun i =>
        if i = 13#4 then some (s.getReg s.active 15#4) else if i = 12#4 then some (s.getReg s.active 14#4)
        else if i = 14#4 then
          some (BitVec.ofNat 16 ((s.getReg s.active 14#4).toNat + imm.toNat * ((s.getReg s.active 15#4).toNat + 1)))
        else none) {}

/-! ## Ports and system instructions -/

/-- R220, R225: the port's answer is used up and recorded; a byte goes widened to `Rx` with `CF` 0, a failure sets
`CF` and leaves `Rx` and the other flags at some value. -/
def Obligations.RdbReadsPort : Prop :=
  ∀ (cond : BitVec 3) (x : RegNo) (p : PortNo) (s : State), Runs (.rdb cond x p) s →
    ∃ t, exec (.rdb cond x p) s = .next t ∧ MemKept s t ∧ t.active = s.active ∧
      t.ports = { reads := s.ports.reads.tail, writes := s.ports.writes,
                  log := s.ports.log ++ [.read p (s.portAnswer p)] } ∧
      (∀ b, s.portAnswer p = some b →
        Completes s t cond (oneReg (s.rx x) (widened s.cfg.byteExt b))
          { resultFlags (widened s.cfg.byteExt b) with c := some false }) ∧
      (s.portAnswer p = none → ∃ w zf sf pf,
        Completes s t cond (oneReg (s.rx x) w) { z := some zf, s := some sf, p := some pf, c := some true })

/-- R221, R225: the low byte of the value operand goes to the port and is recorded; `CF` says whether it failed. -/
def Obligations.WrbWritesPort : Prop :=
  ∀ (cond : BitVec 3) (p : PortNo) (v : Vy) (s : State) (b : Byte), Runs (.wrb cond p v) s →
    b = BitVec.ofNat 8 (s.vy v).toNat →
    ∃ t, exec (.wrb cond p v) s = .next t ∧ MemKept s t ∧ t.active = s.active ∧
      t.ports = { reads := s.ports.reads, writes := s.ports.writes.tail,
                  log := s.ports.log ++ [.write p b (s.portAccepts p b)] } ∧
      Completes s t cond noReg { c := some (!s.portAccepts p b) }

/-- R222, R226: without a debugger nothing; with one the machine stops with nothing changed, and the next step waits
for the debugger (log entry 15). -/
def Obligations.BptStopsOnlyForDebugger : Prop :=
  ∀ (cond : BitVec 3) (s : State),
    (Runs (.bpt cond) s → s.cfg.debugger = false → Computes (.bpt cond) s cond noReg {}) ∧
    (Ready (.bpt cond) s → s.cfg.debugger = true →
      ∃ t, exec (.bpt cond) s = .next t ∧ RegsAfter s t noReg ∧ CregsKept s t [] ∧ Stays s t ∧ Ended s t .breakpoint ∧
        step t = .fault (.heldByDebugger t))

/-- R223, R122: the other context becomes active, nothing is copied, and the count and the timer are those of the
context that executed it. -/
def Obligations.HltSwapsContexts : Prop :=
  ∀ (cond : BitVec 3) (s : State), Runs (.hlt cond) s →
    ∃ t, exec (.hlt cond) s = .next t ∧ t.active ≠ s.active ∧ Completes s t cond noReg {} ∧ MemKept s t ∧
      t.ports = s.ports

/-- R224: nothing but the completion. -/
def Obligations.NopOnlyCompletes : Prop :=
  ∀ (cond : BitVec 3) (s : State), Runs (.nop cond) s → Computes (.nop cond) s cond noReg {}

/-! ## Prefixes, operands, conditions, checks -/

/-- R113, R94: what each prefix byte notes for the instruction it precedes. -/
def Obligations.PrefixesAreNoted : Prop :=
  ∀ (s : State) (d : RegNo),
    exec .xc s = .next (s.setLatch { s.latch with xc := true }) ∧
    exec .tf s = .next (s.setLatch { s.latch with tf := !s.latch.tf }) ∧
    exec .xx s = .next (s.setLatch { s.latch with xx := true }) ∧
    exec .xy s = .next (s.setLatch { s.latch with xy := true }) ∧
    exec .xz s = .next (s.setLatch { s.latch with xz := true }) ∧
    (s.latch.rd = none → exec (.dr d) s = .next (s.setLatch { s.latch with rd := some d })) ∧
    (s.latch.rd ≠ none → s.latch.rdx = none → exec (.dr d) s = .next (s.setLatch { s.latch with rdx := some d })) ∧
    (s.latch.rd ≠ none → s.latch.rdx ≠ none → exec (.dr d) s = .next (s.setLatch { s.latch with extraDr := true }))

/-- R96, R226: a byte 0xC5 to 0xCF where a prefix can stand stops the machine with the fault `reservedPrefix`, `PC` past
that byte and the prefixes before it noted. -/
def Obligations.ReservedPrefixFaults : Prop :=
  (∀ (s : State) (p : BitVec 1) (q : BitVec 3), exec .reservedC5 s = .fault (.reservedPrefix s) ∧
    exec (.reservedC6 p) s = .fault (.reservedPrefix s) ∧ exec (.reservedC8 q) s = .fault (.reservedPrefix s)) ∧
  ∀ (s : State) (ps : List Instr) (b : Byte) (bs : List Byte), s.ended ≠ .breakpoint → ps.length ≤ 65536 →
    (∀ p ∈ ps, p.isPrefix = true ∧ p ≠ .xc) → 0xC5 ≤ b.toNat → b.toNat ≤ 0xCF →
    bs = ps.flatMap (encode s.cfg.wrbImm) ++ [b] → s.codeAt (s.getReg s.active 14#4) bs →
    step s = .fault (.reservedPrefix (s.fetched bs.length (notedPrefixes ps)))

/-- R114, R85, R95, R186: the bank and the number of each operand, and the effective address of a load or store. -/
def Obligations.OperandsResolve : Prop :=
  ∀ (s : State) (x y dflt : RegNo) (w : Word),
    s.rx x = ⟨if s.latch.xx then s.active.other else s.active, x⟩ ∧
    s.ry y = ⟨if s.latch.xy then s.active.other else s.active, y⟩ ∧
    (s.rd dflt).bank = (if s.latch.xz then s.active.other else s.active) ∧
    (s.rdx dflt).bank = (s.rd dflt).bank ∧
    (s.latch.rd = none → (s.rd dflt).num = dflt) ∧ (∀ d, s.latch.rd = some d → (s.rd dflt).num = d) ∧
    (s.latch.rdx = none → (s.rdx dflt).num = (s.rd dflt).num ^^^ 1#4) ∧
    (∀ d, s.latch.rdx = some d → (s.rdx dflt).num = d) ∧
    s.vy (.reg y) = s.getReg (s.ry y).bank y ∧ s.vy (.imm w) = w ∧
    (s.cfg.memBase = .rx → ∀ v, s.effAddr x v = s.getReg (s.rd x).bank (s.rd x).num + s.vy v) ∧
    (s.cfg.memBase = .zero → ∀ v, s.effAddr x v = s.getReg (s.rd 0#4).bank (s.rd 0#4).num + s.vy v)

/-- R118: the truth of each condition code on `FLAGS`, and what the codes say after `CMP` and after `SUB`. -/
def Obligations.ConditionsHoldAsTabulated : Prop :=
  (∀ (s : State) (cond : BitVec 3) (f : Word), f = s.getCr s.active 15#4 →
    (s.latch.xc = false →
      (cond = 0#3 → s.condOn cond = f.getLsbD 0) ∧ (cond = 1#3 → s.condOn cond = !f.getLsbD 0) ∧
      (cond = 2#3 → s.condOn cond = (f.getLsbD 3 && !f.getLsbD 0)) ∧
      (cond = 3#3 → s.condOn cond = (!f.getLsbD 3 || f.getLsbD 0)) ∧
      (cond = 4#3 → s.condOn cond = !f.getLsbD 3) ∧ (cond = 5#3 → s.condOn cond = f.getLsbD 3) ∧
      (cond = 7#3 → s.condOn cond = true)) ∧
    (s.latch.xc = true →
      (cond = 0#3 → s.condOn cond = f.getLsbD 1) ∧ (cond = 1#3 → s.condOn cond = !f.getLsbD 1) ∧
      (cond = 2#3 → s.condOn cond = (!f.getLsbD 0 && (f.getLsbD 1 == f.getLsbD 4))) ∧
      (cond = 3#3 → s.condOn cond = (f.getLsbD 0 || (f.getLsbD 1 != f.getLsbD 4))) ∧
      (cond = 4#3 → s.condOn cond = (f.getLsbD 1 != f.getLsbD 4)) ∧
      (cond = 5#3 → s.condOn cond = (f.getLsbD 1 == f.getLsbD 4)) ∧
      (cond = 6#3 → s.condOn cond = f.getLsbD 2) ∧ (cond = 7#3 → s.condOn cond = !f.getLsbD 2))) ∧
  ∀ (i : Instr) (x : RegNo) (v : Vy) (s t : State) (a b : Word), i = .cmp 7#3 x v ∨ i = .sub 7#3 x v → Runs i s →
    s.latch.tf = false → s.latch.xc = false → a = s.getRef (s.rx x) → b = s.vy v → exec i s = .next t →
    ∀ holds : BitVec 4 → Bool, holds = (fun code => condHolds code (t.getCr s.active 15#4)) →
    (holds 0#4 = true ↔ a = b) ∧ (holds 1#4 = true ↔ a ≠ b) ∧ (holds 2#4 = true ↔ b.toNat < a.toNat) ∧
    (holds 3#4 = true ↔ a.toNat ≤ b.toNat) ∧ (holds 4#4 = true ↔ a.toNat < b.toNat) ∧
    (holds 5#4 = true ↔ b.toNat ≤ a.toNat) ∧ (holds 10#4 = true ↔ b.toInt < a.toInt) ∧
    (holds 11#4 = true ↔ a.toInt ≤ b.toInt) ∧ (holds 12#4 = true ↔ a.toInt < b.toInt) ∧
    (holds 13#4 = true ↔ b.toInt ≤ a.toInt)

/-- R119, R122: an instruction whose condition is false changes nothing and completes. -/
def Obligations.FalseConditionOnlyCompletes : Prop :=
  ∀ (i : Instr) (r : OpcodeRow) (s : State), opcodeRow i = some r → ¬ s.xregsDenied → ¬ s.opcodeDenied r.op →
    prefixesFit s.latch r → s.condOn r.cond = false → s.getCr s.active 13#4 ≠ 1#16 →
    Computes i s r.cond noReg {}

/-- R115, R116, R30: a denied opcode, or a cross-bank prefix under `FLAG_DENY_XREGS`, raises `EXC_DENIED_INSN`
whatever the condition, and does nothing. -/
def Obligations.DeniedInstructionRaises : Prop :=
  ∀ (i : Instr) (r : OpcodeRow) (s : State), opcodeRow i = some r → s.xregsDenied ∨ s.opcodeDenied r.op →
    ∃ t, exec i s = .next t ∧ Raises s t .deniedInsn (loosePC s)

/-- R114: a prefix that modifies no operand of the instruction, and a third `DR`, are refused after the deny checks,
whatever the condition. -/
def Obligations.MisplacedPrefixIsRefused : Prop :=
  ∀ (i : Instr) (r : OpcodeRow) (s : State), opcodeRow i = some r → ¬ s.xregsDenied → ¬ s.opcodeDenied r.op →
    ¬ prefixesFit s.latch r →
    exec i s = .refused (if s.latch.extraDr then .thirdDr s else .prefixWithoutOperand s)

/-- R123, R245: every instruction that completes completes in the same way where its completion takes `TIMER` from 1 to
0, and then `EXC_TIMER` is recorded in the context that executed it: compared with the same state at `TIMER` 2. An `RDC` of
`TIMER` reads the 1; a `WRC` of it is `WrcTimerCountsItself`. `NOP` and `HLT` are stated outright as well, the record of
`HLT` going to the context it switched away from. -/
def Obligations.TimerExpiryIsPrecise : Prop :=
  (∀ (i : Instr) (r : OpcodeRow) (s u : State), opcodeRow i = some r →
    s.getCr s.active 13#4 = 1#16 → ¬ (s.condOn r.cond = true ∧ s.usesTimer i) →
    exec i (s.setCr s.active 13#4 2#16) = .next u → u.ended = .completed →
    ∃ t, exec i s = .next t ∧ Expires s u t) ∧
  (∀ (cond : BitVec 3) (x : RegNo) (s : State), Ready (.rdc cond x 13#4) s → s.getCr s.active 13#4 = 1#16 →
    (s.getCr s.active 0#4).getLsbD 13 = false → s.cfg.cregFailRead.getLsbD 13 = false →
    ∃ t, exec (.rdc cond x 13#4) s = .next t ∧ RegsAfter s t (oneReg (s.rx x) 1#16) ∧
      FlagsAfter s t cond { resultFlags (1#16) with c := some false } ∧ Counted s t ∧ MemKept s t ∧ t.ports = s.ports ∧
      CregsKept s t [4#4, 5#4, 11#4, 12#4, 13#4, 15#4] ∧ Ended s t (.exception .timer) ∧
      InfoRecords (t.getCr s.active 11#4) s.cfg.excCodes .timer ∧ t.active = activeAfterExc s) ∧
  ∀ (i : Instr) (cond : BitVec 3) (s : State), i = .nop cond ∨ i = .hlt cond → Ready i s →
    s.getCr s.active 13#4 = 1#16 →
    ∃ t, exec i s = .next t ∧ RegsAfter s t noReg ∧ MemKept s t ∧ t.ports = s.ports ∧
      CregsKept s t [4#4, 5#4, 11#4, 12#4, 13#4] ∧ Counted s t ∧ Ended s t (.exception .timer) ∧
      InfoRecords (t.getCr s.active 11#4) s.cfg.excCodes .timer ∧
      (t.active = s.active ↔ (i = .nop cond ↔ s.cfg.excAction = .stop))

/-! ## The step around `exec` -/

/-- R110, R111, R41: where the bytes at `PC` decode to an instruction without prefixes, the step is `exec` of it, with
`INSN_ADDR` at its first byte and `PC` past its last. -/
def Obligations.StepRunsDecodedInstruction : Prop :=
  ∀ (s : State) (i : Instr) (bs : List Byte), s.ended ≠ .breakpoint →
    decode s.cfg.wrbImm false bs = .ok (i, []) →
    i.isPrefix = false → s.codeAt (s.getReg s.active 14#4) bs → step s = exec i (s.fetched bs.length {})

/-- R80, R83, R110, R113: the same for an instruction with prefixes: it runs with what they noted. -/
def Obligations.StepRunsPrefixedInstruction : Prop :=
  ∀ (s : State) (ps : List Instr) (i : Instr) (bs : List Byte), s.ended ≠ .breakpoint → ps.length ≤ 65536 →
    (∀ p ∈ ps, p.isPrefix = true) → (∀ p ∈ ps.dropLast, p ≠ .xc) →
    i.isPrefix = false → i.wellFormed s.cfg.wrbImm (ps.contains .xc) = true →
    bs = ps.flatMap (encode s.cfg.wrbImm) ++ encode s.cfg.wrbImm i → s.codeAt (s.getReg s.active 14#4) bs →
    step s = exec i (s.fetched bs.length (notedPrefixes ps))

/-- R111, R117, R242: a code byte, the first or a later one of an instruction, whose translation raises or which the bus
does not answer, raises that exception with the address `va` of that byte, while `INSN_ADDR` holds the address of the first.
One that nothing has written stops the machine with `PC` at it and the prefixes before it noted (R49, R226). -/
def Obligations.FetchExceptionRaises : Prop :=
  ∀ (s : State) (ps : List Instr) (i : Instr) (done rest : List Byte) (b : Byte) (va : Word), s.ended ≠ .breakpoint →
    ps.length ≤ 65536 → (∀ p ∈ ps, p.isPrefix = true) → (∀ p ∈ ps.dropLast, p ≠ .xc) →
    i.isPrefix = false → i.wellFormed s.cfg.wrbImm (ps.contains .xc) = true →
    ps.flatMap (encode s.cfg.wrbImm) ++ encode s.cfg.wrbImm i = done ++ b :: rest →
    s.codeAt (s.getReg s.active 14#4) done →
    va = s.getReg s.active 14#4 + BitVec.ofNat 16 done.length * (1#16 + s.getReg s.active 15#4) →
    (∀ e, (s.translate va .execute = .exc e ∨
        ∃ pa, s.translate va .execute = .ok pa ∧ physMapHas s.cfg.physMap pa.toNat .execute = false ∧
          e = .bus .execute va) →
      ∃ t, step s = .next t ∧ Raises (s.fetched 0 {}) t e (loosePC s) ∧
        t.getCr s.active 14#4 = s.getReg s.active 14#4) ∧
    (∀ a, (s.translate va .execute = .unwritten a ∨
        ∃ pa, s.translate va .execute = .ok pa ∧ physMapHas s.cfg.physMap pa.toNat .execute = true ∧
          Memory.read s.mem pa.toNat = none ∧ a = pa.toNat) →
      step s = .fault (.unwrittenMemory a (s.fetched done.length (notedPrefixes (ps.take done.length)))))

/-! ## Encoding -/

/-- R80 to R97: decoding the encoding of a well-formed row gives the row back, with every byte after it left over, for
either value `k` of `WRB_IMM_BYTES`. -/
def Obligations.DecodeOfEncodeIsIdentity : Prop :=
  ∀ (k : ImmLen) (i : Instr) (afterXc : Bool) (rest : List Byte), i.wellFormed k afterXc = true →
    decode k afterXc (encode k i ++ rest) = .ok (i, rest)

/-- R80 to R97: what the decoder reads is well-formed, and its encoding is exactly the bytes read, for either value `k` of
`WRB_IMM_BYTES`. -/
def Obligations.EncodeOfDecodeIsIdentity : Prop :=
  ∀ (k : ImmLen) (i : Instr) (afterXc : Bool) (bs rest : List Byte), decode k afterXc bs = .ok (i, rest) →
    i.wellFormed k afterXc = true ∧ bs = encode k i ++ rest

/-- Byte sequences that the spec writes out decode to the instructions it names. The nibbles of `WRC` and `WRB` are as the
spec decides them (log entry 11). The immediate of `WRB` is two bytes under the default `WRB_IMM_BYTES` = 2 and one byte
under 1 (log entry 10). -/
def Obligations.SampleBytesDecode : Prop :=
  decode .two false [0xE0#8, 0x12#8] = .ok (.add 7#3 1#4 (.reg 2#4), []) ∧
  decode .two false [0xE0#8, 0x1F#8, 0x34#8, 0x12#8] = .ok (.add 7#3 1#4 (.imm 0x1234#16), []) ∧
  decode .two false [0xEF#8, 0xD1#8] = .ok (.wrc 7#3 13#4 1#4, []) ∧
  decode .two false [0xF1#8, 0x12#8] = .ok (.stw 7#3 1#4 (.reg 2#4), []) ∧
  decode .two false [0x35#8, 0xF9#8, 0xFF#8] = .ok (.brr 1#3 0xFFF9#16, []) ∧
  decode .two false [0xF9#8, 0x3F#8, 0x41#8, 0x00#8] = .ok (.wrb 7#3 3#4 (.imm 0x41#16), []) ∧
  decode .one false [0xF9#8, 0x3F#8, 0x41#8, 0x00#8] = .ok (.wrb 7#3 3#4 (.imm 0x41#16), [0x00#8]) ∧
  decode .two false [0xFA#8, 0x80#8, 0x10#8] = .ok (.psh 7#3 0x1080#16, []) ∧
  decode .two false [0xD3#8, 0xE0#8, 0x12#8] = .ok (.dr 3#4, [0xE0#8, 0x12#8]) ∧
  decode .two false [0xC5#8] = .ok (.reservedC5, []) ∧ decode .two true [0xDF#8] = .ok (.nop 6#3, [])

/-! ## Whole-machine rules -/

/-- R11, R252: with no shared control registers, no step writes a control register of the inactive context. -/
def Obligations.InactiveControlRegistersKept : Prop :=
  ∀ (s t : State) (d : CtxId) (n : CRegNo), s.cfg.sharedCregs = 0#16 → step s = .next t → d ≠ s.active →
    t.getCr d n = s.getCr d n

/-- R44, R115: while `FLAG_DENY_XREGS` of the executing context is set, no step writes a general register of the
inactive context. -/
def Obligations.DenyXregsSealsOtherBank : Prop :=
  ∀ (s t : State) (d : CtxId) (i : RegNo), (s.getCr s.active 15#4).getLsbD 5 = true → step s = .next t →
    d ≠ s.active → t.getReg d i = s.getReg d i

/-- R28, R252: a control register that hardware does not write, whose `CREG_DENY_W` bit is set along with that of
`CREG_DENY_W` itself, never changes again, whatever runs in either context, where no control register is shared. -/
def Obligations.WriteDenialIsPermanent : Prop :=
  ∀ (k : Nat) (s t : State) (c : CtxId) (n : CRegNo), s.cfg.sharedCregs = 0#16 →
    n ∈ [0#4, 1#4, 2#4, 3#4, 8#4, 9#4, 10#4] → (s.getCr c 1#4).getLsbD 1 = true →
    (s.getCr c 1#4).getLsbD n.toNat = true → Sys2Proof.core.run k s = .next t → t.getCr c n = s.getCr c n

/-- R36: bit 0 of `EXC_INFO` stays set until an instruction writes the register with `WRC`; a step after which it is clear
was one: `exec` of it at the state after the step's own fetch. -/
def Obligations.ExceptionBitIsSticky : Prop :=
  (∀ (i : Instr) (s t : State) (c : CtxId), (∀ cond y, i ≠ .wrc cond 11#4 y) → exec i s = .next t →
    (s.getCr c 11#4).getLsbD 0 = true → (t.getCr c 11#4).getLsbD 0 = true) ∧
  ∀ (s t : State) (c : CtxId), step s = .next t → (s.getCr c 11#4).getLsbD 0 = true →
    (t.getCr c 11#4).getLsbD 0 = false →
    ∃ cond y n l, exec (.wrc cond 11#4 y) (s.fetched n l) = .next t
end

