-- ==== Sys2Proof/Laws/Flags.lean ====
section
/-! SUPPORT. The bits of `FLAGS` after a write-back. -/

namespace Sys2Proof.Machine

theorem getLsbD_withBit (w : Word) (i j : Nat) (b : Bool) (hi : i < 16) :
    (withBit w i b).getLsbD j = if j = i then b else w.getLsbD j := by
  have one : (1#16 <<< i).getLsbD j = decide (j = i) := by
    by_cases h : j = i
    · subst h
      simp [hi]
    · by_cases hj : j < 16
      · by_cases hlt : j < i
        · simp [hj, hlt, h]
        · have : j - i ≠ 0 := by omega
          simp [hj, h, this]
      · simp [BitVec.getLsbD_of_ge _ _ (by omega : 16 ≤ j), h]
  unfold withBit
  cases b with
  | true =>
    simp only [if_true, BitVec.getLsbD_or, one]
    by_cases h : j = i <;> simp [h]
  | false =>
    simp only [Bool.false_eq_true, if_false, BitVec.getLsbD_and, BitVec.getLsbD_not, one]
    by_cases h : j = i
    · simp [h]
    · by_cases hj : j < 16
      · simp [h, hj]
      · simp [h, BitVec.getLsbD_of_ge w j (by omega)]

theorem getLsbD_putFlag (i : Nat) (b : Option Bool) (f : Word) (j : Nat) (hi : i < 16) :
    (putFlag i b f).getLsbD j = if j = i then b.getD (f.getLsbD j) else f.getLsbD j := by
  cases b with
  | none => simp [putFlag]
  | some b => exact getLsbD_withBit f i j b hi

theorem putFlags_bit (f : Word) (w : FlagWrite) (j : Nat) :
    (putFlags f w).getLsbD j =
      if j = 4 then w.v.getD (f.getLsbD 4) else if j = 3 then w.c.getD (f.getLsbD 3)
      else if j = 2 then w.p.getD (f.getLsbD 2) else if j = 1 then w.s.getD (f.getLsbD 1)
      else if j = 0 then w.z.getD (f.getLsbD 0) else f.getLsbD j := by
  unfold putFlags
  rw [getLsbD_putFlag 4 _ _ _ (by decide), getLsbD_putFlag 3 _ _ _ (by decide), getLsbD_putFlag 2 _ _ _ (by decide),
    getLsbD_putFlag 1 _ _ _ (by decide), getLsbD_putFlag 0 _ _ _ (by decide)]
  split <;> [(rename_i h; subst h; rfl); skip]
  split <;> [(rename_i h; subst h; rfl); skip]
  split <;> [(rename_i h; subst h; rfl); skip]
  split <;> [(rename_i h; subst h; rfl); skip]
  split <;> [(rename_i h; subst h; rfl); rfl]

theorem putFlags_zf (f : Word) (w : FlagWrite) : zfOf (putFlags f w) = w.z.getD (zfOf f) := putFlags_bit f w 0
theorem putFlags_sf (f : Word) (w : FlagWrite) : sfOf (putFlags f w) = w.s.getD (sfOf f) := putFlags_bit f w 1
theorem putFlags_pf (f : Word) (w : FlagWrite) : pfOf (putFlags f w) = w.p.getD (pfOf f) := putFlags_bit f w 2
theorem putFlags_cf (f : Word) (w : FlagWrite) : cfOf (putFlags f w) = w.c.getD (cfOf f) := putFlags_bit f w 3
theorem putFlags_vf (f : Word) (w : FlagWrite) : vfOf (putFlags f w) = w.v.getD (vfOf f) := putFlags_bit f w 4

/-- A write-back leaves bits 5 and above alone (R43). -/
theorem putFlags_high (f : Word) (w : FlagWrite) {j : Nat} (h : 5 ≤ j) :
    (putFlags f w).getLsbD j = f.getLsbD j := by
  rw [putFlags_bit, if_neg (by omega), if_neg (by omega), if_neg (by omega), if_neg (by omega), if_neg (by omega)]

end Sys2Proof.Machine
end

