-- ==== Sys2Proof/Laws/Memory.lean ====
section
/-! SUPPORT. The physical memory: a read after a write, and every write keeps the canonical form. -/

namespace Sys2Proof.Machine

/-- One write changes one address and no other. -/
theorem memory_read_write (m : List Host.Cell) (a a' : Nat) (b : Byte) :
    Memory.read (Memory.write m a b) a' = if a' = a then some b else Memory.read m a' := by
  induction m with
  | nil => simp [Memory.write, Memory.read, eq_comm]
  | cons e m ih =>
    obtain ⟨k, v⟩ := e
    simp only [Memory.write]
    split
    · simp [Memory.read, eq_comm]
    · split
      · rename_i h; subst h
        by_cases h' : a' = a
        · simp [Memory.read, h']
        · simp [Memory.read, h', Ne.symm h']
      · rename_i h₁ h₂
        simp only [Memory.read, ih]
        by_cases hk : k = a'
        · have : a' ≠ a := by omega
          simp [hk, this]
        · simp [hk]

theorem memory_read_write_same (m : List Host.Cell) (a : Nat) (b : Byte) :
    Memory.read (Memory.write m a b) a = some b := by simp [memory_read_write]

theorem memory_read_write_other (m : List Host.Cell) {a a' : Nat} (b : Byte) (h : a' ≠ a) :
    Memory.read (Memory.write m a b) a' = Memory.read m a' := by simp [memory_read_write, h]

theorem memory_rising_write {m : List Host.Cell} (a : Nat) (b : Byte) {low : Option Nat}
    (hm : Memory.rising low m = true) (hl : ∀ l, low = some l → l < a) :
    Memory.rising low (Memory.write m a b) = true := by
  induction m generalizing low with
  | nil =>
    cases low with
    | none => simp [Memory.write, Memory.rising]
    | some l => simp [Memory.write, Memory.rising, hl l rfl]
  | cons e m ih =>
    obtain ⟨k, v⟩ := e
    have hk : Memory.rising (some k) m = true := by
      cases low <;> simp_all [Memory.rising]
    simp only [Memory.write]
    split
    · rename_i h
      cases low with
      | none => simp [Memory.rising, h, hk]
      | some l => simp [Memory.rising, h, hk, hl l rfl]
    · split
      · rename_i h; subst h
        cases low <;> simp_all [Memory.rising]
      · have := ih (low := some k) hk (by rintro l ⟨⟩; omega)
        cases low <;> simp_all [Memory.rising]

theorem memory_write_all {m : List Host.Cell} {p : Host.Cell → Bool} (a : Nat) (b : Byte) (hm : m.all p = true)
    (h : p (a, b) = true) : (Memory.write m a b).all p = true := by
  induction m with
  | nil => simp [Memory.write, h]
  | cons e m ih =>
    obtain ⟨k, v⟩ := e
    simp only [List.all_cons, Bool.and_eq_true] at hm
    simp only [Memory.write]
    split
    · simp [h, hm.1, hm.2]
    · split
      · simp [h, hm.2]
      · simp [hm.1, ih hm.2]

/-- A write of a byte at a 24-bit address keeps the canonical form. -/
theorem memory_wf_write {m : List Host.Cell} {a : Nat} (b : Byte) (hm : Memory.wf m = true) (ha : a < 2 ^ 24) :
    Memory.wf (Memory.write m a b) = true := by
  simp only [Memory.wf, Bool.and_eq_true] at hm ⊢
  exact ⟨memory_rising_write a b hm.1 (by simp), memory_write_all a b hm.2 (by simpa using ha)⟩

end Sys2Proof.Machine
end

