-- ==== Sys2Proof/Laws/State.lean ====
section
/-! SUPPORT. The small lemmas of the state: every accessor of every update, so that no later proof unfolds a
record update. -/

namespace Sys2Proof.Machine

/-! ## Contexts -/

@[simp] theorem CtxId.other_other (c : CtxId) : c.other.other = c := by cases c <;> rfl
@[simp] theorem CtxId.other_ne (c : CtxId) : c.other ≠ c := by cases c <;> decide
@[simp] theorem CtxId.ne_other (c : CtxId) : c ≠ c.other := by cases c <;> decide

@[simp] theorem setCtx_active (s : State) (c : CtxId) (x : Context) : (s.setCtx c x).active = s.active := by
  cases c <;> rfl
@[simp] theorem setCtx_mem (s : State) (c : CtxId) (x : Context) : (s.setCtx c x).mem = s.mem := by cases c <;> rfl
@[simp] theorem setCtx_ports (s : State) (c : CtxId) (x : Context) : (s.setCtx c x).ports = s.ports := by
  cases c <;> rfl
@[simp] theorem setCtx_latch (s : State) (c : CtxId) (x : Context) : (s.setCtx c x).latch = s.latch := by
  cases c <;> rfl
@[simp] theorem setCtx_ended (s : State) (c : CtxId) (x : Context) : (s.setCtx c x).ended = s.ended := by
  cases c <;> rfl
@[simp] theorem setCtx_draws (s : State) (c : CtxId) (x : Context) : (s.setCtx c x).draws = s.draws := by
  cases c <;> rfl
@[simp] theorem setCtx_cfg (s : State) (c : CtxId) (x : Context) : (s.setCtx c x).cfg = s.cfg := by cases c <;> rfl

theorem ctx_setCtx (s : State) (c d : CtxId) (x : Context) :
    (s.setCtx c x).ctx d = if d = c then x else s.ctx d := by
  cases c <;> cases d <;> rfl

/-! ## General registers -/

@[simp] theorem context_getReg_zero (x : Context) : x.getReg 0#4 = 0#16 := rfl

@[simp] theorem context_setReg_cregs (x : Context) (i : RegNo) (v : Word) : (x.setReg i v).cregs = x.cregs := by
  unfold Context.setReg; split <;> rfl

theorem context_getReg_setReg (x : Context) (i j : RegNo) (v : Word) :
    (x.setReg i v).getReg j = if j = i ∧ j ≠ 0#4 then v else x.getReg j := by
  unfold Context.setReg Context.getReg
  by_cases hj : j = 0#4
  · simp [hj]
  · by_cases hi : i = 0#4
    · have : j ≠ i := by rintro rfl; exact hj hi
      simp [hi, hj]
    · have hi' : i.toNat ≠ 0 := fun h => hi (BitVec.eq_of_toNat_eq (by simpa using h))
      have hj' : j.toNat ≠ 0 := fun h => hj (BitVec.eq_of_toNat_eq (by simpa using h))
      have key : i.toNat - 1 = j.toNat - 1 ↔ j = i := by
        constructor
        · intro h; exact BitVec.eq_of_toNat_eq (by omega)
        · rintro rfl; rfl
      simp only [hi, hj, if_false, Vector.getElem_set, key]
      by_cases h : j = i <;> simp [h, hi]

@[simp] theorem getReg_zero (s : State) (c : CtxId) : s.getReg c 0#4 = 0#16 := rfl

@[simp] theorem setReg_active (s : State) (c : CtxId) (i : RegNo) (v : Word) :
    (s.setReg c i v).active = s.active := by simp [State.setReg]
@[simp] theorem setReg_mem (s : State) (c : CtxId) (i : RegNo) (v : Word) : (s.setReg c i v).mem = s.mem := by
  simp [State.setReg]
@[simp] theorem setReg_ports (s : State) (c : CtxId) (i : RegNo) (v : Word) : (s.setReg c i v).ports = s.ports := by
  simp [State.setReg]
@[simp] theorem setReg_latch (s : State) (c : CtxId) (i : RegNo) (v : Word) : (s.setReg c i v).latch = s.latch := by
  simp [State.setReg]
@[simp] theorem setReg_ended (s : State) (c : CtxId) (i : RegNo) (v : Word) : (s.setReg c i v).ended = s.ended := by
  simp [State.setReg]
@[simp] theorem setReg_draws (s : State) (c : CtxId) (i : RegNo) (v : Word) : (s.setReg c i v).draws = s.draws := by
  simp [State.setReg]
@[simp] theorem setReg_cfg (s : State) (c : CtxId) (i : RegNo) (v : Word) : (s.setReg c i v).cfg = s.cfg := by
  simp [State.setReg]

/-- What one register write does to every register of both banks; a write to register 0 does nothing (R13). -/
theorem getReg_setReg (s : State) (c d : CtxId) (i j : RegNo) (v : Word) :
    (s.setReg c i v).getReg d j = if d = c ∧ j = i ∧ j ≠ 0#4 then v else s.getReg d j := by
  unfold State.setReg State.getReg
  rw [ctx_setCtx]
  by_cases h : d = c
  · subst h; simp [context_getReg_setReg]
  · simp [h]

@[simp] theorem setReg_zero (s : State) (c : CtxId) (v : Word) : s.setReg c 0#4 v = s := by
  cases c <;> rfl

theorem setReg_ctx_cregs (s : State) (c d : CtxId) (i : RegNo) (v : Word) :
    ((s.setReg c i v).ctx d).cregs = (s.ctx d).cregs := by
  unfold State.setReg
  rw [ctx_setCtx]
  by_cases h : d = c
  · subst h; simp
  · simp [h]

@[simp] theorem getCr_setReg (s : State) (c d : CtxId) (i : RegNo) (n : CRegNo) (v : Word) :
    (s.setReg c i v).getCr d n = s.getCr d n := by
  simp only [State.getCr, setReg_cfg, setReg_ctx_cregs]

/-! ## Control registers -/

@[simp] theorem setCr_active (s : State) (c : CtxId) (n : CRegNo) (v : Word) :
    (s.setCr c n v).active = s.active := by simp [State.setCr]
@[simp] theorem setCr_mem (s : State) (c : CtxId) (n : CRegNo) (v : Word) : (s.setCr c n v).mem = s.mem := by
  simp [State.setCr]
@[simp] theorem setCr_ports (s : State) (c : CtxId) (n : CRegNo) (v : Word) : (s.setCr c n v).ports = s.ports := by
  simp [State.setCr]
@[simp] theorem setCr_latch (s : State) (c : CtxId) (n : CRegNo) (v : Word) : (s.setCr c n v).latch = s.latch := by
  simp [State.setCr]
@[simp] theorem setCr_ended (s : State) (c : CtxId) (n : CRegNo) (v : Word) : (s.setCr c n v).ended = s.ended := by
  simp [State.setCr]
@[simp] theorem setCr_draws (s : State) (c : CtxId) (n : CRegNo) (v : Word) : (s.setCr c n v).draws = s.draws := by
  simp [State.setCr]
@[simp] theorem setCr_cfg (s : State) (c : CtxId) (n : CRegNo) (v : Word) : (s.setCr c n v).cfg = s.cfg := by
  simp [State.setCr]

@[simp] theorem getReg_setCr (s : State) (c d : CtxId) (n : CRegNo) (i : RegNo) (v : Word) :
    (s.setCr c n v).getReg d i = s.getReg d i := by
  unfold State.setCr State.getReg
  rw [ctx_setCtx]
  by_cases h : d = Params.home s.cfg c n
  · subst h; simp [Context.getReg]
  · simp [h]

theorem setCr_ctx_cregs (s : State) (c d : CtxId) (n : CRegNo) (v : Word) :
    ((s.setCr c n v).ctx d).cregs =
      if d = Params.home s.cfg c n then (s.ctx d).cregs.set n.toNat v n.isLt else (s.ctx d).cregs := by
  unfold State.setCr
  rw [ctx_setCtx]
  by_cases h : d = Params.home s.cfg c n
  · subst h; simp
  · simp [h]

/-- What one control register write does to every control register of both contexts: a shared register has one
home (R10). -/
theorem getCr_setCr (s : State) (c d : CtxId) (n m : CRegNo) (v : Word) :
    (s.setCr c n v).getCr d m =
      if m = n ∧ Params.home s.cfg d n = Params.home s.cfg c n then v else s.getCr d m := by
  have key : n.toNat = m.toNat ↔ m = n :=
    ⟨fun h => (BitVec.eq_of_toNat_eq h).symm, fun h => by rw [h]⟩
  simp only [State.getCr, setCr_cfg, setCr_ctx_cregs]
  by_cases hm : m = n
  · subst hm
    by_cases hd : Params.home s.cfg d m = Params.home s.cfg c m
    · simp [hd]
    · simp [hd]
  · by_cases hd : Params.home s.cfg d m = Params.home s.cfg c n
    · simp [hd, hm, key]
    · simp [hd, hm]

@[simp] theorem getCr_setCr_self (s : State) (c : CtxId) (n : CRegNo) (v : Word) :
    (s.setCr c n v).getCr c n = v := by simp [getCr_setCr]

@[simp] theorem getCr_setCr_ne (s : State) (c d : CtxId) {n m : CRegNo} (v : Word) (h : m ≠ n) :
    (s.setCr c n v).getCr d m = s.getCr d m := by simp [getCr_setCr, h]

/-! ## Flags -/

theorem writeFlags_false (s : State) (c : CtxId) (w : FlagWrite) : s.writeFlags c false w = s := rfl
theorem writeFlags_true (s : State) (c : CtxId) (w : FlagWrite) :
    s.writeFlags c true w = s.setCr c crFlags (putFlags (s.flags c) w) := rfl

@[simp] theorem writeFlags_active (s : State) (c : CtxId) (wf : Bool) (w : FlagWrite) :
    (s.writeFlags c wf w).active = s.active := by cases wf <;> simp [State.writeFlags]
@[simp] theorem writeFlags_mem (s : State) (c : CtxId) (wf : Bool) (w : FlagWrite) :
    (s.writeFlags c wf w).mem = s.mem := by cases wf <;> simp [State.writeFlags]
@[simp] theorem writeFlags_ports (s : State) (c : CtxId) (wf : Bool) (w : FlagWrite) :
    (s.writeFlags c wf w).ports = s.ports := by cases wf <;> simp [State.writeFlags]
@[simp] theorem writeFlags_latch (s : State) (c : CtxId) (wf : Bool) (w : FlagWrite) :
    (s.writeFlags c wf w).latch = s.latch := by cases wf <;> simp [State.writeFlags]
@[simp] theorem writeFlags_ended (s : State) (c : CtxId) (wf : Bool) (w : FlagWrite) :
    (s.writeFlags c wf w).ended = s.ended := by cases wf <;> simp [State.writeFlags]
@[simp] theorem writeFlags_draws (s : State) (c : CtxId) (wf : Bool) (w : FlagWrite) :
    (s.writeFlags c wf w).draws = s.draws := by cases wf <;> simp [State.writeFlags]
@[simp] theorem writeFlags_cfg (s : State) (c : CtxId) (wf : Bool) (w : FlagWrite) :
    (s.writeFlags c wf w).cfg = s.cfg := by cases wf <;> simp [State.writeFlags]
@[simp] theorem getReg_writeFlags (s : State) (c d : CtxId) (wf : Bool) (w : FlagWrite) (i : RegNo) :
    (s.writeFlags c wf w).getReg d i = s.getReg d i := by cases wf <;> simp [State.writeFlags]
@[simp] theorem getCr_writeFlags_ne (s : State) (c d : CtxId) (wf : Bool) (w : FlagWrite) {n : CRegNo}
    (h : n ≠ crFlags) : (s.writeFlags c wf w).getCr d n = s.getCr d n := by
  cases wf <;> simp [State.writeFlags, h]

/-- `FLAGS` after a write-back. -/
theorem getCr_writeFlags_flags (s : State) (c d : CtxId) (wf : Bool) (w : FlagWrite) :
    (s.writeFlags c wf w).getCr d crFlags =
      if wf ∧ Params.home s.cfg d crFlags = Params.home s.cfg c crFlags then putFlags (s.getCr c crFlags) w
      else s.getCr d crFlags := by
  cases wf
  · simp [State.writeFlags]
  · simp [State.writeFlags, getCr_setCr, State.flags]

@[simp] theorem flags_writeFlags_self (s : State) (c : CtxId) (wf : Bool) (w : FlagWrite) :
    (s.writeFlags c wf w).getCr c crFlags = if wf then putFlags (s.getCr c crFlags) w else s.getCr c crFlags := by
  cases wf <;> simp [State.writeFlags, State.flags]

/-! ## Free values -/

@[simp] theorem drawn_active (s : State) : s.drawn.active = s.active := rfl
@[simp] theorem drawn_mem (s : State) : s.drawn.mem = s.mem := rfl
@[simp] theorem drawn_ports (s : State) : s.drawn.ports = s.ports := rfl
@[simp] theorem drawn_latch (s : State) : s.drawn.latch = s.latch := rfl
@[simp] theorem drawn_ended (s : State) : s.drawn.ended = s.ended := rfl
@[simp] theorem drawn_draws (s : State) : s.drawn.draws = s.draws + 1 := rfl
@[simp] theorem drawn_cfg (s : State) : s.drawn.cfg = s.cfg := rfl
@[simp] theorem drawn_ctx (s : State) (c : CtxId) : s.drawn.ctx c = s.ctx c := by cases c <;> rfl
@[simp] theorem getReg_drawn (s : State) (c : CtxId) (i : RegNo) : s.drawn.getReg c i = s.getReg c i := by
  simp [State.getReg]
@[simp] theorem getCr_drawn (s : State) (c : CtxId) (n : CRegNo) : s.drawn.getCr c n = s.getCr c n := by
  simp [State.getCr]

@[simp] theorem drawReg_active (s : State) (c : CtxId) (i : RegNo) : (s.drawReg c i).active = s.active := by
  simp [State.drawReg]
@[simp] theorem drawReg_mem (s : State) (c : CtxId) (i : RegNo) : (s.drawReg c i).mem = s.mem := by
  simp [State.drawReg]
@[simp] theorem drawReg_ports (s : State) (c : CtxId) (i : RegNo) : (s.drawReg c i).ports = s.ports := by
  simp [State.drawReg]
@[simp] theorem drawReg_latch (s : State) (c : CtxId) (i : RegNo) : (s.drawReg c i).latch = s.latch := by
  simp [State.drawReg]
@[simp] theorem drawReg_cfg (s : State) (c : CtxId) (i : RegNo) : (s.drawReg c i).cfg = s.cfg := by
  simp [State.drawReg]
@[simp] theorem getCr_drawReg (s : State) (c d : CtxId) (i : RegNo) (n : CRegNo) :
    (s.drawReg c i).getCr d n = s.getCr d n := by simp [State.drawReg]
theorem getReg_drawReg (s : State) (c d : CtxId) (i j : RegNo) :
    (s.drawReg c i).getReg d j = if d = c ∧ j = i ∧ j ≠ 0#4 then s.freeWord else s.getReg d j := by
  simp [State.drawReg, getReg_setReg]

@[simp] theorem drawCr_active (s : State) (c : CtxId) (n : CRegNo) : (s.drawCr c n).active = s.active := by
  simp [State.drawCr]
@[simp] theorem drawCr_mem (s : State) (c : CtxId) (n : CRegNo) : (s.drawCr c n).mem = s.mem := by
  simp [State.drawCr]
@[simp] theorem drawCr_ports (s : State) (c : CtxId) (n : CRegNo) : (s.drawCr c n).ports = s.ports := by
  simp [State.drawCr]
@[simp] theorem drawCr_latch (s : State) (c : CtxId) (n : CRegNo) : (s.drawCr c n).latch = s.latch := by
  simp [State.drawCr]
@[simp] theorem drawCr_cfg (s : State) (c : CtxId) (n : CRegNo) : (s.drawCr c n).cfg = s.cfg := by
  simp [State.drawCr]
@[simp] theorem getReg_drawCr (s : State) (c d : CtxId) (n : CRegNo) (i : RegNo) :
    (s.drawCr c n).getReg d i = s.getReg d i := by simp [State.drawCr]
theorem getCr_drawCr (s : State) (c d : CtxId) (n m : CRegNo) :
    (s.drawCr c n).getCr d m =
      if m = n ∧ Params.home s.cfg d n = Params.home s.cfg c n then s.freeWord else s.getCr d m := by
  simp [State.drawCr, getCr_setCr]

/-! ## Ports -/

@[simp] theorem portReadDone_active (s : State) (p : PortNo) : (s.portReadDone p).active = s.active := rfl
@[simp] theorem portReadDone_mem (s : State) (p : PortNo) : (s.portReadDone p).mem = s.mem := rfl
@[simp] theorem portReadDone_latch (s : State) (p : PortNo) : (s.portReadDone p).latch = s.latch := rfl
@[simp] theorem portReadDone_draws (s : State) (p : PortNo) : (s.portReadDone p).draws = s.draws := rfl
@[simp] theorem portReadDone_cfg (s : State) (p : PortNo) : (s.portReadDone p).cfg = s.cfg := rfl
@[simp] theorem portReadDone_ctx (s : State) (p : PortNo) (c : CtxId) : (s.portReadDone p).ctx c = s.ctx c := by
  cases c <;> rfl
@[simp] theorem getReg_portReadDone (s : State) (p : PortNo) (c : CtxId) (i : RegNo) :
    (s.portReadDone p).getReg c i = s.getReg c i := by simp [State.getReg]
@[simp] theorem getCr_portReadDone (s : State) (p : PortNo) (c : CtxId) (n : CRegNo) :
    (s.portReadDone p).getCr c n = s.getCr c n := by simp [State.getCr]

@[simp] theorem portWriteDone_active (s : State) (p : PortNo) (b : Byte) :
    (s.portWriteDone p b).active = s.active := rfl
@[simp] theorem portWriteDone_mem (s : State) (p : PortNo) (b : Byte) : (s.portWriteDone p b).mem = s.mem := rfl
@[simp] theorem portWriteDone_latch (s : State) (p : PortNo) (b : Byte) : (s.portWriteDone p b).latch = s.latch := rfl
@[simp] theorem portWriteDone_draws (s : State) (p : PortNo) (b : Byte) : (s.portWriteDone p b).draws = s.draws := rfl
@[simp] theorem portWriteDone_cfg (s : State) (p : PortNo) (b : Byte) : (s.portWriteDone p b).cfg = s.cfg := rfl
@[simp] theorem portWriteDone_ctx (s : State) (p : PortNo) (b : Byte) (c : CtxId) :
    (s.portWriteDone p b).ctx c = s.ctx c := by cases c <;> rfl
@[simp] theorem getReg_portWriteDone (s : State) (p : PortNo) (b : Byte) (c : CtxId) (i : RegNo) :
    (s.portWriteDone p b).getReg c i = s.getReg c i := by simp [State.getReg]
@[simp] theorem getCr_portWriteDone (s : State) (p : PortNo) (b : Byte) (c : CtxId) (n : CRegNo) :
    (s.portWriteDone p b).getCr c n = s.getCr c n := by simp [State.getCr]

/-! ## Bytes of memory -/

@[simp] theorem putByte_active (s : State) (pa : PhysAddr) (b : Byte) : (s.putByte pa b).active = s.active := rfl
@[simp] theorem putByte_mem (s : State) (pa : PhysAddr) (b : Byte) :
    (s.putByte pa b).mem = Memory.write s.mem pa.toNat b := rfl
@[simp] theorem putByte_ports (s : State) (pa : PhysAddr) (b : Byte) : (s.putByte pa b).ports = s.ports := rfl
@[simp] theorem putByte_latch (s : State) (pa : PhysAddr) (b : Byte) : (s.putByte pa b).latch = s.latch := rfl
@[simp] theorem putByte_ended (s : State) (pa : PhysAddr) (b : Byte) : (s.putByte pa b).ended = s.ended := rfl
@[simp] theorem putByte_draws (s : State) (pa : PhysAddr) (b : Byte) : (s.putByte pa b).draws = s.draws := rfl
@[simp] theorem putByte_cfg (s : State) (pa : PhysAddr) (b : Byte) : (s.putByte pa b).cfg = s.cfg := rfl
@[simp] theorem putByte_ctx (s : State) (pa : PhysAddr) (b : Byte) (c : CtxId) :
    (s.putByte pa b).ctx c = s.ctx c := by cases c <;> rfl
@[simp] theorem getReg_putByte (s : State) (pa : PhysAddr) (b : Byte) (c : CtxId) (i : RegNo) :
    (s.putByte pa b).getReg c i = s.getReg c i := by simp [State.getReg]
@[simp] theorem getCr_putByte (s : State) (pa : PhysAddr) (b : Byte) (c : CtxId) (n : CRegNo) :
    (s.putByte pa b).getCr c n = s.getCr c n := by simp [State.getCr]

/-! ## The context swap and the bookkeeping fields -/

@[simp] theorem swapContexts_active (s : State) : s.swapContexts.active = s.active.other := rfl
@[simp] theorem swapContexts_mem (s : State) : s.swapContexts.mem = s.mem := rfl
@[simp] theorem swapContexts_ports (s : State) : s.swapContexts.ports = s.ports := rfl
@[simp] theorem swapContexts_latch (s : State) : s.swapContexts.latch = s.latch := rfl
@[simp] theorem swapContexts_draws (s : State) : s.swapContexts.draws = s.draws := rfl
@[simp] theorem swapContexts_cfg (s : State) : s.swapContexts.cfg = s.cfg := rfl
@[simp] theorem swapContexts_ctx (s : State) (c : CtxId) : s.swapContexts.ctx c = s.ctx c := by cases c <;> rfl
@[simp] theorem getReg_swapContexts (s : State) (c : CtxId) (i : RegNo) :
    s.swapContexts.getReg c i = s.getReg c i := by simp [State.getReg]
@[simp] theorem getCr_swapContexts (s : State) (c : CtxId) (n : CRegNo) :
    s.swapContexts.getCr c n = s.getCr c n := by simp [State.getCr]

@[simp] theorem setLatch_active (s : State) (l : Latch) : (s.setLatch l).active = s.active := rfl
@[simp] theorem setLatch_mem (s : State) (l : Latch) : (s.setLatch l).mem = s.mem := rfl
@[simp] theorem setLatch_ports (s : State) (l : Latch) : (s.setLatch l).ports = s.ports := rfl
@[simp] theorem setLatch_draws (s : State) (l : Latch) : (s.setLatch l).draws = s.draws := rfl
@[simp] theorem setLatch_cfg (s : State) (l : Latch) : (s.setLatch l).cfg = s.cfg := rfl
@[simp] theorem setLatch_latch (s : State) (l : Latch) : (s.setLatch l).latch = l := rfl
@[simp] theorem setLatch_ended (s : State) (l : Latch) : (s.setLatch l).ended = s.ended := rfl
@[simp] theorem setLatch_ctx (s : State) (l : Latch) (c : CtxId) : (s.setLatch l).ctx c = s.ctx c := by cases c <;> rfl
@[simp] theorem getReg_setLatch (s : State) (l : Latch) (c : CtxId) (i : RegNo) :
    (s.setLatch l).getReg c i = s.getReg c i := by simp [State.getReg]
@[simp] theorem getCr_setLatch (s : State) (l : Latch) (c : CtxId) (n : CRegNo) :
    (s.setLatch l).getCr c n = s.getCr c n := by simp [State.getCr]

@[simp] theorem endStep_active (s : State) (e : StepEnd) : (s.endStep e).active = s.active := rfl
@[simp] theorem endStep_mem (s : State) (e : StepEnd) : (s.endStep e).mem = s.mem := rfl
@[simp] theorem endStep_ports (s : State) (e : StepEnd) : (s.endStep e).ports = s.ports := rfl
@[simp] theorem endStep_draws (s : State) (e : StepEnd) : (s.endStep e).draws = s.draws := rfl
@[simp] theorem endStep_cfg (s : State) (e : StepEnd) : (s.endStep e).cfg = s.cfg := rfl
@[simp] theorem endStep_latch (s : State) (e : StepEnd) : (s.endStep e).latch = {} := rfl
@[simp] theorem endStep_ended (s : State) (e : StepEnd) : (s.endStep e).ended = e := rfl
@[simp] theorem endStep_ctx (s : State) (e : StepEnd) (c : CtxId) : (s.endStep e).ctx c = s.ctx c := by cases c <;> rfl
@[simp] theorem getReg_endStep (s : State) (e : StepEnd) (c : CtxId) (i : RegNo) :
    (s.endStep e).getReg c i = s.getReg c i := by simp [State.getReg]
@[simp] theorem getCr_endStep (s : State) (e : StepEnd) (c : CtxId) (n : CRegNo) :
    (s.endStep e).getCr c n = s.getCr c n := by simp [State.getCr]

end Sys2Proof.Machine
end

