-- ==== Sys2Proof/Laws/Ops.lean ====
section
/-! SUPPORT. One lemma for each shared operation that says what it can do, for the provers to cite instead of
unfolding it: accesses, the exception record, completion, and the cycle around an instruction. -/

namespace Sys2Proof.Machine

/-! ## Accesses -/

theorem andThen_ok {α β : Type} {x : Access α} {k : α → Access β} {b : β} :
    x.andThen k = .ok b ↔ ∃ a, x = .ok a ∧ k a = .ok b := by
  cases x <;> simp [Access.andThen]

theorem andThen_exc {α β : Type} {x : Access α} {k : α → Access β} {e : Exc} :
    x.andThen k = .exc e ↔ x = .exc e ∨ ∃ a, x = .ok a ∧ k a = .exc e := by
  cases x <;> simp [Access.andThen]

@[simp] theorem andThen_of_ok {α β : Type} (a : α) (k : α → Access β) : (Access.ok a).andThen k = k a := rfl
@[simp] theorem andThen_of_exc {α β : Type} (e : Exc) (k : α → Access β) :
    (Access.exc e : Access α).andThen k = .exc e := rfl
@[simp] theorem andThen_of_unwritten {α β : Type} (pa : Nat) (k : α → Access β) :
    (Access.unwritten pa : Access α).andThen k = .unwritten pa := rfl

@[simp] theorem thenDo_of_ok {α : Type} (a : α) (s t : State) (k : α → Effect) : (Access.ok a).thenDo s t k = k a := rfl
@[simp] theorem thenDo_of_exc {α : Type} (e : Exc) (s t : State) (k : α → Effect) :
    (Access.exc e : Access α).thenDo s t k = .raise e s := rfl
@[simp] theorem thenDo_of_unwritten {α : Type} (pa : Nat) (s t : State) (k : α → Effect) :
    (Access.unwritten pa : Access α).thenDo s t k = .fault (.unwrittenMemory pa t) := rfl

/-! ## Fetches -/

@[simp] theorem fetch_andThen_of_ok {α β : Type} (a : α) (s : State) (k : α → State → Fetch β) :
    (Fetch.ok a s).andThen k = k a s := rfl
@[simp] theorem fetch_andThen_of_exc {α β : Type} (e : Exc) (s : State) (k : α → State → Fetch β) :
    (Fetch.exc e s : Fetch α).andThen k = .exc e s := rfl
@[simp] theorem fetch_andThen_of_unwritten {α β : Type} (pa : Nat) (s : State) (k : α → State → Fetch β) :
    (Fetch.unwritten pa s : Fetch α).andThen k = .unwritten pa s := rfl

theorem fetch_andThen_ok {α β : Type} {x : Fetch α} {k : α → State → Fetch β} {b : β} {t : State} :
    x.andThen k = .ok b t ↔ ∃ a u, x = .ok a u ∧ k a u = .ok b t := by
  cases x <;> simp [Fetch.andThen]

theorem fetch_andThen_exc {α β : Type} {x : Fetch α} {k : α → State → Fetch β} {e : Exc} {t : State} :
    x.andThen k = .exc e t ↔ x = .exc e t ∨ ∃ a u, x = .ok a u ∧ k a u = .exc e t := by
  cases x <;> simp [Fetch.andThen]

/-- A byte fetched moves `PC` past it (R111). -/
theorem fetchByte_ok {s t : State} {b : Byte} : s.fetchByte = .ok b t ↔ s.codeByte = .ok b ∧ t = s.stepPc := by
  unfold State.fetchByte; cases s.codeByte <;> simp [eq_comm]

/-- A byte whose fetch raises leaves the machine as it was (R111). -/
theorem fetchByte_exc {s t : State} {e : Exc} : s.fetchByte = .exc e t ↔ s.codeByte = .exc e ∧ t = s := by
  unfold State.fetchByte; cases s.codeByte <;> simp [eq_comm]

theorem physRead_ok {s : State} {kind mode : AccessMode} {va : Word} {pa : PhysAddr} {b : Byte} :
    s.physRead kind mode va pa = .ok b ↔
      physMapHas s.cfg.physMap pa.toNat kind = true ∧ Memory.read s.mem pa.toNat = some b := by
  unfold State.physRead
  split
  · split <;> simp_all
  · simp_all

/-- A bus access raises only `EXC_BUS`, and only where the bus does not answer (R62). -/
theorem physRead_exc {s : State} {kind mode : AccessMode} {va : Word} {pa : PhysAddr} {e : Exc} :
    s.physRead kind mode va pa = .exc e ↔ physMapHas s.cfg.physMap pa.toNat kind = false ∧ e = .bus mode va := by
  unfold State.physRead
  split
  · split <;> simp_all
  · rename_i h
    simp only [Access.exc.injEq, Bool.not_eq_true] at h ⊢
    exact ⟨fun e' => ⟨h, e'.symm⟩, fun e' => e'.2.symm⟩

theorem translate_region {s : State} {va : Word} {mode : AccessMode} (h : (s.membase mode).getLsbD 0 = false) :
    s.translate va mode = .ok (regionTranslate (s.membase mode) va) := by
  simp only [State.translate, h, Bool.false_eq_true, if_false]

theorem translate_page {s : State} {va : Word} {mode : AccessMode} (h : (s.membase mode).getLsbD 0 = true) :
    s.translate va mode = s.pageTranslate (s.membase mode) va mode := by
  simp only [State.translate, h, if_true]

/-- What a word write that succeeds has done (R64). -/
theorem writeWord_ok {s t : State} {va v : Word} :
    s.writeWord va v = .ok t ↔
      va.getLsbD 0 = false ∧ ∃ pa, s.translate va .write = .ok pa ∧
        physMapHas s.cfg.physMap pa.toNat .write = true ∧ physMapHas s.cfg.physMap (pa + 1).toNat .write = true ∧
        t = (s.putByte pa (loByte v)).putByte (pa + 1) (hiByte v) := by
  unfold State.writeWord
  by_cases h : va.getLsbD 0
  · simp [h]
  · simp only [h, Bool.false_eq_true, if_false, andThen_ok, true_and]
    constructor
    · rintro ⟨pa, h1, h2⟩
      by_cases hb : (physMapHas s.cfg.physMap pa.toNat .write && physMapHas s.cfg.physMap (pa + 1).toNat .write) = true
      · rw [if_pos hb] at h2
        simp only [Bool.and_eq_true] at hb
        exact ⟨pa, h1, hb.1, hb.2, by simpa using h2.symm⟩
      · rw [if_neg hb] at h2; simp at h2
    · rintro ⟨pa, h1, h2, h3, rfl⟩
      exact ⟨pa, h1, by simp only [h2, h3, Bool.and_self, if_true]⟩

/-- What a byte write that succeeds has done (R64). -/
theorem writeByte_ok {s t : State} {va : Word} {b : Byte} :
    s.writeByte va b = .ok t ↔
      ∃ pa, s.translate va .write = .ok pa ∧ physMapHas s.cfg.physMap pa.toNat .write = true ∧ t = s.putByte pa b := by
  unfold State.writeByte
  simp only [andThen_ok]
  constructor
  · rintro ⟨pa, h1, h2⟩
    by_cases hb : physMapHas s.cfg.physMap pa.toNat .write = true
    · rw [if_pos hb] at h2; exact ⟨pa, h1, hb, by simpa using h2.symm⟩
    · rw [if_neg hb] at h2; simp at h2
  · rintro ⟨pa, h1, h2, rfl⟩
    exact ⟨pa, h1, by simp [h2]⟩

/-- What a word read that succeeds has read (R63). -/
theorem readWord_ok {s : State} {va w : Word} :
    s.readWord va = .ok w ↔
      va.getLsbD 0 = false ∧ ∃ pa lo hi, s.translate va .read = .ok pa ∧ s.physRead .read .read va pa = .ok lo ∧
        s.physRead .read .read va (pa + 1) = .ok hi ∧ w = wordOf lo hi := by
  unfold State.readWord
  by_cases h : va.getLsbD 0
  · simp [h]
  · simp only [h, Bool.false_eq_true, if_false, andThen_ok, true_and]
    constructor
    · rintro ⟨pa, h1, lo, h2, hi, h3, h4⟩
      exact ⟨pa, lo, hi, h1, h2, h3, by simpa using h4.symm⟩
    · rintro ⟨pa, lo, hi, h1, h2, h3, rfl⟩
      exact ⟨pa, h1, lo, h2, hi, h3, rfl⟩

/-! ## An access depends on memory, the configuration and the active context's `MEMBASE` registers alone -/

theorem membase_congr {s t : State} (ha : t.active = s.active) (hc : ∀ n, t.getCr s.active n = s.getCr s.active n)
    (mode : AccessMode) : t.membase mode = s.membase mode := by
  cases mode <;> simp [State.membase, ha, hc]

theorem physRead_congr {s t : State} (hm : t.mem = s.mem) (hg : t.cfg = s.cfg) (kind mode : AccessMode) (va : Word)
    (pa : PhysAddr) : t.physRead kind mode va pa = s.physRead kind mode va pa := by
  simp [State.physRead, hm, hg]

theorem translate_congr {s t : State} (hm : t.mem = s.mem) (hg : t.cfg = s.cfg)
    (hb : ∀ mode, t.membase mode = s.membase mode) (va : Word) (mode : AccessMode) :
    t.translate va mode = s.translate va mode := by
  simp [State.translate, State.pageTranslate, hb, hg, physRead_congr hm hg]

theorem readWord_congr {s t : State} (hm : t.mem = s.mem) (hg : t.cfg = s.cfg)
    (hb : ∀ mode, t.membase mode = s.membase mode) (va : Word) : t.readWord va = s.readWord va := by
  simp [State.readWord, translate_congr hm hg hb, physRead_congr hm hg]

/-! ## Taking an exception (R243) -/

@[simp] theorem deliver_mem (s : State) : s.deliver.mem = s.mem := by unfold State.deliver; split <;> rfl
@[simp] theorem deliver_ports (s : State) : s.deliver.ports = s.ports := by unfold State.deliver; split <;> rfl
@[simp] theorem deliver_cfg (s : State) : s.deliver.cfg = s.cfg := by unfold State.deliver; split <;> rfl
@[simp] theorem deliver_draws (s : State) : s.deliver.draws = s.draws := by unfold State.deliver; split <;> rfl
@[simp] theorem getReg_deliver (s : State) (c : CtxId) (i : RegNo) : s.deliver.getReg c i = s.getReg c i := by
  unfold State.deliver; split <;> simp
@[simp] theorem getCr_deliver (s : State) (c : CtxId) (n : CRegNo) : s.deliver.getCr c n = s.getCr c n := by
  unfold State.deliver; split <;> simp
theorem deliver_active (s : State) :
    s.deliver.active = if s.cfg.excAction = .swap then s.active.other else s.active := by
  unfold State.deliver; cases s.cfg.excAction <;> simp

@[simp] theorem loosePc_active (s : State) (c : CtxId) (e : Exc) : (s.loosePc c e).active = s.active := by
  unfold State.loosePc; split <;> simp
@[simp] theorem loosePc_mem (s : State) (c : CtxId) (e : Exc) : (s.loosePc c e).mem = s.mem := by
  unfold State.loosePc; split <;> simp
@[simp] theorem loosePc_ports (s : State) (c : CtxId) (e : Exc) : (s.loosePc c e).ports = s.ports := by
  unfold State.loosePc; split <;> simp
@[simp] theorem loosePc_cfg (s : State) (c : CtxId) (e : Exc) : (s.loosePc c e).cfg = s.cfg := by
  unfold State.loosePc; split <;> simp
@[simp] theorem getCr_loosePc (s : State) (c d : CtxId) (e : Exc) (n : CRegNo) :
    (s.loosePc c e).getCr d n = s.getCr d n := by unfold State.loosePc; split <;> simp
theorem getReg_loosePc (s : State) (c d : CtxId) (e : Exc) (i : RegNo) :
    (s.loosePc c e).getReg d i = if e ≠ .timer ∧ d = c ∧ i = regPC then s.freeWord else s.getReg d i := by
  unfold State.loosePc
  by_cases h : e = .timer
  · simp [h]
  · rw [if_neg h, getReg_drawReg]
    by_cases hi : i = regPC
    · subst hi
      have hz : ¬ regPC = 0#4 := by decide
      by_cases hd : d = c <;> simp [hd, h, hz]
    · simp [hi]

@[simp] theorem recordExc_active (s : State) (c : CtxId) (e : Exc) : (s.recordExc c e).active = s.active := by
  unfold State.recordExc; cases excAddr e <;> simp
@[simp] theorem recordExc_mem (s : State) (c : CtxId) (e : Exc) : (s.recordExc c e).mem = s.mem := by
  unfold State.recordExc; cases excAddr e <;> simp
@[simp] theorem recordExc_ports (s : State) (c : CtxId) (e : Exc) : (s.recordExc c e).ports = s.ports := by
  unfold State.recordExc; cases excAddr e <;> simp
@[simp] theorem recordExc_cfg (s : State) (c : CtxId) (e : Exc) : (s.recordExc c e).cfg = s.cfg := by
  unfold State.recordExc; cases excAddr e <;> simp
@[simp] theorem getReg_recordExc (s : State) (c d : CtxId) (e : Exc) (i : RegNo) :
    (s.recordExc c e).getReg d i = s.getReg d i := by unfold State.recordExc; cases excAddr e <;> simp

/-- What the record of an exception does to every control register (R242). -/
theorem getCr_recordExc (s : State) (c d : CtxId) (e : Exc) (n : CRegNo) :
    (s.recordExc c e).getCr d n =
      if n = crExcInfo ∧ Params.home s.cfg d n = Params.home s.cfg c n then excInfo s.cfg.excCodes e
      else if n = crExcAddr ∧ Params.home s.cfg d n = Params.home s.cfg c n then (excAddr e).getD s.freeWord
      else s.getCr d n := by
  have hne : crExcAddr ≠ crExcInfo := by decide
  unfold State.recordExc
  cases h : excAddr e with
  | some a =>
    simp only [getCr_setCr, setCr_cfg, Option.getD_some]
    by_cases h1 : n = crExcAddr
    · subst h1; simp [hne]
    · by_cases h2 : n = crExcInfo
      · subst h2; simp [hne.symm]
      · simp [h1, h2]
  | none =>
    simp only [getCr_drawCr, getCr_setCr, setCr_cfg, Option.getD_none, State.freeWord, setCr_draws]
    by_cases h1 : n = crExcAddr
    · subst h1; simp [hne]
    · by_cases h2 : n = crExcInfo
      · subst h2; simp [hne.symm]
      · simp [h1, h2]

@[simp] theorem takeException_mem (s : State) (c : CtxId) (e : Exc) : (s.takeException c e).mem = s.mem := by
  simp [State.takeException]
@[simp] theorem takeException_ports (s : State) (c : CtxId) (e : Exc) : (s.takeException c e).ports = s.ports := by
  simp [State.takeException]
@[simp] theorem takeException_cfg (s : State) (c : CtxId) (e : Exc) : (s.takeException c e).cfg = s.cfg := by
  simp [State.takeException]
@[simp] theorem takeException_latch (s : State) (c : CtxId) (e : Exc) : (s.takeException c e).latch = {} := rfl
@[simp] theorem takeException_ended (s : State) (c : CtxId) (e : Exc) :
    (s.takeException c e).ended = .exception e := rfl
theorem takeException_active (s : State) (c : CtxId) (e : Exc) :
    (s.takeException c e).active = if s.cfg.excAction = .swap then s.active.other else s.active := by
  simp [State.takeException, deliver_active]

/-- What an exception does to every general register: only `PC` of the executing context, and not for the timer
(R245, R246). -/
theorem getReg_takeException (s : State) (c d : CtxId) (e : Exc) (i : RegNo) :
    (s.takeException c e).getReg d i =
      if e ≠ .timer ∧ d = c ∧ i = regPC then (s.recordExc c e).freeWord else s.getReg d i := by
  simp [State.takeException, getReg_loosePc]

/-- What an exception does to every control register: the record and nothing else (R242, R246). -/
theorem getCr_takeException (s : State) (c d : CtxId) (e : Exc) (n : CRegNo) :
    (s.takeException c e).getCr d n =
      if n = crExcInfo ∧ Params.home s.cfg d n = Params.home s.cfg c n then excInfo s.cfg.excCodes e
      else if n = crExcAddr ∧ Params.home s.cfg d n = Params.home s.cfg c n then (excAddr e).getD s.freeWord
      else s.getCr d n := by
  simp [State.takeException, getCr_recordExc]

/-! ## Completion (R122, R123) -/

@[simp] theorem countUp_active (s : State) (c : CtxId) : (s.countUp c).active = s.active := by simp [State.countUp]
@[simp] theorem countUp_mem (s : State) (c : CtxId) : (s.countUp c).mem = s.mem := by simp [State.countUp]
@[simp] theorem countUp_ports (s : State) (c : CtxId) : (s.countUp c).ports = s.ports := by simp [State.countUp]
@[simp] theorem countUp_cfg (s : State) (c : CtxId) : (s.countUp c).cfg = s.cfg := by simp [State.countUp]
@[simp] theorem countUp_draws (s : State) (c : CtxId) : (s.countUp c).draws = s.draws := by simp [State.countUp]
@[simp] theorem getReg_countUp (s : State) (c d : CtxId) (i : RegNo) :
    (s.countUp c).getReg d i = s.getReg d i := by simp [State.countUp]
theorem getCr_countUp_ne (s : State) (c d : CtxId) {n : CRegNo} (h1 : n ≠ crCountLo) (h2 : n ≠ crCountHi) :
    (s.countUp c).getCr d n = s.getCr d n := by simp [State.countUp, h1, h2]
theorem getCr_countUp_far (s : State) (c d : CtxId) (n : CRegNo)
    (h : Params.home s.cfg d n ≠ Params.home s.cfg c n) : (s.countUp c).getCr d n = s.getCr d n := by
  unfold State.countUp
  simp only [getCr_setCr, setCr_cfg]
  rw [if_neg (by rintro ⟨rfl, h'⟩; exact h h'), if_neg (by rintro ⟨rfl, h'⟩; exact h h')]

/-- The count is one higher modulo 2^32 (R31). -/
theorem insnCount_countUp (s : State) (c : CtxId) : (s.countUp c).insnCount c = s.insnCount c + 1 := by
  have h : crCountLo ≠ crCountHi := by decide
  have glue : ∀ n : BitVec 32, n.extractLsb' 16 16 ++ n.extractLsb' 0 16 = n := by
    intro n
    exact (BitVec.extractLsb'_append_extractLsb'_eq_extractLsb' (w := 32) (x := n) (by omega)).trans (by simp)
  unfold State.countUp
  show State.insnCount _ c = _
  simp only [State.insnCount, getCr_setCr_self, getCr_setCr_ne _ _ _ _ h]
  exact glue _

@[simp] theorem getCr_countUp_timer (s : State) (c d : CtxId) : (s.countUp c).getCr d crTimer = s.getCr d crTimer :=
  getCr_countUp_ne s c d (by decide) (by decide)

/-- The timer after a completion that raises nothing: off stays off, else one less (R123). -/
def timerAfter (t : Word) : Word := if t = 0#16 then 0#16 else t - 1

/-- Completion when the timer does not expire (R122, R123). -/
theorem complete_of_timer {s : State} {c : CtxId} (h : s.getCr c crTimer ≠ 1#16) :
    s.complete c =
      (if s.getCr c crTimer = 0#16 then s.countUp c
        else (s.countUp c).setCr c crTimer (s.getCr c crTimer - 1)).endStep .completed := by
  unfold State.complete
  simp only [getCr_countUp_timer]
  split
  · rfl
  · rw [if_neg]
    intro h'
    exact h (by bv_omega)

/-- Completion when the timer expires (R123, R245). -/
theorem complete_of_timer_one {s : State} {c : CtxId} (h : s.getCr c crTimer = 1#16) :
    s.complete c = ((s.countUp c).setCr c crTimer 0#16).takeException c .timer := by
  unfold State.complete
  simp [h]

theorem complete_active {s : State} {c : CtxId} (h : s.getCr c crTimer ≠ 1#16) : (s.complete c).active = s.active := by
  rw [complete_of_timer h]; split <;> simp
@[simp] theorem complete_mem (s : State) (c : CtxId) : (s.complete c).mem = s.mem := by
  by_cases h : s.getCr c crTimer = 1#16
  · simp [complete_of_timer_one h]
  · rw [complete_of_timer h]; split <;> simp
@[simp] theorem complete_ports (s : State) (c : CtxId) : (s.complete c).ports = s.ports := by
  by_cases h : s.getCr c crTimer = 1#16
  · simp [complete_of_timer_one h]
  · rw [complete_of_timer h]; split <;> simp
@[simp] theorem complete_cfg (s : State) (c : CtxId) : (s.complete c).cfg = s.cfg := by
  by_cases h : s.getCr c crTimer = 1#16
  · simp [complete_of_timer_one h]
  · rw [complete_of_timer h]; split <;> simp
@[simp] theorem complete_latch (s : State) (c : CtxId) : (s.complete c).latch = {} := by
  by_cases h : s.getCr c crTimer = 1#16
  · simp [complete_of_timer_one h]
  · rw [complete_of_timer h, endStep_latch]
theorem complete_ended {s : State} {c : CtxId} (h : s.getCr c crTimer ≠ 1#16) :
    (s.complete c).ended = .completed := by rw [complete_of_timer h, endStep_ended]
@[simp] theorem getReg_complete (s : State) (c d : CtxId) (i : RegNo) : (s.complete c).getReg d i = s.getReg d i := by
  by_cases h : s.getCr c crTimer = 1#16
  · simp [complete_of_timer_one h, getReg_takeException]
  · rw [complete_of_timer h]; split <;> simp

/-- Completion leaves every control register but the count and the timer of the executing context (R122, R123). -/
theorem getCr_complete_ne {s : State} {c : CtxId} (h : s.getCr c crTimer ≠ 1#16) (d : CtxId) {n : CRegNo}
    (h1 : n ≠ crCountLo) (h2 : n ≠ crCountHi) (h3 : n ≠ crTimer) : (s.complete c).getCr d n = s.getCr d n := by
  rw [complete_of_timer h]; split <;> simp [getCr_countUp_ne, h1, h2, h3]

theorem getCr_complete_far {s : State} {c : CtxId} (h : s.getCr c crTimer ≠ 1#16) (d : CtxId) (n : CRegNo)
    (hf : Params.home s.cfg d n ≠ Params.home s.cfg c n) : (s.complete c).getCr d n = s.getCr d n := by
  rw [complete_of_timer h]
  split
  · simp [getCr_countUp_far _ _ _ _ hf]
  · simp only [getCr_endStep, getCr_setCr, countUp_cfg]
    rw [if_neg (by rintro ⟨rfl, h'⟩; exact hf h')]
    exact getCr_countUp_far _ _ _ _ hf

theorem getCr_complete_timer {s : State} {c : CtxId} (h : s.getCr c crTimer ≠ 1#16) :
    (s.complete c).getCr c crTimer = timerAfter (s.getCr c crTimer) := by
  rw [complete_of_timer h, timerAfter]; split <;> simp_all

theorem insnCount_complete {s : State} {c : CtxId} (h : s.getCr c crTimer ≠ 1#16) :
    (s.complete c).insnCount c = s.insnCount c + 1 := by
  have e1 : crCountLo ≠ crTimer := by decide
  have e2 : crCountHi ≠ crTimer := by decide
  rw [complete_of_timer h, ← insnCount_countUp s c]
  split <;> simp [State.insnCount, e1, e2]

/-! ## The cycle around an instruction (R110) -/

/-- Everything that `runInsn` can do. -/
theorem runInsn_cases (sh : Shape) (cond : BitVec 3) (body : Bool → State → Effect) (s : State) :
    ((s.deniesCross = true ∨ s.deniesOpcode sh.op = true) ∧
        runInsn sh cond body s = .next (s.takeException s.active .deniedInsn)) ∨
    (s.deniesCross = false ∧ s.deniesOpcode sh.op = false ∧ s.latch.extraDr = true ∧
        runInsn sh cond body s = .refused (.thirdDr s)) ∨
    (s.deniesCross = false ∧ s.deniesOpcode sh.op = false ∧ s.latch.extraDr = false ∧ sh.allows s.latch = false ∧
        runInsn sh cond body s = .refused (.prefixWithoutOperand s)) ∨
    (s.deniesCross = false ∧ s.deniesOpcode sh.op = false ∧ s.latch.extraDr = false ∧ sh.allows s.latch = true ∧
        s.condOn cond = true ∧ runInsn sh cond body s = finish s.active (body (s.writeBack cond) s)) ∨
    (s.deniesCross = false ∧ s.deniesOpcode sh.op = false ∧ s.latch.extraDr = false ∧ sh.allows s.latch = true ∧
        s.condOn cond = false ∧ runInsn sh cond body s = .next (s.complete s.active)) := by
  unfold runInsn
  cases h1 : s.deniesCross <;> cases h2 : s.deniesOpcode sh.op <;> cases h3 : s.latch.extraDr <;>
    cases h4 : sh.allows s.latch <;> cases h5 : s.condOn cond <;> simp

/-- An instruction that nothing denies, whose prefixes fit and whose condition holds, does what its rule says. -/
theorem runInsn_runs {sh : Shape} {cond : BitVec 3} {s : State} (body : Bool → State → Effect)
    (h1 : s.deniesCross = false) (h2 : s.deniesOpcode sh.op = false) (h3 : s.latch.extraDr = false)
    (h4 : sh.allows s.latch = true) (h5 : s.condOn cond = true) :
    runInsn sh cond body s = finish s.active (body (s.writeBack cond) s) := by
  simp [runInsn, h1, h2, h3, h4, h5]

end Sys2Proof.Machine
end

