-- ==== Sys2Proof/Laws/Claims.lean ====
section
/-! SUPPORT. From the machine's own terms to the terms of the claims: an instruction that is `Ready` is run by
`runInsn`, and each way its effect ends gives `Completes` or `Raises`. -/

namespace Sys2Proof.Machine

/-! ## `Ready` and the checks of `runInsn` -/

theorem xregsDenied_iff (s : State) : s.xregsDenied ↔ s.deniesCross = true := by
  simp [State.xregsDenied, State.deniesCross, denyXregsOf, State.flags, crFlags, or_assoc]

theorem opcodeDenied_iff (s : State) (op : BitVec 5) : s.opcodeDenied op.toNat ↔ s.deniesOpcode op = true := by
  unfold State.opcodeDenied State.deniesOpcode
  split <;> rfl

theorem prefixesFit_iff (l : Latch) (sh : Shape) (n : Nat) (c : BitVec 3) :
    prefixesFit l { op := n, cond := c, rx := sh.rx, ry := sh.ry, rd := sh.rd, rdx := sh.rdx } ↔
      l.extraDr = false ∧ sh.allows l = true := by
  unfold prefixesFit Shape.allows
  cases l.xx <;> cases l.xy <;> cases l.xz <;> cases l.rd <;> cases l.rdx <;> simp <;> tauto

/-- The row of the opcode map and the operand table that an operand shape stands for. -/
def Shape.row (sh : Shape) (c : BitVec 3) : OpcodeRow :=
  { op := sh.op.toNat, cond := c, rx := sh.rx, ry := sh.ry, rd := sh.rd, rdx := sh.rdx }

/-- An instruction of this shape that is ready does what its rule says. -/
theorem runInsn_of_ready {i : Instr} {sh : Shape} {cond : BitVec 3} {s : State} (body : Bool → State → Effect)
    (hrow : opcodeRow i = some (sh.row cond)) (h : Ready i s) :
    runInsn sh cond body s = finish s.active (body (s.writeBack cond) s) := by
  obtain ⟨r, hr, h1, h2, h3, h4⟩ := h
  rw [hrow] at hr
  obtain rfl := Option.some.inj hr
  rw [xregsDenied_iff, Bool.not_eq_true] at h1
  rw [Shape.row, opcodeDenied_iff, Bool.not_eq_true] at h2
  obtain ⟨h5, h6⟩ := (prefixesFit_iff s.latch sh _ _).1 h3
  exact runInsn_runs body h1 h2 h5 h6 h4

/-- A denied instruction raises `EXC_DENIED_INSN` (R115, R116). -/
theorem runInsn_of_denied {sh : Shape} {cond : BitVec 3} {s : State} (body : Bool → State → Effect)
    (h : s.xregsDenied ∨ s.opcodeDenied sh.op.toNat) :
    runInsn sh cond body s = .next (s.takeException s.active .deniedInsn) := by
  rw [xregsDenied_iff, opcodeDenied_iff] at h
  unfold runInsn
  rw [if_pos (by simpa using h)]

/-- A prefix without an operand to modify is refused (R114). -/
theorem runInsn_of_misfit {sh : Shape} {cond : BitVec 3} {s : State} (body : Bool → State → Effect)
    (h1 : ¬ s.xregsDenied) (h2 : ¬ s.opcodeDenied sh.op.toNat) (h3 : ¬ prefixesFit s.latch (sh.row cond)) :
    runInsn sh cond body s = .refused (if s.latch.extraDr then .thirdDr s else .prefixWithoutOperand s) := by
  rw [xregsDenied_iff, Bool.not_eq_true] at h1
  rw [opcodeDenied_iff, Bool.not_eq_true] at h2
  rw [Shape.row, prefixesFit_iff] at h3
  unfold runInsn
  rw [if_neg (by simp [h1, h2])]
  cases h4 : s.latch.extraDr with
  | true => simp
  | false =>
    have h5 : sh.allows s.latch = false := by simpa [h4] using h3
    simp [h5]

/-- A false condition only completes (R119). -/
theorem runInsn_of_false {sh : Shape} {cond : BitVec 3} {s : State} (body : Bool → State → Effect)
    (h1 : ¬ s.xregsDenied) (h2 : ¬ s.opcodeDenied sh.op.toNat) (h3 : prefixesFit s.latch (sh.row cond))
    (h4 : s.condOn cond = false) : runInsn sh cond body s = .next (s.complete s.active) := by
  rw [xregsDenied_iff, Bool.not_eq_true] at h1
  rw [opcodeDenied_iff, Bool.not_eq_true] at h2
  obtain ⟨h5, h6⟩ := (prefixesFit_iff s.latch sh _ _).1 h3
  unfold runInsn
  rw [if_neg (by simp [h1, h2]), if_neg (by simp [h5]), if_neg (by simp [h6]), if_neg (by simp [h4])]

/-- Each opcode constructor is run by `runInsn` with the shape of its row; a prefix constructor has no row. -/
theorem exec_shape {i : Instr} {r : OpcodeRow} (h : opcodeRow i = some r) :
    ∃ sh body, r = Shape.row sh r.cond ∧ ∀ s, exec i s = runInsn sh r.cond body s := by
  cases i <;> cases h
  case add c x v => exact ⟨_, _, rfl, fun _ => rfl⟩
  case sub c x v => exact ⟨_, _, rfl, fun _ => rfl⟩
  case mlu c x v => exact ⟨_, _, rfl, fun _ => rfl⟩
  case mls c x v => exact ⟨_, _, rfl, fun _ => rfl⟩
  case dvu c x v => exact ⟨_, _, rfl, fun _ => rfl⟩
  case dvs c x v => exact ⟨_, _, rfl, fun _ => rfl⟩
  all_goals exact ⟨_, _, rfl, fun _ => rfl⟩

/-! ## Write-back and the results in the manual's words -/

theorem writeBack_iff (s : State) (cond : BitVec 3) : s.writeBack cond = true ↔ s.writesFlags cond := by
  unfold State.writeBack State.writesFlags
  cases s.latch.tf <;> cases s.latch.xc <;> simp

theorem parity_eq_oddOnes {n : Nat} (v : BitVec n) : parity v = oddOnes v := by
  have key : ∀ (l : List Nat) (acc : Bool),
      l.foldl (fun acc i => acc ^^ v.getLsbD i) acc =
        (acc ^^ decide (l.countP (fun i => v.getLsbD i) % 2 = 1)) := by
    intro l
    induction l with
    | nil => simp
    | cons i l ih =>
      intro acc
      rw [List.foldl_cons, ih, List.countP_cons]
      rcases Nat.mod_two_eq_zero_or_one (l.countP fun i => v.getLsbD i) with h | h <;>
        cases acc <;> cases v.getLsbD i <;> simp [h, Nat.add_mod]
  unfold parity oddOnes
  rw [key]
  simp

theorem zsp_eq_resultFlags {n : Nat} (v : BitVec (n + 1)) : zsp v = resultFlags v := by
  have hz : (v == 0#(n + 1)) = decide (v.toNat = 0) := by
    by_cases h : v = 0#(n + 1)
    · simp [h]
    · have : v.toNat ≠ 0 := fun h' => h (BitVec.eq_of_toNat_eq (by simpa using h'))
      simp [h, this]
  simp only [zsp, resultFlags, parity_eq_oddOnes, hz, BitVec.msb_eq_decide]
  have hs : decide (2 ^ (n + 1 - 1) ≤ v.toNat) = decide (2 ^ (n + 1) ≤ 2 * v.toNat) := by
    rw [decide_eq_decide, Nat.add_sub_cancel, Nat.pow_succ]
    omega
  rw [hs]

/-! ## Completion -/

theorem home_eq_iff (s : State) (d : CtxId) (n : CRegNo) :
    Params.home s.cfg d n = Params.home s.cfg s.active n ↔ s.sameCreg d n := by
  unfold Params.home State.sameCreg
  cases s.cfg.sharedCregs.getLsbD n.toNat <;> simp

/-- Two contexts read the same control register where they share it. -/
theorem getCr_of_same {s t : State} {d : CtxId} {n : CRegNo} (hcfg : t.cfg = s.cfg) (h : s.sameCreg d n) :
    t.getCr d n = t.getCr s.active n := by
  unfold State.getCr
  rw [hcfg, (home_eq_iff s d n).2 h]

/-- Completion touches no control register but the count and the timer of the executing context. -/
theorem complete_cregsKept {u : State} (ht : u.getCr u.active 13#4 ≠ 1#16) :
    CregsKept u (u.complete u.active) [4#4, 5#4, 13#4] := by
  intro d n h
  by_cases hs : u.sameCreg d n
  · exact getCr_complete_ne ht d (fun e => h ⟨by simp [e, crCountLo], hs⟩) (fun e => h ⟨by simp [e, crCountHi], hs⟩)
      (fun e => h ⟨by simp [e, crTimer], hs⟩)
  · exact getCr_complete_far ht d n (fun e => hs ((home_eq_iff u d n).1 e))

/-- An effect that wrote `regs` and `flags` and no other control register, then completed: `Completes`. -/
theorem completes_of_complete {s u : State} {cond : BitVec 3} {regs : CtxId → RegNo → Option Word} {flags : FlagWrite}
    (hcfg : u.cfg = s.cfg) (hregs : RegsAfter s u regs) (hflags : FlagsAfter s u cond flags)
    (hcr : CregsKept s u [15#4]) (ht : s.getCr s.active 13#4 ≠ 1#16) :
    Completes s (u.complete s.active) cond regs flags := by
  have keep : ∀ {n : CRegNo}, n ≠ 15#4 → ∀ d, u.getCr d n = s.getCr d n := fun h d => hcr d _ (by simp [h])
  have ht' : u.getCr s.active crTimer ≠ 1#16 := by
    rw [show crTimer = (13#4 : CRegNo) from rfl, keep (by decide)]; exact ht
  refine ⟨fun c i => by rw [getReg_complete]; exact hregs c i, ?_, ?_, ⟨?_, ?_⟩, ⟨?_, ?_, ?_⟩⟩
  · have : (u.complete s.active).getCr s.active 15#4 = u.getCr s.active 15#4 :=
      getCr_complete_ne ht' _ (by decide) (by decide) (by decide)
    unfold FlagsAfter at *
    rw [this]; exact hflags
  · intro d n h
    by_cases hs : s.sameCreg d n
    · have h4 : n ≠ crCountLo := fun e => h ⟨by simp [e, crCountLo], hs⟩
      have h5 : n ≠ crCountHi := fun e => h ⟨by simp [e, crCountHi], hs⟩
      have h13 : n ≠ crTimer := fun e => h ⟨by simp [e, crTimer], hs⟩
      have h15 : n ≠ 15#4 := fun e => h ⟨by simp [e], hs⟩
      rw [getCr_complete_ne ht' d h4 h5 h13, keep h15]
    · have hf : Params.home u.cfg d n ≠ Params.home u.cfg s.active n := by
        rw [hcfg]; exact fun e => hs ((home_eq_iff s d n).1 e)
      rw [getCr_complete_far ht' d n hf]
      exact hcr d n (fun e => hs e.2)
  · rw [insnCount_complete ht', State.insnCount, State.insnCount]
    rw [show crCountHi = (5#4 : CRegNo) from rfl, show crCountLo = (4#4 : CRegNo) from rfl, keep (by decide),
      keep (by decide)]
  · rw [show (13#4 : CRegNo) = crTimer from rfl, getCr_complete_timer ht', timerAfter,
      show crTimer = (13#4 : CRegNo) from rfl, keep (by decide)]
    rfl
  · exact complete_ended ht'
  · exact complete_latch _ _
  · rw [complete_cfg, hcfg]

/-- The write-back of a register-only effect, in the terms of the claims. -/
theorem flagsAfter_writeFlags {s u : State} (cond : BitVec 3) (w : FlagWrite)
    (h : u.getCr s.active 15#4 = s.getCr s.active 15#4) :
    FlagsAfter s (u.writeFlags s.active (s.writeBack cond) w) cond w := by
  have e : (u.writeFlags s.active (s.writeBack cond) w).getCr s.active 15#4 =
      if s.writeBack cond then putFlags (s.getCr s.active 15#4) w else s.getCr s.active 15#4 := by
    rw [← h]; exact flags_writeFlags_self u s.active _ w
  constructor
  · intro hw
    rw [← writeBack_iff] at hw
    rw [e, if_pos hw]
    exact ⟨putFlags_zf _ _, putFlags_sf _ _, putFlags_pf _ _, putFlags_cf _ _, putFlags_vf _ _,
      fun j hj => putFlags_high _ _ hj⟩
  · intro hw
    rw [← writeBack_iff] at hw
    rw [e, if_neg hw]

/-- No flag listed: `FLAGS` as before. -/
theorem flagsAfter_same {s u : State} (cond : BitVec 3) (h : u.getCr s.active 15#4 = s.getCr s.active 15#4) :
    FlagsAfter s u cond {} := by
  constructor
  · intro _; rw [h]; exact ⟨rfl, rfl, rfl, rfl, rfl, fun _ _ => rfl⟩
  · intro _; exact h

/-- Only the flags of the executing context were written. -/
theorem cregsKept_writeFlags {s u : State} (wf : Bool) (w : FlagWrite) (hcfg : u.cfg = s.cfg)
    (h : ∀ d n, u.getCr d n = s.getCr d n) : CregsKept s (u.writeFlags s.active wf w) [15#4] := by
  intro d n hn
  by_cases h15 : n = crFlags
  · subst h15
    rw [getCr_writeFlags_flags, if_neg, h]
    rintro ⟨-, hh⟩
    rw [hcfg] at hh
    exact hn ⟨by simp [crFlags], (home_eq_iff s d _).1 hh⟩
  · rw [getCr_writeFlags_ne _ _ _ _ _ h15, h]

theorem regsAfter_refl (s : State) : RegsAfter s s noReg := by
  intro c i
  by_cases h : i = 0#4
  · subst h; simp
  · simp [noReg, h]

/-- A register operand written. -/
theorem regsAfter_setRef (s : State) (r : RegRef) (v : Word) : RegsAfter s (s.setRef r v) (oneReg r v) := by
  intro c i
  unfold State.setRef oneReg
  rw [getReg_setReg]
  by_cases h : i = 0#4
  · subst h; simp
  · by_cases hr : c = r.bank ∧ i = r.num
    · rw [if_pos ⟨hr.1, hr.2, h⟩, if_neg h, if_pos hr]; rfl
    · rw [if_neg (fun e => hr ⟨e.1, e.2.1⟩), if_neg h, if_neg hr]; rfl

/-- A register operand takes a free value. -/
theorem regsAfter_drawRef (s : State) (r : RegRef) : RegsAfter s (s.drawRef r) (oneReg r s.freeWord) := by
  intro c i
  rw [State.drawRef, getReg_drawReg, oneReg]
  by_cases h0 : i = 0#4
  · subst h0; simp
  · by_cases h : c = r.bank ∧ i = r.num
    · rw [if_pos ⟨h.1, h.2, h0⟩, if_neg h0, if_pos h]; rfl
    · rw [if_neg (fun e => h ⟨e.1, e.2.1⟩), if_neg h0, if_neg h]; rfl

/-- The registers of a state with the same general registers. -/
theorem regsAfter_congr {s t u : State} {w : CtxId → RegNo → Option Word} (h : RegsAfter s t w)
    (e : ∀ c i, u.getReg c i = t.getReg c i) : RegsAfter s u w := fun c i => by rw [e, h c i]

/-- Completion keeps what `Stays` says. -/
theorem stays_complete {s u : State} (ht : u.getCr s.active 13#4 ≠ 1#16) (h : Stays s u) :
    Stays s (u.complete s.active) := by
  refine ⟨fun a => by rw [complete_mem]; exact h.mem a, by rw [complete_ports]; exact h.ports, ?_⟩
  rw [complete_active ht]; exact h.active

/-- A register-writing effect with its write-back, run to completion. -/
theorem computes_of_done {i : Instr} {s u : State} {cond : BitVec 3} {regs : CtxId → RegNo → Option Word}
    {w : FlagWrite}
    (hexec : exec i s = finish s.active (.done (u.writeFlags s.active (s.writeBack cond) w)))
    (hregs : RegsAfter s u regs) (hcr : ∀ d n, u.getCr d n = s.getCr d n) (hcfg : u.cfg = s.cfg)
    (hmem : u.mem = s.mem) (hports : u.ports = s.ports) (hact : u.active = s.active)
    (ht : s.getCr s.active 13#4 ≠ 1#16) : Computes i s cond regs w := by
  refine ⟨_, hexec, ?_, ?_⟩
  · exact completes_of_complete (by simp [hcfg]) (regsAfter_congr hregs (by simp))
      (flagsAfter_writeFlags cond w (hcr _ _)) (cregsKept_writeFlags _ w hcfg hcr) ht
  · refine stays_complete ?_ ⟨fun a => by simp [hmem], by simp [hports], by simp [hact]⟩
    rw [getCr_writeFlags_ne _ _ _ _ _ (by decide), hcr]; exact ht

/-- An effect that lists no flag, run to completion. -/
theorem computes_of_done_noflags {i : Instr} {s u : State} {cond : BitVec 3} {regs : CtxId → RegNo → Option Word}
    (hexec : exec i s = finish s.active (.done u))
    (hregs : RegsAfter s u regs) (hcr : ∀ d n, u.getCr d n = s.getCr d n) (hcfg : u.cfg = s.cfg)
    (hmem : u.mem = s.mem) (hports : u.ports = s.ports) (hact : u.active = s.active)
    (ht : s.getCr s.active 13#4 ≠ 1#16) : Computes i s cond regs {} := by
  refine ⟨_, hexec, ?_, ?_⟩
  · exact completes_of_complete hcfg hregs (flagsAfter_same cond (hcr _ _)) (fun d n _ => hcr d n) ht
  · exact stays_complete (by rw [hcr]; exact ht) ⟨fun a => by rw [hmem], hports, hact⟩

/-- One register operand and flags written, run to completion. -/
theorem computes_oneReg {i : Instr} {s : State} {cond : BitVec 3} {r : RegRef} {v : Word} {w : FlagWrite}
    (hexec : exec i s = finish s.active (.done ((s.setRef r v).writeFlags s.active (s.writeBack cond) w)))
    (ht : s.getCr s.active 13#4 ≠ 1#16) : Computes i s cond (oneReg r v) w :=
  computes_of_done hexec (regsAfter_setRef s r v) (by simp [State.setRef]) (by simp [State.setRef])
    (by simp [State.setRef]) (by simp [State.setRef]) (by simp [State.setRef]) ht

/-- Two register operands with different numbers and flags written, run to completion. -/
theorem computes_twoRegs {i : Instr} {s : State} {cond : BitVec 3} {r q : RegRef} {v u : Word} {w : FlagWrite}
    (hexec : exec i s =
      finish s.active (.done (((s.setRef r v).setRef q u).writeFlags s.active (s.writeBack cond) w)))
    (ht : s.getCr s.active 13#4 ≠ 1#16) : Computes i s cond (twoRegs r v q u) w := by
  refine computes_of_done hexec ?_ (by simp [State.setRef]) (by simp [State.setRef])
    (by simp [State.setRef]) (by simp [State.setRef]) (by simp [State.setRef]) ht
  intro c i
  have h1 := regsAfter_setRef s r v c i
  have h2 := regsAfter_setRef (s.setRef r v) q u c i
  rw [h2, twoRegs]
  by_cases h : i = 0#4
  · rw [if_pos h, if_pos h]
  · rw [if_neg h] at h1
    rw [if_neg h, if_neg h, h1]
    unfold oneReg
    split <;> rfl

/-! ## Reserved bits (R46) -/

theorem extract_eq_zero_iff {lo n : Nat} (v : Word) : v.extractLsb' lo n = 0#n ↔ ∀ j, j < n → v.getLsbD (lo + j) = false := by
  constructor
  · intro h j hj
    have := congrArg (fun w => w.getLsbD j) h
    simpa [hj] using this
  · intro h
    apply BitVec.eq_of_getLsbD_eq
    intro j hj
    rw [BitVec.getLsbD_extractLsb', h j hj]
    simp

theorem and_mask_eq_zero_iff (v m : Word) : v &&& m = 0#16 ↔ ∀ j, j < 16 → m.getLsbD j = true → v.getLsbD j = false := by
  constructor
  · intro h j hj hm
    have : (v &&& m).getLsbD j = (0#16).getLsbD j := by rw [h]
    rw [BitVec.getLsbD_and, hm, Bool.and_true] at this
    rw [this]; simp
  · intro h
    apply BitVec.eq_of_getLsbD_eq
    intro j hj
    rw [BitVec.getLsbD_and]
    cases hm : m.getLsbD j with
    | false => simp
    | true => rw [h j hj hm]; simp

theorem mask_iff (v : Word) (m : Word) (lo n : Nat) (hm : ∀ j, j < 16 → (m.getLsbD j = true ↔ lo ≤ j ∧ j < lo + n))
    (hn : lo + n ≤ 16) : v.extractLsb' lo n = 0#n ↔ v &&& m = 0#16 := by
  rw [extract_eq_zero_iff, and_mask_eq_zero_iff]
  constructor
  · intro h j hj hj'
    have := (hm j hj).1 hj'
    rw [show j = lo + (j - lo) by omega]
    exact h _ (by omega)
  · intro h j hj
    exact h _ (by omega) ((hm _ (by omega)).2 (by omega))

theorem reservedOk_iff (n : CRegNo) (v : Word) : reservedOk n v ↔ setsReserved n v = false := by
  have e1 := mask_iff v 0xFFC0#16 6 10 (by decide) (by decide)
  have e2 := mask_iff v 0x3FF0#16 4 10 (by decide) (by decide)
  have e3 := mask_iff v 0x00FE#16 1 7 (by decide) (by decide)
  unfold reservedOk setsReserved
  rw [e1, e2, e3]
  simp only [crFlags, crExcInfo, crMembaseR, crMembaseW, crMembaseX]
  by_cases h1 : n = 15#4
  · subst h1; simp
  · by_cases h2 : n = 11#4
    · subst h2; simp
    · by_cases h3 : n = 8#4 ∨ n = 9#4 ∨ n = 10#4
      · simp [h1, h2, h3]
      · simp [h1, h2, h3]
/-! ## Exceptions -/

theorem infoRecords_excInfo (codes : ExcCodes) (e : Exc) : InfoRecords (excInfo codes e) codes e := by
  have h1 : excCode codes e = (excFields codes e).1 := by cases e <;> rfl
  have h2 : excMode e = (excFields codes e).2 := by
    cases e with
    | deniedCreg | deniedInsn | timer => rfl
    | mmu m a | bus m a | unaligned m a => cases m <;> rfl
  rw [InfoRecords, ← h1, ← h2, excInfo]
  generalize excMode e = m
  generalize excCode codes e = c
  revert m c
  decide

/-- Taking an exception in the terms of the claims (R243). `u` is the state in which it is raised. -/
theorem raises_takeException {s u : State} {e : Exc} {loose : CtxId → RegNo → Prop} (hcfg : u.cfg = s.cfg)
    (hcr : ∀ d n, u.getCr d n = s.getCr d n) (hact : u.active = s.active) (hmem : u.mem = s.mem)
    (hports : u.ports = s.ports) (hregs : ∀ c i, ¬ loose c i → u.getReg c i = s.getReg c i)
    (hpc : e ≠ .timer → loose s.active 14#4) : Raises s (u.takeException s.active e) e loose where
  info := by
    rw [show (11#4 : CRegNo) = crExcInfo from rfl, getCr_takeException, if_pos ⟨rfl, rfl⟩, hcfg]
    exact infoRecords_excInfo _ _
  addr := by
    have : crExcAddr ≠ crExcInfo := by decide
    rw [show (12#4 : CRegNo) = crExcAddr from rfl, getCr_takeException, if_neg (by simp [this]), if_pos ⟨rfl, rfl⟩]
    cases e <;> simp [AddrRecords, excAddr]
  cregs := by
    intro d n h
    rw [getCr_takeException, if_neg, if_neg, hcr]
    · rintro ⟨rfl, hh⟩
      rw [hcfg] at hh
      exact h ⟨by simp [crExcAddr], (home_eq_iff s d _).1 hh⟩
    · rintro ⟨rfl, hh⟩
      rw [hcfg] at hh
      exact h ⟨by simp [crExcInfo], (home_eq_iff s d _).1 hh⟩
  regs := by
    intro c i h
    rw [getReg_takeException, if_neg, hregs c i h]
    rintro ⟨h1, rfl, rfl⟩
    exact h (hpc h1)
  mem := fun a => by rw [takeException_mem, hmem]
  ports := by rw [takeException_ports, hports]
  active := by rw [takeException_active, activeAfterExc, hcfg, hact]
  ended := ⟨rfl, rfl, by rw [takeException_cfg, hcfg]⟩

end Sys2Proof.Machine
end

