-- ==== Sys2Proof/Laws/Arith.lean ====
section
/-! SUPPORT. The results and flags that the machine computes, in the manual's words. -/

namespace Sys2Proof.Machine

/-! ## Sums and differences -/

theorem sum17_toNat (a b : Word) (c : BitVec 17) (hc : c.toNat ≤ 1) :
    (sum17 a b c).toNat = a.toNat + b.toNat + c.toNat := by
  have := a.isLt
  have := b.isLt
  simp only [sum17, BitVec.toNat_add, BitVec.toNat_setWidth]
  omega

theorem sum17_low (a b : Word) (c : BitVec 17) (hc : c.toNat ≤ 1) :
    ((sum17 a b c).setWidth 16).toNat = (a.toNat + b.toNat + c.toNat) % 65536 := by
  rw [BitVec.toNat_setWidth, sum17_toNat a b c hc]

theorem sum17_carry (a b : Word) (c : BitVec 17) (hc : c.toNat ≤ 1) :
    (sum17 a b c).getLsbD 16 = decide (65536 ≤ a.toNat + b.toNat + c.toNat) := by
  have := a.isLt
  have := b.isLt
  rw [BitVec.getLsbD, sum17_toNat a b c hc, Nat.testBit_eq_decide_div_mod_eq, decide_eq_decide]
  omega

theorem msb_decide (a : Word) : a.msb = decide (32768 ≤ a.toNat) := by rw [BitVec.msb_eq_decide]

theorem toInt_cases (a : Word) :
    (a.toNat < 32768 ∧ a.toInt = a.toNat) ∨ (32768 ≤ a.toNat ∧ a.toInt = (a.toNat : Int) - 65536) := by
  have := a.isLt
  rw [BitVec.toInt_eq_toNat_cond]
  split <;> omega

/-- Two's complement: the signed value is in range, and is the unsigned one or 2^16 less. -/
theorem signedOverflow_sum (a b r : Word) (hr : r.toNat = (a.toNat + b.toNat) % 65536) :
    (a.msb == b.msb && r.msb != a.msb) = signedOverflow (a.toInt + b.toInt) := by
  have := a.isLt
  have := b.isLt
  have ha := toInt_cases a
  have hb := toInt_cases b
  rw [Bool.eq_iff_iff]
  simp only [signedOverflow, msb_decide, Bool.and_eq_true, beq_iff_eq, bne_iff_ne, ne_eq, decide_eq_decide,
    decide_eq_true_eq]
  omega

theorem signedOverflow_diff (a b r : Word) (hr : r.toNat = (a.toNat + (65536 - b.toNat)) % 65536) :
    (a.msb != b.msb && r.msb != a.msb) = signedOverflow (a.toInt - b.toInt) := by
  have := a.isLt
  have := b.isLt
  have ha := toInt_cases a
  have hb := toInt_cases b
  rw [Bool.eq_iff_iff]
  simp only [signedOverflow, msb_decide, Bool.and_eq_true, bne_iff_ne, ne_eq, decide_eq_decide,
    decide_eq_true_eq]
  omega

theorem addResult_value (a b : Word) : (addResult a b).value = a + b := by
  apply BitVec.eq_of_toNat_eq
  rw [addResult, sum17_low a b 0 (by decide), BitVec.toNat_add]
  rfl

theorem addResult_flags (a b : Word) : (addResult a b).flags = sumFlags a b := by
  have hv : (sum17 a b 0).setWidth 16 = a + b := addResult_value a b
  have hz : zsp (a + b) = resultFlags (a + b) := zsp_eq_resultFlags (n := 15) _
  have hc := sum17_carry a b 0 (by decide)
  have ho := signedOverflow_sum a b (a + b) (BitVec.toNat_add a b)
  simp only [addResult, hv, hc, ho, hz, sumFlags]
  rfl

theorem subResult_value (a b : Word) : (subResult a b).value = a - b := by
  apply BitVec.eq_of_toNat_eq
  have := b.isLt
  rw [subResult, sum17_low a _ 1 (by decide), BitVec.toNat_sub, BitVec.toNat_not]
  show (a.toNat + (65536 - 1 - b.toNat) + 1) % 65536 = (65536 - b.toNat + a.toNat) % 65536
  congr 1
  omega

theorem subResult_flags (a b : Word) : (subResult a b).flags = diffFlags a b := by
  have hb := b.isLt
  have hv : (sum17 a (~~~b) 1).setWidth 16 = a - b := subResult_value a b
  have hz : zsp (a - b) = resultFlags (a - b) := zsp_eq_resultFlags (n := 15) _
  have hc : (sum17 a (~~~b) 1).getLsbD 16 = decide (b.toNat ≤ a.toNat) := by
    rw [sum17_carry a _ 1 (by decide), BitVec.toNat_not, decide_eq_decide]
    show 65536 ≤ a.toNat + (65536 - 1 - b.toNat) + 1 ↔ _
    omega
  have ho := signedOverflow_diff a b (a - b) (by rw [BitVec.toNat_sub, Nat.add_comm])
  simp only [subResult, hv, hc, ho, hz, diffFlags]

theorem simm4_eq (k : BitVec 4) : simm4 k = BitVec.ofInt 16 (simm4Value k) := by
  revert k; decide

theorem plainResult_flags (r : Word) : (plainResult r).flags = resultFlags r := zsp_eq_resultFlags (n := 15) r
theorem plainResult_value (r : Word) : (plainResult r).value = r := rfl
theorem okResult_flags (r : Word) : (okResult r).flags = { resultFlags r with c := some false } := by
  rw [← zsp_eq_resultFlags (n := 15)]; rfl

/-! ## Shifts -/

theorem shlResult_value (a : Word) (n : Nat) : (shlResult a n).value = BitVec.ofNat 16 (a.toNat * 2 ^ n) := by
  apply BitVec.eq_of_toNat_eq
  simp [shlResult, Nat.shiftLeft_eq]

theorem shlResult_flags (a : Word) (n : Nat) :
    (shlResult a n).flags =
      { resultFlags (BitVec.ofNat 16 (a.toNat * 2 ^ n)) with c := some ((a.toNat * 2 ^ n).testBit 16) } := by
  have hv := shlResult_value a n
  have hz : zsp (shlResult a n).value = resultFlags (shlResult a n).value := zsp_eq_resultFlags (n := 15) _
  have hc : (a.setWidth 17 <<< n).getLsbD 16 = (a.toNat * 2 ^ n).testBit 16 := by
    rw [BitVec.getLsbD, BitVec.toNat_shiftLeft, BitVec.toNat_setWidth_of_le (by decide), Nat.shiftLeft_eq,
      Nat.testBit_mod_two_pow]
    simp
  rw [← hv, ← hz, ← hc]
  rfl

theorem sruResult_value (a : Word) (n : Nat) : (sruResult a n).value = BitVec.ofNat 16 (a.toNat / 2 ^ n) := by
  apply BitVec.eq_of_toNat_eq
  have := a.isLt
  have : a.toNat / 2 ^ n ≤ a.toNat := Nat.div_le_self _ _
  simp only [sruResult, BitVec.toNat_ushiftRight, Nat.shiftRight_eq_div_pow, BitVec.toNat_ofNat]
  rw [Nat.mod_eq_of_lt (by omega)]

theorem sruResult_flags (a : Word) (n : Nat) :
    (sruResult a n).flags = { resultFlags (sruResult a n).value with c := some (Config.shrCf false a n) } := by
  rw [← zsp_eq_resultFlags (n := 15)]; rfl

theorem srsResult_value (a : Word) (n : Nat) : (srsResult a n).value = BitVec.ofInt 16 (a.toInt / 2 ^ n) := by
  apply BitVec.eq_of_toInt_eq
  simp only [srsResult, BitVec.toInt_sshiftRight, Int.shiftRight_eq_div_pow]
  rw [BitVec.toInt_ofInt, Int.bmod_eq_of_le]
  all_goals
    have h0 := toInt_cases a
    have h1 : -32768 ≤ a.toInt := by omega
    have h2 : a.toInt < 32768 := by have := a.isLt; omega
    have hp : (1 : Int) ≤ 2 ^ n := by exact_mod_cast Nat.one_le_two_pow
    have l1 : -32768 ≤ a.toInt / 2 ^ n := by
      rw [Int.le_ediv_iff_mul_le (by omega)]
      nlinarith
    have l2 : a.toInt / 2 ^ n < 32768 := by
      rw [Int.ediv_lt_iff_lt_mul (by omega)]
      nlinarith
    simp [l1, l2]

theorem srsResult_flags (a : Word) (n : Nat) :
    (srsResult a n).flags = { resultFlags (srsResult a n).value with c := some (Config.shrCf true a n) } := by
  rw [← zsp_eq_resultFlags (n := 15)]; rfl

/-! ## Products and quotients -/

theorem mulResult_unsigned (table : List (Bool × Word × Word)) (a b : Word) :
    mulResult table false a b =
      { rd := (BitVec.ofNat 32 (a.toNat * b.toNat)).extractLsb' 0 16
        rdx := (BitVec.ofNat 32 (a.toNat * b.toNat)).extractLsb' 16 16
        flags := { resultFlags (BitVec.ofNat 32 (a.toNat * b.toNat)) with
          c := some ((BitVec.ofNat 32 (a.toNat * b.toNat)).getLsbD 16 != table.contains (false, a, b))
          v := some (Config.mulVf false a b) } } := by
  have hp : a.setWidth 32 * b.setWidth 32 = BitVec.ofNat 32 (a.toNat * b.toNat) := by
    apply BitVec.eq_of_toNat_eq
    simp [BitVec.toNat_mul]
  rw [← zsp_eq_resultFlags (n := 31), ← hp]
  rfl

theorem mulResult_signed (table : List (Bool × Word × Word)) (a b : Word) :
    mulResult table true a b =
      { rd := (BitVec.ofInt 32 (a.toInt * b.toInt)).extractLsb' 0 16
        rdx := (BitVec.ofInt 32 (a.toInt * b.toInt)).extractLsb' 16 16
        flags := { resultFlags (BitVec.ofInt 32 (a.toInt * b.toInt)) with
          c := some ((BitVec.ofInt 32 (a.toInt * b.toInt)).getLsbD 16 != table.contains (true, a, b))
          v := some (Config.mulVf true a b) } } := by
  have hp : a.signExtend 32 * b.signExtend 32 = BitVec.ofInt 32 (a.toInt * b.toInt) := by
    apply BitVec.eq_of_toInt_eq
    rw [BitVec.toInt_mul, BitVec.toInt_signExtend_of_le (by decide), BitVec.toInt_signExtend_of_le (by decide),
      BitVec.toInt_ofInt]
  rw [← zsp_eq_resultFlags (n := 31), ← hp]
  rfl

theorem dvuResult_of {a b : Word} {q m : Nat} (h : a.toNat = q * b.toNat + m) (hm : m < b.toNat) :
    dvuResult a b =
      { rd := BitVec.ofNat 16 q, rdx := BitVec.ofNat 16 m, flags := resultFlags (BitVec.ofNat 16 q) } := by
  have hq : a.toNat / b.toNat = q := by
    rw [h, Nat.add_comm, Nat.add_mul_div_right _ _ (by omega), Nat.div_eq_of_lt hm, Nat.zero_add]
  have hr : a.toNat % b.toNat = m := by
    rw [h, Nat.add_comm, Nat.add_mul_mod_self_right, Nat.mod_eq_of_lt hm]
  rw [dvuResult, hq, hr]
  simp only [zsp_eq_resultFlags (n := 15)]

/-- The quotient and remainder of `DVS` and what `DVS_ROUND` says of them. -/
theorem dvsResult_spec (round : DvsRound) {a b : Word} (hb : b.toInt ≠ 0) :
    ∃ q m : Int, a.toInt = q * b.toInt + m ∧ |m| < |b.toInt| ∧
      (round = .trunc → m = 0 ∨ (m < 0 ↔ a.toInt < 0)) ∧ (round = .floor → m = 0 ∨ (m < 0 ↔ b.toInt < 0)) ∧
      dvsResult round a b =
        { rd := BitVec.ofInt 16 q, rdx := BitVec.ofInt 16 m, flags := resultFlags (BitVec.ofInt 16 q) } := by
  generalize ha : a.toInt = x at *
  generalize hy : b.toInt = y at *
  cases round with
  | trunc =>
    have he : x.tmod y = x - x.tdiv y * y := by rw [Int.tmod_def]; ring
    refine ⟨x.tdiv y, x.tmod y, by rw [he]; ring, ?_, fun _ => ?_, (by rintro ⟨⟩), ?_⟩
    · rw [Int.abs_eq_natAbs, Int.abs_eq_natAbs, Int.natAbs_tmod]
      exact_mod_cast Nat.mod_lt _ (by omega)
    · rcases Int.lt_or_le x 0 with h | h
      · have := Int.tmod_nonneg y (a := -x) (by omega)
        rw [Int.neg_tmod] at this
        omega
      · have := Int.tmod_nonneg y h
        omega
    · simp only [dvsResult, ha, hy, he, zsp_eq_resultFlags (n := 15)]
  | floor =>
    have he : x.fmod y = x - x.fdiv y * y := by rw [Int.fmod_def]; ring
    refine ⟨x.fdiv y, x.fmod y, by rw [he]; ring, ?_, (by rintro ⟨⟩), fun _ => ?_, ?_⟩
    · rcases Int.lt_or_lt_of_ne hb with h | h
      · have h1 := Int.fmod_nonneg_of_pos (-x) (b := -y) (by omega)
        have h2 := Int.fmod_lt_of_pos (-x) (b := -y) (by omega)
        rw [Int.neg_fmod_neg] at h1 h2
        rw [abs_of_nonpos (by omega), abs_of_neg h]; omega
      · have h1 := Int.fmod_nonneg_of_pos x h
        have h2 := Int.fmod_lt_of_pos x h
        rw [abs_of_nonneg h1, abs_of_pos h]; omega
    · rcases Int.lt_or_lt_of_ne hb with h | h
      · have h1 := Int.fmod_nonneg_of_pos (-x) (b := -y) (by omega)
        rw [Int.neg_fmod_neg] at h1
        omega
      · have h1 := Int.fmod_nonneg_of_pos x h
        omega
    · simp only [dvsResult, ha, hy, he, zsp_eq_resultFlags (n := 15)]

theorem widenByte_eq (ext : ByteExt) (b : Byte) : widenByte ext b = widened ext b := by
  cases ext with
  | zero => apply BitVec.eq_of_toNat_eq; simp [widenByte, widened]
  | sign => rfl

end Sys2Proof.Machine
end

