-- ==== Sys2Proof/Laws/Control.lean ====
section
/-! SUPPORT. What the execute steps of `RDC` and `WRC` can do (R171, R172), one lemma for each way they end. -/

namespace Sys2Proof.Machine

theorem rdcEffect_denied {s : State} (x : RegNo) {n : CRegNo} (wf : Bool)
    (h : (s.getCr s.active 0#4).getLsbD n.toNat = true) : rdcEffect x n wf s = .raise .deniedCreg s := by
  unfold rdcEffect
  rw [if_pos h]

theorem rdcEffect_fails {s : State} (x : RegNo) {n : CRegNo} (wf : Bool)
    (h : (s.getCr s.active 0#4).getLsbD n.toNat = false) (hf : s.cfg.cregFailRead.getLsbD n.toNat = true) :
    rdcEffect x n wf s =
      .done ((s.drawRef (s.rx x)).drawn.writeFlags s.active wf (failFlags (s.drawRef (s.rx x)).freeWord)) := by
  unfold rdcEffect
  rw [if_neg (by rw [h]; decide), if_pos hf]

theorem rdcEffect_execState {s : State} (x : RegNo) {n : CRegNo} (wf : Bool)
    (h : (s.getCr s.active 0#4).getLsbD n.toNat = false) (hf : s.cfg.cregFailRead.getLsbD n.toNat = false)
    (he : isExecState n = true) :
    rdcEffect x n wf s = .done ((s.drawRef (s.rx x)).writeFlags s.active wf (okResult s.freeWord).flags) := by
  unfold rdcEffect
  rw [if_neg (by rw [h]; decide), if_neg (by rw [hf]; decide), if_pos he]

theorem rdcEffect_reads {s : State} (x : RegNo) {n : CRegNo} (wf : Bool)
    (h : (s.getCr s.active 0#4).getLsbD n.toNat = false) (hf : s.cfg.cregFailRead.getLsbD n.toNat = false)
    (he : isExecState n = false) :
    rdcEffect x n wf s =
      .done ((s.setRef (s.rx x) (s.getCr s.active n)).writeFlags s.active wf (okResult (s.getCr s.active n)).flags) := by
  unfold rdcEffect
  rw [if_neg (by rw [h]; decide), if_neg (by rw [hf]; decide), if_neg (by rw [he]; decide)]

theorem isExecState_iff (n : CRegNo) : isExecState n = true ↔ n = 6#4 ∨ n = 7#4 := by
  simp [isExecState]

theorem wrcEffect_denied {s : State} {n : CRegNo} (y : RegNo) (wf : Bool)
    (h : (s.getCr s.active 1#4).getLsbD n.toNat = true) : wrcEffect n y wf s = .raise .deniedCreg s := by
  simp only [wrcEffect, h, if_true]

theorem wrcEffect_execState {s : State} {n : CRegNo} (y : RegNo) (wf : Bool)
    (h : (s.getCr s.active 1#4).getLsbD n.toNat = false) (he : isExecState n = true) :
    wrcEffect n y wf s = .refuse (.execStateWrite s) := by
  simp only [wrcEffect, h, he, if_true, Bool.false_eq_true, if_false]

theorem wrcEffect_reserved {s : State} {n : CRegNo} {y : RegNo} (wf : Bool)
    (h : (s.getCr s.active 1#4).getLsbD n.toNat = false) (he : isExecState n = false)
    (hr : ¬ reservedOk n (s.getRef (s.ry y))) : wrcEffect n y wf s = .refuse (.reservedBitWrite s) := by
  rw [reservedOk_iff, Bool.not_eq_false] at hr
  simp only [wrcEffect, h, he, hr, if_true, Bool.false_eq_true, if_false]

theorem wrcEffect_fails {s : State} {n : CRegNo} {y : RegNo} (wf : Bool)
    (h : (s.getCr s.active 1#4).getLsbD n.toNat = false) (he : isExecState n = false)
    (hr : reservedOk n (s.getRef (s.ry y))) (hf : s.cfg.cregFailWrite.getLsbD n.toNat = true) :
    wrcEffect n y wf s = .done (s.drawn.writeFlags s.active wf (failFlags s.freeWord)) := by
  rw [reservedOk_iff] at hr
  simp only [wrcEffect, h, he, hr, hf, if_true, Bool.false_eq_true, if_false]

theorem wrcEffect_writes {s : State} {n : CRegNo} {y : RegNo} (wf : Bool)
    (h : (s.getCr s.active 1#4).getLsbD n.toNat = false) (he : isExecState n = false)
    (hr : reservedOk n (s.getRef (s.ry y))) (hf : s.cfg.cregFailWrite.getLsbD n.toNat = false) :
    wrcEffect n y wf s =
      .done ((s.setCr s.active n (s.getRef (s.ry y))).writeFlags s.active wf (okResult (s.getRef (s.ry y))).flags) := by
  rw [reservedOk_iff] at hr
  simp only [wrcEffect, h, he, hr, hf, Bool.false_eq_true, if_false]

/-- The control registers after a write of one of them and of the flags. -/
theorem cregsKept_setCr_writeFlags (s : State) (n : CRegNo) (v : Word) (wf : Bool) (w : FlagWrite) :
    CregsKept s ((s.setCr s.active n v).writeFlags s.active wf w) [n, 15#4] := by
  intro d m h
  have hk := cregsKept_writeFlags (s := s.setCr s.active n v) wf w rfl (fun _ _ => rfl) d m
  rw [setCr_active] at hk
  rw [hk, getCr_setCr, if_neg]
  · rintro ⟨rfl, hh⟩
    exact h ⟨by simp, (home_eq_iff s d _).1 hh⟩
  · rintro ⟨h1, h2⟩
    exact h ⟨by simp at h1; simp [h1], by simpa [State.sameCreg] using h2⟩

end Sys2Proof.Machine
end

