-- ==== Sys2Proof/Laws/Decode.lean ====
section
/-! SUPPORT. The decoder and the lengths the fetch asks for agree: the bytes of a fetched row always decode, to one row
and no byte more. -/

namespace Sys2Proof

theorem decode_cons (k : ImmLen) (afterXc : Bool) (b : Byte) (bs : List Byte) :
    decode k afterXc (b :: bs) =
      if !afterXc && isPrefixByte b then .ok (decodePrefix b, bs) else decodeOperands k b bs := rfl

/-- An immediate that takes a list whole is as long as it says (R86, R221). -/
theorem decodeImm_whole {len : ImmLen} {bs : List Byte} : (∃ w, decodeImm len bs = .ok (w, [])) ↔ bs.length = len.bytes := by
  cases len <;> match bs with
  | [] => simp [decodeImm, ImmLen.bytes]
  | [a] => simp [decodeImm, ImmLen.bytes]
  | [a, b] => simp [decodeImm, ImmLen.bytes]
  | a :: b :: c :: r => simp [decodeImm, ImmLen.bytes]

/-- How many bytes of a list a row takes, as the decoder sees it. -/
theorem decode_of_lengths {k : ImmLen} {afterXc : Bool} {b : Byte} {q p : List Byte}
    (hq : q.length = bytesAfterFirst k afterXc b) (hp : p.length = bytesAfterRegpair k afterXc (b :: q)) :
    ∃ i, decode k afterXc (b :: (q ++ p)) = .ok (i, []) := by
  rw [decode_cons]
  by_cases hx : (!afterXc && isPrefixByte b) = true
  · simp only [bytesAfterFirst, hx, if_true] at hq
    obtain rfl := List.eq_nil_of_length_eq_zero hq
    simp only [bytesAfterRegpair] at hp
    obtain rfl := List.eq_nil_of_length_eq_zero hp
    rw [if_pos hx]
    exact ⟨_, rfl⟩
  · rw [if_neg hx]
    simp only [bytesAfterFirst, if_neg hx] at hq
    unfold decodeOperands
    cases hf : formOf k (opcodeField b) with
    | op build =>
      simp only [hf] at hq
      obtain rfl := List.eq_nil_of_length_eq_zero hq
      simp only [bytesAfterRegpair] at hp
      obtain rfl := List.eq_nil_of_length_eq_zero hp
      exact ⟨_, rfl⟩
    | word build =>
      simp only [hf] at hq
      obtain ⟨lo, hi, rfl⟩ := List.length_eq_two.1 hq
      simp only [bytesAfterRegpair] at hp
      obtain rfl := List.eq_nil_of_length_eq_zero hp
      exact ⟨_, rfl⟩
    | rn build =>
      simp only [hf] at hq
      obtain ⟨pair, rfl⟩ := List.length_eq_one_iff.1 hq
      simp only [bytesAfterRegpair, if_neg hx, hf] at hp
      obtain rfl := List.eq_nil_of_length_eq_zero hp
      exact ⟨_, rfl⟩
    | rv len build =>
      simp only [hf] at hq
      obtain ⟨pair, rfl⟩ := List.length_eq_one_iff.1 hq
      simp only [bytesAfterRegpair, if_neg hx, hf] at hp
      by_cases hy : (yNibble pair == 15#4) = true
      · rw [if_pos hy] at hp
        obtain ⟨w, hw⟩ := decodeImm_whole.2 hp
        simp only [List.singleton_append, hy, if_true, hw]
        exact ⟨_, rfl⟩
      · rw [if_neg hy] at hp
        obtain rfl := List.eq_nil_of_length_eq_zero hp
        simp only [List.singleton_append, hy]
        exact ⟨_, rfl⟩

/-- The other way round: a list that decodes to one row and no byte more has the lengths that the fetch asks for. -/
theorem lengths_of_decode {k : ImmLen} {afterXc : Bool} {bs : List Byte} {i : Instr}
    (h : decode k afterXc bs = .ok (i, [])) :
    ∃ b q p, bs = b :: (q ++ p) ∧ q.length = bytesAfterFirst k afterXc b ∧
      p.length = bytesAfterRegpair k afterXc (b :: q) := by
  cases bs with
  | nil => simp [decode] at h
  | cons b bs =>
    rw [decode_cons] at h
    by_cases hx : (!afterXc && isPrefixByte b) = true
    · rw [if_pos hx] at h
      simp only [Except.ok.injEq, Prod.mk.injEq] at h
      exact ⟨b, [], [], by simp [h.2], by simp [bytesAfterFirst, hx], by simp [bytesAfterRegpair]⟩
    · rw [if_neg hx] at h
      unfold decodeOperands at h
      cases hf : formOf k (opcodeField b) with
      | op build =>
        simp only [hf, Except.ok.injEq, Prod.mk.injEq] at h
        exact ⟨b, [], [], by simp [h.2], by simp [bytesAfterFirst, hx, hf], by simp [bytesAfterRegpair]⟩
      | word build =>
        simp only [hf] at h
        match bs, h with
        | [lo, hi], _ =>
          exact ⟨b, [lo, hi], [], rfl, by simp [bytesAfterFirst, hx, hf], by simp [bytesAfterRegpair]⟩
        | lo :: hi :: x :: r, h => simp at h
      | rn build =>
        simp only [hf] at h
        match bs, h with
        | [pair], _ =>
          exact ⟨b, [pair], [], rfl, by simp [bytesAfterFirst, hx, hf], by simp [bytesAfterRegpair, hx, hf]⟩
        | pair :: x :: r, h => simp at h
      | rv len build =>
        simp only [hf] at h
        match bs, h with
        | pair :: r, h =>
          by_cases hy : (yNibble pair == 15#4) = true
          · simp only [hy, if_true] at h
            cases hw : decodeImm len r with
            | error e => simp [hw] at h
            | ok a =>
              simp only [hw, Except.ok.injEq, Prod.mk.injEq] at h
              exact ⟨b, [pair], r, rfl, by simp [bytesAfterFirst, hx, hf],
                by simpa [bytesAfterRegpair, hx, hf, hy] using decodeImm_whole.1 ⟨a.1, by rw [hw, ← h.2]⟩⟩
          · simp only [hy, Bool.false_eq_true, if_false, Except.ok.injEq, Prod.mk.injEq] at h
            exact ⟨b, [pair], [], by simp [h.2], by simp [bytesAfterFirst, hx, hf],
              by simp [bytesAfterRegpair, hx, hf, hy]⟩

/-! ## The fields of an encoded byte -/

@[simp] theorem opcodeField_opcodeByte (c : BitVec 3) (op : BitVec 5) : opcodeField (opcodeByte c op) = op := by
  revert c op; decide
@[simp] theorem condField_opcodeByte (c : BitVec 3) (op : BitVec 5) : condField (opcodeByte c op) = c := by
  revert c op; decide
@[simp] theorem xNibble_regpair (x y : BitVec 4) : xNibble (regpair x y) = x := by revert x y; decide
@[simp] theorem yNibble_regpair (x y : BitVec 4) : yNibble (regpair x y) = y := by revert x y; decide
theorem opcodeByte_fields (b : Byte) : opcodeByte (condField b) (opcodeField b) = b := by revert b; decide
theorem regpair_fields (b : Byte) : regpair (xNibble b) (yNibble b) = b := by revert b; decide
@[simp] theorem wordOf_bytes (w : Word) : wordOf (loByte w) (hiByte w) = w := by
  apply BitVec.eq_of_toNat_eq
  have := w.isLt
  simp only [wordOf, loByte, hiByte, BitVec.toNat_append, BitVec.extractLsb'_toNat,
    Nat.shiftRight_eq_div_pow]
  rw [← Nat.shiftLeft_add_eq_or_of_lt (Nat.mod_lt _ (by decide)), Nat.shiftLeft_eq]
  omega
@[simp] theorem loByte_wordOf (lo hi : Byte) : loByte (wordOf lo hi) = lo := by
  apply BitVec.eq_of_toNat_eq
  have := lo.isLt
  simp only [wordOf, loByte, BitVec.toNat_append, BitVec.extractLsb'_toNat]
  rw [← Nat.shiftLeft_add_eq_or_of_lt lo.isLt, Nat.shiftLeft_eq]
  omega
@[simp] theorem hiByte_wordOf (lo hi : Byte) : hiByte (wordOf lo hi) = hi := by
  apply BitVec.eq_of_toNat_eq
  have := lo.isLt
  have := hi.isLt
  simp only [wordOf, hiByte, BitVec.toNat_append, BitVec.extractLsb'_toNat, Nat.shiftRight_eq_div_pow]
  rw [← Nat.shiftLeft_add_eq_or_of_lt lo.isLt, Nat.shiftLeft_eq]
  omega

theorem loByte_eq (w : Word) : loByte w = BitVec.ofNat 8 w.toNat := by
  apply BitVec.eq_of_toNat_eq; simp [loByte, BitVec.extractLsb'_toNat]
theorem hiByte_eq (w : Word) : hiByte w = BitVec.ofNat 8 (w.toNat / 256) := by
  apply BitVec.eq_of_toNat_eq; simp [hiByte, BitVec.extractLsb'_toNat, Nat.shiftRight_eq_div_pow]

end Sys2Proof

namespace Sys2Proof.Machine

theorem fetchBytes_length {n : Nat} {s t : State} {bs : List Byte} (h : s.fetchBytes n = .ok bs t) :
    bs.length = n := by
  induction n generalizing s t bs with
  | zero => cases h; rfl
  | succ n ih =>
    obtain ⟨b, u, -, h⟩ := fetch_andThen_ok.1 h
    obtain ⟨cs, v, h2, h⟩ := fetch_andThen_ok.1 h
    cases h
    rw [List.length_cons, ih h2]

/-- The bytes that a row's fetch reads are a row of the opcode table, so no step is refused as undecodable. -/
theorem fetchRow_decodes {s t : State} {bs : List Byte} (h : s.fetchRow = .ok bs t) :
    ∃ i, decode s.cfg.wrbImm s.latch.xc bs = .ok (i, []) := by
  obtain ⟨b, u, -, h⟩ := fetch_andThen_ok.1 h
  obtain ⟨q, v, h2, h⟩ := fetch_andThen_ok.1 h
  obtain ⟨p, w, h3, h⟩ := fetch_andThen_ok.1 h
  cases h
  exact decode_of_lengths (fetchBytes_length h2) (fetchBytes_length h3)

end Sys2Proof.Machine
end

