-- ==== Sys2Proof/Laws/Cycle.lean ====
section
/-! SUPPORT. The fetch: where code bytes stand in memory (`State.codeAt`), the fetch of a row reads exactly them and
moves `PC` past them (R111, R112). -/

namespace Sys2Proof.Machine

theorem setReg_setReg (s : State) (c : CtxId) (i : RegNo) (v w : Word) :
    (s.setReg c i v).setReg c i w = s.setReg c i w := by
  by_cases hi : i = 0#4
  · subst hi; simp
  · cases c <;> simp [State.setReg, State.setCtx, State.ctx, Context.setReg, hi]

theorem setReg_getReg (s : State) (c : CtxId) (i : RegNo) : s.setReg c i (s.getReg c i) = s := by
  by_cases hi : i = 0#4
  · subst hi; simp
  · cases c <;> simp [State.setReg, State.setCtx, State.getReg, State.ctx, Context.setReg, Context.getReg, hi]

theorem setLatch_setReg (s : State) (l : Latch) (c : CtxId) (i : RegNo) (v : Word) :
    (s.setLatch l).setReg c i v = (s.setReg c i v).setLatch l := by
  cases c <;> rfl

theorem setLatch_setLatch (s : State) (l k : Latch) : (s.setLatch l).setLatch k = s.setLatch k := rfl

theorem setLatch_of_latch {s : State} {l : Latch} (h : s.latch = l) : s.setLatch l = s := by subst h; rfl

/-- The machine with `PC` moved on by `n` code bytes (R17, R18). -/
def State.advanced (s : State) (n : Nat) : State :=
  s.setReg s.active 14#4 (s.getReg s.active 14#4 + BitVec.ofNat 16 n * (1#16 + s.getReg s.active 15#4))

@[simp] theorem advanced_active (s : State) (n : Nat) : (s.advanced n).active = s.active := by simp [State.advanced]
@[simp] theorem advanced_mem (s : State) (n : Nat) : (s.advanced n).mem = s.mem := by simp [State.advanced]
@[simp] theorem advanced_cfg (s : State) (n : Nat) : (s.advanced n).cfg = s.cfg := by simp [State.advanced]
@[simp] theorem advanced_latch (s : State) (n : Nat) : (s.advanced n).latch = s.latch := by simp [State.advanced]
@[simp] theorem getCr_advanced (s : State) (n : Nat) (c : CtxId) (k : CRegNo) :
    (s.advanced n).getCr c k = s.getCr c k := by simp [State.advanced]
@[simp] theorem getReg_advanced_dpc (s : State) (n : Nat) :
    (s.advanced n).getReg s.active 15#4 = s.getReg s.active 15#4 := by simp [State.advanced, getReg_setReg]
@[simp] theorem getReg_advanced_pc (s : State) (n : Nat) :
    (s.advanced n).getReg s.active 14#4 =
      s.getReg s.active 14#4 + BitVec.ofNat 16 n * (1#16 + s.getReg s.active 15#4) := by
  simp [State.advanced, getReg_setReg]

theorem advanced_zero (s : State) : s.advanced 0 = s := by
  unfold State.advanced
  rw [show (BitVec.ofNat 16 0) * (1#16 + s.getReg s.active 15#4) = 0#16 by simp, BitVec.add_zero, setReg_getReg]

theorem advanced_advanced (s : State) (m n : Nat) : (s.advanced m).advanced n = s.advanced (m + n) := by
  have e : ∀ (a b c d : Word), a + b * d + c * d = a + (b + c) * d := by intros; ring
  rw [State.advanced, advanced_active, getReg_advanced_pc, getReg_advanced_dpc, e, State.advanced, setReg_setReg,
    State.advanced, BitVec.ofNat_add]

theorem setLatch_advanced (s : State) (l : Latch) (n : Nat) : (s.setLatch l).advanced n = (s.advanced n).setLatch l := by
  simp [State.advanced, setLatch_setReg]

/-! ## Where code stands depends on little -/

theorem codeAt_congr {s t : State} (ha : t.active = s.active) (hm : t.mem = s.mem) (hg : t.cfg = s.cfg)
    (hb : ∀ mode, t.membase mode = s.membase mode) (hd : t.getReg s.active 15#4 = s.getReg s.active 15#4) (va : Word)
    (bs : List Byte) : t.codeAt va bs ↔ s.codeAt va bs := by
  induction bs generalizing va with
  | nil => rfl
  | cons b bs ih => simp only [State.codeAt, translate_congr hm hg hb, hm, hg, ha, hd, ih]

theorem codeAt_advanced (s : State) (n : Nat) (va : Word) (bs : List Byte) :
    (s.advanced n).codeAt va bs ↔ s.codeAt va bs :=
  codeAt_congr (advanced_active s n) (advanced_mem s n) (advanced_cfg s n)
    (membase_congr (advanced_active s n) (fun k => getCr_advanced s n s.active k)) (getReg_advanced_dpc s n) va bs

theorem codeAt_setLatch (s : State) (l : Latch) (va : Word) (bs : List Byte) :
    (s.setLatch l).codeAt va bs ↔ s.codeAt va bs :=
  codeAt_congr (s := s) (t := s.setLatch l) rfl rfl rfl
    (membase_congr rfl (fun k => getCr_setLatch s l s.active k)) (getReg_setLatch s l s.active _) va bs

theorem codeAt_append (s : State) (va : Word) (bs cs : List Byte) :
    s.codeAt va (bs ++ cs) ↔
      s.codeAt va bs ∧ s.codeAt (va + BitVec.ofNat 16 bs.length * (1#16 + s.getReg s.active 15#4)) cs := by
  induction bs generalizing va with
  | nil => simp [State.codeAt]
  | cons b bs ih =>
    have e : ∀ (a n d : Word), a + d + n * d = a + (n + 1) * d := by intros; ring
    simp only [List.cons_append, State.codeAt, ih, e, and_assoc, List.length_cons, BitVec.ofNat_add]
    rfl

/-! ## The fetch -/

theorem stepPc_eq (s : State) : s.stepPc = s.advanced 1 := by
  have e : nextPc (s.getReg s.active 14#4) (s.getReg s.active 15#4) =
      s.getReg s.active 14#4 + BitVec.ofNat 16 1 * (1#16 + s.getReg s.active 15#4) := by
    unfold nextPc
    rw [show (BitVec.ofNat 16 1) = (1 : Word) from rfl, one_mul, add_assoc]
  rw [State.advanced, ← e]
  rfl

/-- The code byte at `PC` is read where the claims say it stands (R111). -/
theorem codeByte_ok {s : State} {b : Byte} : s.codeByte = .ok b ↔ s.codeAt (s.getReg s.active 14#4) [b] := by
  unfold State.codeByte
  rw [andThen_ok]
  simp only [physRead_ok, State.codeAt, and_true]

theorem fetchByte_of_code {s : State} {b : Byte} (h : s.codeAt (s.getReg s.active 14#4) [b]) :
    s.fetchByte = .ok b (s.advanced 1) := fetchByte_ok.2 ⟨codeByte_ok.2 h, (stepPc_eq s).symm⟩

theorem fetchBytes_of_code {s : State} {bs : List Byte} (h : s.codeAt (s.getReg s.active 14#4) bs) :
    s.fetchBytes bs.length = .ok bs (s.advanced bs.length) := by
  induction bs generalizing s with
  | nil => simp [State.fetchBytes, advanced_zero]
  | cons b bs ih =>
    have h' := (codeAt_append s (s.getReg s.active 14#4) [b] bs).1 h
    simp only [List.length_cons, State.fetchBytes, fetchByte_of_code h'.1, fetch_andThen_of_ok]
    have h2 : (s.advanced 1).codeAt ((s.advanced 1).getReg (s.advanced 1).active 14#4) bs := by
      rw [codeAt_advanced, advanced_active, getReg_advanced_pc]; exact h'.2
    rw [ih h2]
    simp only [fetch_andThen_of_ok, advanced_advanced]
    rw [Nat.add_comm 1]

/-- The fetch of a row whose bytes stand at `PC` reads them and moves `PC` past them. -/
theorem fetchRow_of_code {s : State} {bs : List Byte} {i : Instr}
    (hd : decode s.cfg.wrbImm s.latch.xc bs = .ok (i, [])) (h : s.codeAt (s.getReg s.active 14#4) bs) :
    s.fetchRow = .ok bs (s.advanced bs.length) := by
  obtain ⟨b, q, p, rfl, hq, hp⟩ := lengths_of_decode hd
  have h1 := (codeAt_append s (s.getReg s.active 14#4) [b] (q ++ p)).1 h
  have h2 := (codeAt_append s _ q p).1 h1.2
  have hqc : (s.advanced 1).codeAt ((s.advanced 1).getReg (s.advanced 1).active 14#4) q := by
    rw [codeAt_advanced, advanced_active, getReg_advanced_pc]; exact h2.1
  have hpc : ((s.advanced 1).advanced q.length).codeAt
      (((s.advanced 1).advanced q.length).getReg ((s.advanced 1).advanced q.length).active 14#4) p := by
    rw [codeAt_advanced, codeAt_advanced, advanced_active, getReg_advanced_pc, advanced_active, getReg_advanced_pc,
      getReg_advanced_dpc]
    exact h2.2
  have fq := fetchBytes_of_code hqc
  have fp := fetchBytes_of_code hpc
  unfold State.fetchRow
  simp only [fetchByte_of_code h1.1, fetch_andThen_of_ok]
  rw [← hq, fq]
  simp only [fetch_andThen_of_ok]
  rw [← hp, fp]
  simp only [fetch_andThen_of_ok, advanced_advanced]
  simp only [List.length_cons, List.length_append]
  rw [show 1 + q.length + p.length = q.length + p.length + 1 by omega]

/-! ### The other way round: all that a fetch can leave -/

theorem fetchByte_advanced {s t : State} {b : Byte} (h : s.fetchByte = .ok b t) : t = s.advanced 1 :=
  (fetchByte_ok.1 h).2.trans (stepPc_eq s)

theorem fetchBytes_advanced {n : Nat} {s t : State} {bs : List Byte} (h : s.fetchBytes n = .ok bs t) :
    t = s.advanced n := by
  induction n generalizing s t bs with
  | zero => cases h; exact (advanced_zero s).symm
  | succ n ih =>
    obtain ⟨b, u, h1, h⟩ := fetch_andThen_ok.1 h
    obtain ⟨cs, v, h2, h⟩ := fetch_andThen_ok.1 h
    cases h
    rw [ih h2, fetchByte_advanced h1, advanced_advanced, Nat.add_comm]

theorem fetchRow_advanced {s t : State} {bs : List Byte} (h : s.fetchRow = .ok bs t) : ∃ n, t = s.advanced n := by
  obtain ⟨b, u, h1, h⟩ := fetch_andThen_ok.1 h
  obtain ⟨q, v, h2, h⟩ := fetch_andThen_ok.1 h
  obtain ⟨p, w, h3, h⟩ := fetch_andThen_ok.1 h
  cases h
  exact ⟨_, by rw [fetchBytes_advanced h3, fetchBytes_advanced h2, fetchByte_advanced h1, advanced_advanced,
    advanced_advanced]⟩

theorem fetchBytes_exc {n : Nat} {s t : State} {e : Exc} (h : s.fetchBytes n = .exc e t) : ∃ m, t = s.advanced m := by
  induction n generalizing s t with
  | zero => cases h
  | succ n ih =>
    rcases fetch_andThen_exc.1 h with h | ⟨b, u, h1, h⟩
    · exact ⟨0, (fetchByte_exc.1 h).2.trans (advanced_zero s).symm⟩
    · rcases fetch_andThen_exc.1 h with h | ⟨cs, v, -, h⟩
      · obtain ⟨m, hm⟩ := ih h
        exact ⟨1 + m, by rw [hm, fetchByte_advanced h1, advanced_advanced]⟩
      · cases h

theorem fetchRow_exc {s t : State} {e : Exc} (h : s.fetchRow = .exc e t) : ∃ n, t = s.advanced n := by
  rcases fetch_andThen_exc.1 h with h | ⟨b, u, h1, h⟩
  · exact ⟨0, (fetchByte_exc.1 h).2.trans (advanced_zero s).symm⟩
  · rcases fetch_andThen_exc.1 h with h | ⟨q, v, h2, h⟩
    · obtain ⟨m, hm⟩ := fetchBytes_exc h
      exact ⟨1 + m, by rw [hm, fetchByte_advanced h1, advanced_advanced]⟩
    · rcases fetch_andThen_exc.1 h with h | ⟨p, w, -, h⟩
      · obtain ⟨m, hm⟩ := fetchBytes_exc h
        exact ⟨_, by rw [hm, fetchBytes_advanced h2, fetchByte_advanced h1, advanced_advanced, advanced_advanced]⟩
      · cases h

/-! ### A fetch cut short

`F` is what the fetch of the failing byte answers, an exception or a stop: every fetch that it is part of answers that. -/

/-- A fetch answers an exception or a stop, which nothing after it changes. -/
def Fetch.Final (F : (α : Type) → Fetch α) : Prop := ∀ (α β : Type) (k : α → State → Fetch β), (F α).andThen k = F β

theorem final_exc (e : Exc) (s : State) : Fetch.Final fun _ => .exc e s := fun _ _ _ => rfl

theorem final_unwritten (pa : Nat) (s : State) : Fetch.Final fun _ => .unwritten pa s := fun _ _ _ => rfl

theorem fetchBytes_cut {F : (α : Type) → Fetch α} (hF : Fetch.Final F) {s : State} {bs : List Byte} {n : Nat}
    (h : s.codeAt (s.getReg s.active 14#4) bs) (hn : bs.length < n) (hb : (s.advanced bs.length).fetchByte = F Byte) :
    s.fetchBytes n = F (List Byte) := by
  induction bs generalizing s n with
  | nil =>
    obtain ⟨n, rfl⟩ := Nat.exists_eq_succ_of_ne_zero (Nat.ne_of_gt hn)
    rw [List.length_nil, advanced_zero] at hb
    rw [State.fetchBytes, hb]
    exact hF _ _ _
  | cons b bs ih =>
    obtain ⟨n, rfl⟩ := Nat.exists_eq_succ_of_ne_zero (Nat.ne_zero_of_lt hn)
    have h' := (codeAt_append s (s.getReg s.active 14#4) [b] bs).1 h
    have h2 : (s.advanced 1).codeAt ((s.advanced 1).getReg (s.advanced 1).active 14#4) bs := by
      rw [codeAt_advanced, advanced_active, getReg_advanced_pc]; exact h'.2
    rw [State.fetchBytes, fetchByte_of_code h'.1, fetch_andThen_of_ok,
      ih h2 (Nat.lt_of_succ_lt_succ hn) (by rw [advanced_advanced, Nat.add_comm]; exact hb)]
    exact hF _ _ _

/-- The fetch of a row whose byte after `done` fails. -/
theorem fetchRow_cut {F : (α : Type) → Fetch α} (hF : Fetch.Final F) {s : State} {done rest : List Byte} {b : Byte}
    {i : Instr} (hd : decode s.cfg.wrbImm s.latch.xc (done ++ b :: rest) = .ok (i, []))
    (h : s.codeAt (s.getReg s.active 14#4) done) (hb : (s.advanced done.length).fetchByte = F Byte) :
    s.fetchRow = F (List Byte) := by
  obtain ⟨a, q, p, he, hq, hp⟩ := lengths_of_decode hd
  unfold State.fetchRow
  cases done with
  | nil =>
    rw [List.length_nil, advanced_zero] at hb
    rw [hb]
    exact hF _ _ _
  | cons c done =>
    obtain ⟨rfl, hs⟩ : c = a ∧ done ++ b :: rest = q ++ p := by simpa using he
    have h1 := (codeAt_append s (s.getReg s.active 14#4) [c] done).1 h
    have hc1 : ∀ bs, s.codeAt (s.getReg s.active 14#4 + BitVec.ofNat 16 1 * (1#16 + s.getReg s.active 15#4)) bs →
        (s.advanced 1).codeAt ((s.advanced 1).getReg (s.advanced 1).active 14#4) bs := by
      intro bs hbs
      rw [codeAt_advanced, advanced_active, getReg_advanced_pc]; exact hbs
    have hb1 : ((s.advanced 1).advanced done.length).fetchByte = F Byte := by
      rw [advanced_advanced, Nat.add_comm]; exact hb
    rw [fetchByte_of_code h1.1, fetch_andThen_of_ok, ← hq]
    by_cases hl : done.length < q.length
    · rw [fetchBytes_cut hF (hc1 _ h1.2) hl hb1]
      exact hF _ _ _
    · obtain ⟨r, rfl, hr⟩ : ∃ r, done = q ++ r ∧ p = r ++ b :: rest := by
        rcases List.append_eq_append_iff.1 hs with ⟨r, rfl, hr⟩ | ⟨r, hr, rfl⟩
        · cases r with
          | nil => exact ⟨[], by simp, by simpa using hr.symm⟩
          | cons x r => simp at hl
        · exact ⟨r, hr, rfl⟩
      have h2 := (codeAt_append s _ q r).1 h1.2
      have hqc := hc1 q h2.1
      rw [fetchBytes_of_code hqc, fetch_andThen_of_ok, ← hp]
      have hpc : ((s.advanced 1).advanced q.length).codeAt
          (((s.advanced 1).advanced q.length).getReg ((s.advanced 1).advanced q.length).active 14#4) r := by
        rw [codeAt_advanced, codeAt_advanced, advanced_active, getReg_advanced_pc, advanced_active, getReg_advanced_pc,
          getReg_advanced_dpc]
        exact h2.2
      rw [fetchBytes_cut hF hpc (by rw [hr]; simp) (by
        rw [advanced_advanced]
        rw [List.length_append] at hb1
        exact hb1)]
      exact hF _ _ _

/-! ## Running rows -/

theorem runRows_opcode {n : Nat} {s : State} {bs : List Byte} {i : Instr}
    (hd : decode s.cfg.wrbImm s.latch.xc bs = .ok (i, [])) (h : s.codeAt (s.getReg s.active 14#4) bs)
    (hi : i.isPrefix = false) : runRows (n + 1) s = exec i (s.advanced bs.length) := by
  unfold runRows
  rw [fetchRow_of_code hd h]
  simp [hd, hi]

theorem runRows_prefixRow {n : Nat} {s u : State} {bs : List Byte} {i : Instr}
    (hd : decode s.cfg.wrbImm s.latch.xc bs = .ok (i, [])) (h : s.codeAt (s.getReg s.active 14#4) bs)
    (hi : i.isPrefix = true) (hu : exec i (s.advanced bs.length) = .next u) : runRows (n + 1) s = runRows n u := by
  conv => lhs; unfold runRows
  rw [fetchRow_of_code hd h]
  simp [hd, hi, hu]

/-- What a prefix row notes (R113, R94). -/
def Latch.note (l : Latch) : Instr → Latch
  | .xc => { l with xc := true }
  | .tf => { l with tf := !l.tf }
  | .xx => { l with xx := true }
  | .xy => { l with xy := true }
  | .xz => { l with xz := true }
  | .dr d => l.withDr d
  | _ => l

theorem exec_of_isPrefix {i : Instr} (s : State) (h : i.isPrefix = true) :
    exec i s = .next (s.setLatch (s.latch.note i)) := by
  cases i <;> first | rfl | (simp [Instr.isPrefix] at h)

/-! ## A run of prefixes -/

theorem decode_prefixRow (k : ImmLen) {p : Instr} (h : p.isPrefix = true) :
    decode k false (encode k p) = .ok (p, []) := by
  cases p <;> first | rfl | (simp [Instr.isPrefix] at h; done) | skip
  case dr d => clear h; cases k <;> revert d <;> decide

theorem note_xc {p : Instr} {l : Latch} (hp : p.isPrefix = true) (hne : p ≠ .xc) (hl : l.xc = false) :
    (l.note p).xc = false := by
  cases p <;> first | exact hl | exact absurd rfl hne | skip
  case dr d => simp only [Latch.note]; unfold Latch.withDr; split <;> exact hl

/-- A run of prefixes, `XC` at most as the last, is fetched row by row and noted. -/
theorem runRows_prefixes {ps : List Instr} (k : Nat) {s : State} (hp : ∀ p ∈ ps, p.isPrefix = true)
    (hx : ∀ p ∈ ps.dropLast, p ≠ .xc) (hl : s.latch.xc = false)
    (hc : s.codeAt (s.getReg s.active 14#4) (ps.flatMap (encode s.cfg.wrbImm))) :
    runRows (k + ps.length) s =
      runRows k ((s.advanced (ps.flatMap (encode s.cfg.wrbImm)).length).setLatch (ps.foldl Latch.note s.latch)) := by
  induction ps generalizing s with
  | nil =>
    rw [List.flatMap_nil, List.length_nil, List.length_nil, advanced_zero, List.foldl_nil, setLatch_of_latch rfl]
    rfl
  | cons p ps ih =>
    have hpp := hp p (by simp)
    rw [List.flatMap_cons, codeAt_append] at hc
    rw [List.length_cons, ← Nat.add_assoc,
      runRows_prefixRow (by rw [hl]; exact decode_prefixRow _ hpp) hc.1 hpp (exec_of_isPrefix _ hpp)]
    cases ps with
    | nil => simp
    | cons q qs =>
      have hne : p ≠ .xc := hx p (by simp)
      rw [ih]
      · simp only [List.foldl_cons, setLatch_latch, setLatch_advanced, advanced_advanced, setLatch_setLatch,
          advanced_latch, setLatch_cfg, advanced_cfg, List.flatMap_cons, List.length_append]
      · intro r hr; exact hp r (by simp at hr ⊢; tauto)
      · intro r hr; exact hx r (by simp at hr ⊢; tauto)
      · rw [setLatch_latch, advanced_latch]; exact note_xc hpp hne hl
      · rw [codeAt_setLatch, codeAt_advanced, setLatch_active, getReg_setLatch, advanced_active, getReg_advanced_pc,
          setLatch_cfg, advanced_cfg]
        exact hc.2

/-- What a run of prefixes has noted, in the terms of the claims. -/
theorem foldl_note {ps : List Instr} (hp : ∀ p ∈ ps, p.isPrefix = true) :
    ps.foldl Latch.note {} = notedPrefixes ps := by
  induction ps using List.reverseRecOn with
  | nil => rfl
  | append_singleton ps p ih =>
    have ih := ih (fun q hq => hp q (by simp [hq]))
    rw [List.foldl_append, List.foldl_cons, List.foldl_nil, ih]
    have hpp := hp p (by simp)
    have hdr : notedPrefixes.drNumbers (ps ++ [p]) = notedPrefixes.drNumbers ps ++ notedPrefixes.drNumbers [p] := by
      simp [notedPrefixes.drNumbers]
    cases p <;> first | (simp [Instr.isPrefix] at hpp; done) | skip
    case dr d =>
      rw [show notedPrefixes.drNumbers [Instr.dr d] = [d] from rfl] at hdr
      simp only [Latch.note, notedPrefixes, hdr]
      generalize notedPrefixes.drNumbers ps = ds
      unfold Latch.withDr
      match ds with
      | [] => simp
      | [a] => simp
      | a :: b :: [] => simp
      | a :: b :: c :: r => simp
    case tf =>
      rw [show notedPrefixes.drNumbers [Instr.tf] = [] from rfl, List.append_nil] at hdr
      simp [Latch.note, notedPrefixes, hdr]
      rcases Nat.mod_two_eq_zero_or_one (List.count Instr.tf ps) with h | h <;> simp [h, Nat.add_mod]
    all_goals
      rw [show notedPrefixes.drNumbers [_] = [] from rfl, List.append_nil] at hdr
      simp [Latch.note, notedPrefixes, hdr]

/-- The start of a step in the terms of the claims. -/
theorem begin_eq (s : State) : s.begin = s.fetched 0 {} := by
  unfold State.begin State.fetched
  have : (s.getReg s.active 14#4 + BitVec.ofNat 16 0 * (1#16 + s.getReg s.active 15#4)) =
      (s.setCr s.active 14#4 (s.getReg s.active 14#4)).getReg s.active 14#4 := by simp
  rw [this, setReg_getReg]

theorem fetched_eq (s : State) (n : Nat) (l : Latch) : s.fetched n l = (s.begin.advanced n).setLatch l := by
  unfold State.begin State.fetched State.advanced
  simp [setLatch_setReg, setLatch_setLatch]

theorem begin_pc (s : State) : s.begin.getReg s.begin.active 14#4 = s.getReg s.active 14#4 := by
  simp [State.begin]

theorem begin_membase (s : State) (mode : AccessMode) : s.begin.membase mode = s.membase mode := by
  unfold State.membase State.begin
  rw [setLatch_active, setCr_active]
  cases mode <;> exact (getCr_setLatch _ _ _ _).trans (getCr_setCr_ne _ _ _ _ (by decide))

theorem codeAt_begin (s : State) (va : Word) (bs : List Byte) : s.begin.codeAt va bs ↔ s.codeAt va bs :=
  codeAt_congr (by simp [State.begin]) (by simp [State.begin]) (by simp [State.begin]) (begin_membase s)
    (by simp [State.begin]) va bs

theorem step_of_not_breakpoint {s : State} (h : s.ended ≠ .breakpoint) : step s = runRows maxRows s.begin := by
  simp [step, runStep, h]

/-! ## What stands around `exec` in a step -/

/-- Every next state of a step comes from a fetch that raised or from `exec` of the opcode row fetched, at the state that
the fetch left: `PC` moved on, the prefixes noted. -/
theorem runRows_next {n : Nat} {s t : State} (h : runRows n s = .next t) :
    ∃ m l, (∃ e, t = ((s.advanced m).setLatch l).takeException s.active e) ∨
      ∃ i, i.isPrefix = false ∧ exec i ((s.advanced m).setLatch l) = .next t := by
  induction n generalizing s with
  | zero => cases h
  | succ n ih =>
    unfold runRows at h
    split at h
    · rename_i e u hf
      obtain ⟨m, rfl⟩ := fetchRow_exc hf
      rw [advanced_active] at h
      exact ⟨m, s.latch, .inl ⟨e, by rw [setLatch_of_latch (advanced_latch s m)]; exact (Host.Outcome.next.inj h).symm⟩⟩
    · cases h
    · rename_i bs u hf
      obtain ⟨m, rfl⟩ := fetchRow_advanced hf
      split at h
      · cases h
      · rename_i i _ _
        split at h
        · rename_i hp
          rw [exec_of_isPrefix _ hp] at h
          obtain ⟨k, l, h⟩ := ih h
          refine ⟨m + k, l, ?_⟩
          rwa [setLatch_advanced, advanced_advanced, setLatch_setLatch, setLatch_active, advanced_active] at h
        · rename_i hp
          exact ⟨m, s.latch, .inr ⟨i, by simpa using hp, by rw [setLatch_of_latch (advanced_latch s m)]; exact h⟩⟩

/-- Every next state of a step (R110): an exception from the fetch, or `exec` at the state that the fetch left. -/
theorem step_next {s t : State} (h : step s = .next t) :
    ∃ m l, (∃ e, t = (s.fetched m l).takeException s.active e) ∨
      ∃ i, i.isPrefix = false ∧ exec i (s.fetched m l) = .next t := by
  unfold step runStep at h
  split at h
  · cases h
  · obtain ⟨m, l, h⟩ := runRows_next h
    refine ⟨m, l, ?_⟩
    rw [fetched_eq]
    simpa [State.begin] using h

end Sys2Proof.Machine
end

