-- ==== Sys2Proof/Laws/Moves.lean ====
section
/-! SUPPORT. Everything an instruction can do, said once: `Moves i s u` lists the updates by which the execute step of
`i` can have come from `s` to `u`, and `exec_next` says how `exec` ends from there. A whole-machine claim is an induction
over `Moves` with these two and `step_next` of Laws/Cycle.lean, which says what stands around `exec` in a step. -/

namespace Sys2Proof.Machine

/-- `u` is reached from `s` by the updates an execute step of `i` can make. A register of the other bank is written only
under a cross-bank prefix; a control register other than `FLAGS` only by `WRC`, undenied and with its reserved bits 0. -/
inductive Moves (i : Instr) (s : State) : State → Prop where
  | refl : Moves i s s
  | reg {u : State} (c : CtxId) (n : RegNo) (v : Word)
      (h : c = s.active ∨ (s.latch.xx || s.latch.xy || s.latch.xz) = true) : Moves i s u → Moves i s (u.setReg c n v)
  | drawn {u : State} : Moves i s u → Moves i s u.drawn
  | flags {u : State} (wf : Bool) (w : FlagWrite) : Moves i s u → Moves i s (u.writeFlags s.active wf w)
  | creg {u : State} (cond : BitVec 3) (n : CRegNo) (y : RegNo) (v : Word) (h : i = .wrc cond n y)
      (hd : (s.getCr s.active crDenyW).getLsbD n.toNat = false) (hr : setsReserved n v = false) :
      Moves i s u → Moves i s (u.setCr s.active n v)
  | mem {u : State} (pa : PhysAddr) (b : Byte) : Moves i s u → Moves i s (u.putByte pa b)
  | portRead {u : State} (p : PortNo) : Moves i s u → Moves i s (u.portReadDone p)
  | portWrite {u : State} (p : PortNo) (b : Byte) : Moves i s u → Moves i s (u.portWriteDone p b)
  | swap {u : State} : Moves i s u → Moves i s u.swapContexts

/-- An execute step that goes on (done, raised or stopped) does so in a state it can have moved to. -/
def Effect.Within (i : Instr) (s : State) : Effect → Prop
  | .done u => Moves i s u
  | .raise _ u => Moves i s u
  | .halt u => Moves i s u
  | .fault _ => True
  | .refuse _ => True

theorem bankOf_cross (s : State) (b : Bool) (h : b = true → (s.latch.xx || s.latch.xy || s.latch.xz) = true) :
    s.bankOf b = s.active ∨ (s.latch.xx || s.latch.xy || s.latch.xz) = true := by
  cases b
  · exact .inl rfl
  · exact .inr (h rfl)

theorem rx_cross (s : State) (x : RegNo) :
    (s.rx x).bank = s.active ∨ (s.latch.xx || s.latch.xy || s.latch.xz) = true :=
  bankOf_cross s _ (fun h => by simp [h])

theorem rd_cross (s : State) (x : RegNo) :
    (s.rd x).bank = s.active ∨ (s.latch.xx || s.latch.xy || s.latch.xz) = true :=
  bankOf_cross s _ (fun h => by simp [h])

theorem rdx_cross (s : State) (x : RegNo) :
    (s.rdx x).bank = s.active ∨ (s.latch.xx || s.latch.xy || s.latch.xz) = true :=
  bankOf_cross s _ (fun h => by simp [h])

theorem oneResult_within (i : Instr) (f : Word → Word → Result) (x : RegNo) (v : Vy) (wf : Bool) (s : State) :
    (oneResult f x v wf s).Within i s := .flags _ _ (.reg _ _ _ (rd_cross s x) .refl)

theorem twoResults_within (i : Instr) (f : Word → Word → PairResult) (x : RegNo) (v : Vy) (wf : Bool) (s : State) :
    (twoResults f x v wf s).Within i s := by
  unfold twoResults
  dsimp only
  split
  · trivial
  · exact .flags _ _ (.reg _ _ _ (rdx_cross s x) (.reg _ _ _ (rd_cross s x) .refl))

/-- An access continued: if every way it goes on stays within, so does the whole. -/
theorem thenDo_within {α : Type} {i : Instr} {s t r : State} {x : Access α} {k : α → Effect}
    (ht : Moves i s t) (hk : ∀ a, x = .ok a → (k a).Within i s) : (x.thenDo t r k).Within i s := by
  cases x with
  | ok a => exact hk a rfl
  | exc e => exact ht
  | unwritten pa => trivial

theorem writeWord_moves {i : Instr} {s u t : State} {va v : Word} (hu : Moves i s u) (h : u.writeWord va v = .ok t) :
    Moves i s t := by
  obtain ⟨_, pa, _, _, _, rfl⟩ := writeWord_ok.1 h
  exact .mem _ _ (.mem _ _ hu)

theorem pushAll_within {i : Instr} {s : State} {ptr : RegRef}
    (hp : ptr.bank = s.active ∨ (s.latch.xx || s.latch.xy || s.latch.xz) = true) (ns : List RegNo) {u : State}
    (hu : Moves i s u) : (pushAll ptr ns u).Within i s := by
  induction ns generalizing u with
  | nil => exact hu
  | cons n ns ih =>
    refine thenDo_within (.reg _ _ _ hp (.drawn hu)) fun t ht => ih ?_
    exact writeWord_moves (.reg _ _ _ hp hu) ht

theorem popAll_within {i : Instr} {s : State} {ptr : RegRef}
    (hp : ptr.bank = s.active ∨ (s.latch.xx || s.latch.xy || s.latch.xz) = true) (ns : List RegNo) {u : State}
    (hu : Moves i s u) (ha : u.active = s.active) : (popAll ptr ns u).Within i s := by
  induction ns generalizing u with
  | nil => exact hu
  | cons n ns ih =>
    refine thenDo_within (.reg _ _ _ hp (.drawn hu)) fun t ht => ?_
    obtain ⟨w, _, h⟩ := andThen_ok.1 ht
    cases h
    exact ih (.reg _ _ _ hp (.reg _ _ _ (.inl ha) hu)) (by simp [State.setRef, ha])

/-- What `exec` of an instruction can answer as a next state: a prefix is noted; otherwise the execute step moved, if at
all, with no denied cross-bank prefix, and the step completed, raised an exception or stopped at a breakpoint. -/
inductive ExecNext (i : Instr) (s t : State) : Prop where
  | noted (hp : i.isPrefix = true) (l : Latch) (h : t = s.setLatch l)
  | completed (u : State) (h : Moves i s u) (hu : u = s ∨ s.deniesCross = false) (e : t = u.complete s.active)
  | raised (u : State) (x : Exc) (h : Moves i s u) (hu : u = s ∨ s.deniesCross = false)
      (e : t = u.takeException s.active x)
  | stopped (u : State) (h : Moves i s u) (hu : u = s ∨ s.deniesCross = false) (e : t = u.stopAtBreakpoint)

theorem runInsn_next {i : Instr} {sh : Shape} {cond : BitVec 3} {body : Bool → State → Effect} {s t : State}
    (hb : (body (s.writeBack cond) s).Within i s) (h : runInsn sh cond body s = .next t) : ExecNext i s t := by
  rcases runInsn_cases sh cond body s with ⟨-, e⟩ | ⟨-, -, -, e⟩ | ⟨-, -, -, -, e⟩ | ⟨hc, -, -, -, -, e⟩ |
    ⟨-, -, -, -, -, e⟩ <;> rw [e] at h
  · exact .raised s _ .refl (.inl rfl) (Host.Outcome.next.inj h).symm
  · cases h
  · cases h
  · revert hb h
    cases body (s.writeBack cond) s with
    | done u => exact fun hb h => .completed u hb (.inr hc) (Host.Outcome.next.inj h).symm
    | raise x u => exact fun hb h => .raised u x hb (.inr hc) (Host.Outcome.next.inj h).symm
    | halt u => exact fun hb h => .stopped u hb (.inr hc) (Host.Outcome.next.inj h).symm
    | fault f => exact fun _ h => by cases h
    | refuse r => exact fun _ h => by cases h
  · exact .completed s .refl (.inl rfl) (Host.Outcome.next.inj h).symm

theorem rdcEffect_within (i : Instr) (x : RegNo) (n : CRegNo) (wf : Bool) (s : State) :
    (rdcEffect x n wf s).Within i s := by
  unfold rdcEffect
  dsimp only
  split
  · exact .refl
  · split
    · exact .flags _ _ (.drawn (.reg _ _ _ (rx_cross s x) (.drawn .refl)))
    · split
      · exact .flags _ _ (.reg _ _ _ (rx_cross s x) (.drawn .refl))
      · exact .flags _ _ (.reg _ _ _ (rx_cross s x) .refl)

theorem wrcEffect_within (cond : BitVec 3) (n : CRegNo) (y : RegNo) (wf : Bool) (s : State) :
    (wrcEffect n y wf s).Within (.wrc cond n y) s := by
  unfold wrcEffect
  dsimp only
  split
  · exact .refl
  · rename_i hd
    split
    · trivial
    · split
      · trivial
      · rename_i hr
        split
        · exact .flags _ _ (.drawn .refl)
        · exact .flags _ _ (.creg cond n y _ rfl (by simpa using hd) (by simpa using hr) .refl)

theorem rdbEffect_within (i : Instr) (x : RegNo) (p : PortNo) (wf : Bool) (s : State) :
    (rdbEffect x p wf s).Within i s := by
  unfold rdbEffect
  dsimp only
  split
  · exact .flags _ _ (.reg _ _ _ (rx_cross s x) (.portRead p .refl))
  · exact .flags _ _ (.drawn (.reg _ _ _ (rx_cross s x) (.drawn (.portRead p .refl))))

/-- Every next state of `exec`. -/
theorem exec_next {i : Instr} {s t : State} (h : exec i s = .next t) : ExecNext i s t := by
  cases i with
  | add c x v => exact runInsn_next (oneResult_within _ _ _ _ _ _) h
  | sub c x v => exact runInsn_next (oneResult_within _ _ _ _ _ _) h
  | xor c x v => exact runInsn_next (oneResult_within _ _ _ _ _ _) h
  | and c x v => exact runInsn_next (oneResult_within _ _ _ _ _ _) h
  | orr c x v => exact runInsn_next (oneResult_within _ _ _ _ _ _) h
  | shl c x v => exact runInsn_next (body := shiftEffect shlResult x v) (oneResult_within _ _ _ _ _ _) h
  | sru c x v => exact runInsn_next (body := shiftEffect sruResult x v) (oneResult_within _ _ _ _ _ _) h
  | srs c x v => exact runInsn_next (body := shiftEffect srsResult x v) (oneResult_within _ _ _ _ _ _) h
  | inc c x k => exact runInsn_next (oneResult_within _ _ _ _ _ _) h
  | mlu c x v => exact runInsn_next (body := mulEffect false x v) (twoResults_within _ _ _ _ _ _) h
  | mls c x v => exact runInsn_next (body := mulEffect true x v) (twoResults_within _ _ _ _ _ _) h
  | dvu c x v =>
    refine runInsn_next (body := dvuEffect x v) ?_ h
    unfold dvuEffect
    split
    · trivial
    · exact twoResults_within _ _ _ _ _ _
  | dvs c x v =>
    refine runInsn_next (body := dvsEffect x v) ?_ h
    unfold dvsEffect
    split
    · trivial
    · split
      · trivial
      · exact twoResults_within _ _ _ _ _ _
  | mov c x v => exact runInsn_next (body := movEffect x v) (.flags _ _ (.reg _ _ _ (rx_cross s x) .refl)) h
  | cmp c x v => exact runInsn_next (body := cmpEffect x v) (.flags _ _ .refl) h
  | rdc c x n => exact runInsn_next (rdcEffect_within _ x n _ s) h
  | wrc c n y => exact runInsn_next (wrcEffect_within c n y _ s) h
  | ldw c x v =>
    exact runInsn_next (body := ldwEffect x v)
      (thenDo_within .refl fun w _ => .flags _ _ (.reg _ _ _ (rx_cross s x) .refl)) h
  | ldb c x v =>
    exact runInsn_next (body := ldbEffect x v)
      (thenDo_within .refl fun w _ => .flags _ _ (.reg _ _ _ (rx_cross s x) .refl)) h
  | stw c x v =>
    exact runInsn_next (body := stwEffect x v) (thenDo_within .refl fun u hu => writeWord_moves .refl hu) h
  | stb c x v =>
    refine runInsn_next (body := stbEffect x v) (thenDo_within .refl fun u hu => ?_) h
    obtain ⟨pa, _, _, rfl⟩ := writeByte_ok.1 hu
    exact .mem _ _ .refl
  | bra c x v =>
    exact runInsn_next (body := braEffect x v) (.reg _ _ _ (.inl (by simp)) (.reg _ _ _ (.inl rfl) .refl)) h
  | brr c w => exact runInsn_next (body := brrEffect w) (.reg _ _ _ (.inl rfl) .refl) h
  | fca c x v =>
    refine runInsn_next (body := fcaEffect x v) ?_ h
    unfold fcaEffect
    split
    · trivial
    · exact .reg _ _ _ (.inl (by simp [State.linked])) (.reg _ _ _ (.inl (by simp [State.linked]))
        (.reg _ _ _ (.inl rfl) (.reg _ _ _ (.inl rfl) .refl)))
  | fcr c w =>
    exact runInsn_next (body := fcrEffect w)
      (.reg _ _ _ (.inl rfl) (.reg _ _ _ (.inl rfl) (.reg _ _ _ (.inl rfl) .refl))) h
  | rdb c x p => exact runInsn_next (rdbEffect_within _ x p _ s) h
  | wrb c p v => exact runInsn_next (body := wrbEffect p v) (.flags _ _ (.portWrite _ _ .refl)) h
  | psh c set => exact runInsn_next (body := pshEffect set) (pushAll_within (rd_cross s regSP) _ .refl) h
  | pop c set => exact runInsn_next (body := popEffect set) (popAll_within (rd_cross s regSP) _ .refl rfl) h
  | bpt c =>
    refine runInsn_next (body := bptEffect) ?_ h
    unfold bptEffect
    split <;> exact .refl
  | hlt c => exact runInsn_next (body := hltEffect) (.swap .refl) h
  | nop c => exact runInsn_next (body := nopEffect) .refl h
  | xc | tf | xx | xy | xz => exact .noted rfl _ (Host.Outcome.next.inj h).symm
  | dr d => exact .noted rfl _ (Host.Outcome.next.inj h).symm
  | reservedC5 => cases h
  | reservedC6 p => cases h
  | reservedC8 p => cases h

/-- No execute step changes the parameters. -/
theorem moves_cfg {i : Instr} {s u : State} (h : Moves i s u) : u.cfg = s.cfg := by
  induction h <;> simp_all

/-- No instruction changes the parameters. -/
theorem exec_cfg {i : Instr} {s t : State} (h : exec i s = .next t) : t.cfg = s.cfg := by
  cases exec_next h with
  | noted _ l e => rw [e]; rfl
  | completed u hu _ e => rw [e, complete_cfg, moves_cfg hu]
  | raised u x hu _ e => rw [e, takeException_cfg, moves_cfg hu]
  | stopped u hu _ e => rw [e]; exact (endStep_cfg u _).trans (moves_cfg hu)

end Sys2Proof.Machine
end

