-- ==== Sys2Proof/Laws/PerInstr.lean ====
section
/-! SUPPORT. A statement about every row of the opcode table, made per constructor: the length of its encoding is the
one R92 gives its format. -/

namespace Sys2Proof.Laws

/-- The operand bytes of a value operand: the regpair byte, and the bytes of an immediate (R85, R92, R221). -/
def EncodedLength.valueBytes (len : ImmLen) : Vy → Nat
  | .reg _ => 1
  | .imm _ => 1 + len.bytes

/-- The operand bytes of a row (R90, R92): a row of format `RV` has a value operand, whose immediate has two bytes but for
`WRB`, where `WRB_IMM_BYTES` (here `k`) says (R221); formats `RN`, `I16`, `S16` and `OP` have 1, 2, 2 and 0; a prefix byte
has none. -/
def EncodedLength.operandBytes (k : ImmLen) : Instr → Nat
  | .add _ _ v | .sub _ _ v | .mlu _ _ v | .mls _ _ v | .dvu _ _ v | .dvs _ _ v | .xor _ _ v | .and _ _ v
  | .orr _ _ v | .shl _ _ v | .sru _ _ v | .srs _ _ v | .mov _ _ v | .cmp _ _ v | .ldw _ _ v | .stw _ _ v
  | .ldb _ _ v | .stb _ _ v | .bra _ _ v | .fca _ _ v => EncodedLength.valueBytes .two v
  | .wrb _ _ v => EncodedLength.valueBytes k v
  | .rdc _ _ _ | .wrc _ _ _ | .rdb _ _ _ | .inc _ _ _ => 1
  | .brr _ _ | .fcr _ _ | .psh _ _ | .pop _ _ => 2
  | .bpt _ | .hlt _ | .nop _ | .xc | .tf | .xx | .xy | .xz | .dr _ | .reservedC5 | .reservedC6 _
  | .reservedC8 _ => 0

/-- The encoding is the row's first byte and its operand bytes (R92). -/
def EncodedLength.Statement (i : Instr) : Prop :=
  ∀ k : ImmLen, (encode k i).length = 1 + EncodedLength.operandBytes k i

/-- Format `RV`, for any opcode. -/
theorem EncodedLength.of_rv (len : ImmLen) (op : BitVec 5) (c : BitVec 3) (x : BitVec 4) (v : Vy) :
    (encodeRv len op c x v).length = 1 + EncodedLength.valueBytes len v := by cases v <;> cases len <;> rfl

theorem EncodedLength.add (c : BitVec 3) (x : RegNo) (v : Vy) : EncodedLength.Statement (.add c x v) :=
  fun _ => EncodedLength.of_rv _ _ c x v
theorem EncodedLength.sub (c : BitVec 3) (x : RegNo) (v : Vy) : EncodedLength.Statement (.sub c x v) :=
  fun _ => EncodedLength.of_rv _ _ c x v
theorem EncodedLength.mlu (c : BitVec 3) (x : RegNo) (v : Vy) : EncodedLength.Statement (.mlu c x v) :=
  fun _ => EncodedLength.of_rv _ _ c x v
theorem EncodedLength.mls (c : BitVec 3) (x : RegNo) (v : Vy) : EncodedLength.Statement (.mls c x v) :=
  fun _ => EncodedLength.of_rv _ _ c x v
theorem EncodedLength.dvu (c : BitVec 3) (x : RegNo) (v : Vy) : EncodedLength.Statement (.dvu c x v) :=
  fun _ => EncodedLength.of_rv _ _ c x v
theorem EncodedLength.dvs (c : BitVec 3) (x : RegNo) (v : Vy) : EncodedLength.Statement (.dvs c x v) :=
  fun _ => EncodedLength.of_rv _ _ c x v
theorem EncodedLength.xor (c : BitVec 3) (x : RegNo) (v : Vy) : EncodedLength.Statement (.xor c x v) :=
  fun _ => EncodedLength.of_rv _ _ c x v
theorem EncodedLength.and (c : BitVec 3) (x : RegNo) (v : Vy) : EncodedLength.Statement (.and c x v) :=
  fun _ => EncodedLength.of_rv _ _ c x v
theorem EncodedLength.orr (c : BitVec 3) (x : RegNo) (v : Vy) : EncodedLength.Statement (.orr c x v) :=
  fun _ => EncodedLength.of_rv _ _ c x v
theorem EncodedLength.shl (c : BitVec 3) (x : RegNo) (v : Vy) : EncodedLength.Statement (.shl c x v) :=
  fun _ => EncodedLength.of_rv _ _ c x v
theorem EncodedLength.sru (c : BitVec 3) (x : RegNo) (v : Vy) : EncodedLength.Statement (.sru c x v) :=
  fun _ => EncodedLength.of_rv _ _ c x v
theorem EncodedLength.srs (c : BitVec 3) (x : RegNo) (v : Vy) : EncodedLength.Statement (.srs c x v) :=
  fun _ => EncodedLength.of_rv _ _ c x v
theorem EncodedLength.mov (c : BitVec 3) (x : RegNo) (v : Vy) : EncodedLength.Statement (.mov c x v) :=
  fun _ => EncodedLength.of_rv _ _ c x v
theorem EncodedLength.cmp (c : BitVec 3) (x : RegNo) (v : Vy) : EncodedLength.Statement (.cmp c x v) :=
  fun _ => EncodedLength.of_rv _ _ c x v
theorem EncodedLength.rdc (c : BitVec 3) (x : RegNo) (n : CRegNo) : EncodedLength.Statement (.rdc c x n) := fun _ => rfl
theorem EncodedLength.wrc (c : BitVec 3) (n : CRegNo) (y : RegNo) : EncodedLength.Statement (.wrc c n y) := fun _ => rfl
theorem EncodedLength.ldw (c : BitVec 3) (x : RegNo) (v : Vy) : EncodedLength.Statement (.ldw c x v) :=
  fun _ => EncodedLength.of_rv _ _ c x v
theorem EncodedLength.stw (c : BitVec 3) (x : RegNo) (v : Vy) : EncodedLength.Statement (.stw c x v) :=
  fun _ => EncodedLength.of_rv _ _ c x v
theorem EncodedLength.ldb (c : BitVec 3) (x : RegNo) (v : Vy) : EncodedLength.Statement (.ldb c x v) :=
  fun _ => EncodedLength.of_rv _ _ c x v
theorem EncodedLength.stb (c : BitVec 3) (x : RegNo) (v : Vy) : EncodedLength.Statement (.stb c x v) :=
  fun _ => EncodedLength.of_rv _ _ c x v
theorem EncodedLength.bra (c : BitVec 3) (x : RegNo) (v : Vy) : EncodedLength.Statement (.bra c x v) :=
  fun _ => EncodedLength.of_rv _ _ c x v
theorem EncodedLength.brr (c : BitVec 3) (w : Word) : EncodedLength.Statement (.brr c w) := fun _ => rfl
theorem EncodedLength.fca (c : BitVec 3) (x : RegNo) (v : Vy) : EncodedLength.Statement (.fca c x v) :=
  fun _ => EncodedLength.of_rv _ _ c x v
theorem EncodedLength.fcr (c : BitVec 3) (w : Word) : EncodedLength.Statement (.fcr c w) := fun _ => rfl
theorem EncodedLength.rdb (c : BitVec 3) (x : RegNo) (p : PortNo) : EncodedLength.Statement (.rdb c x p) := fun _ => rfl
theorem EncodedLength.wrb (c : BitVec 3) (p : PortNo) (v : Vy) : EncodedLength.Statement (.wrb c p v) :=
  fun k => EncodedLength.of_rv k _ c p v
theorem EncodedLength.psh (c : BitVec 3) (w : Word) : EncodedLength.Statement (.psh c w) := fun _ => rfl
theorem EncodedLength.pop (c : BitVec 3) (w : Word) : EncodedLength.Statement (.pop c w) := fun _ => rfl
theorem EncodedLength.inc (c : BitVec 3) (x : RegNo) (k : BitVec 4) : EncodedLength.Statement (.inc c x k) := fun _ => rfl
theorem EncodedLength.bpt (c : BitVec 3) : EncodedLength.Statement (.bpt c) := fun _ => rfl
theorem EncodedLength.hlt (c : BitVec 3) : EncodedLength.Statement (.hlt c) := fun _ => rfl
theorem EncodedLength.nop (c : BitVec 3) : EncodedLength.Statement (.nop c) := fun _ => rfl
theorem EncodedLength.xc : EncodedLength.Statement .xc := fun _ => rfl
theorem EncodedLength.tf : EncodedLength.Statement .tf := fun _ => rfl
theorem EncodedLength.xx : EncodedLength.Statement .xx := fun _ => rfl
theorem EncodedLength.xy : EncodedLength.Statement .xy := fun _ => rfl
theorem EncodedLength.xz : EncodedLength.Statement .xz := fun _ => rfl
theorem EncodedLength.dr (d : RegNo) : EncodedLength.Statement (.dr d) := fun _ => rfl
theorem EncodedLength.reservedC5 : EncodedLength.Statement .reservedC5 := fun _ => rfl
theorem EncodedLength.reservedC6 (p : BitVec 1) : EncodedLength.Statement (.reservedC6 p) := fun _ => rfl
theorem EncodedLength.reservedC8 (p : BitVec 3) : EncodedLength.Statement (.reservedC8 p) := fun _ => rfl

end Sys2Proof.Laws
end

