-- ==== Sys2Proof/Laws/Stack.lean ====
section
/-! SUPPORT. Push and pop (R184, R185): one transfer of the machine is one transfer of the claims, and a chain of them is
what `pushAll` and `popAll` go through. -/

namespace Sys2Proof.Machine

/-- The order of `POP`, written out (R185). -/
theorem regsOf_eq_ascending (set : Word) : regsOf set = ascending set := by
  have : (List.range 16) = [0, 1, 2, 3, 4, 5, 6, 7, 8, 9, 10, 11, 12, 13, 14, 15] := rfl
  unfold regsOf ascending
  rw [this]
  rw [show [0#4, 1#4, 2#4, 3#4, 4#4, 5#4, 6#4, 7#4, 8#4, 9#4, 10#4, 11#4, 12#4, 13#4, 14#4, 15#4] =
    [0, 1, 2, 3, 4, 5, 6, 7, 8, 9, 10, 11, 12, 13, 14, 15].map (BitVec.ofNat 4) from rfl, List.filter_map]
  congr 1

/-- The order of `PSH`, written out (R184). -/
theorem regsOf_reverse_eq_descending (set : Word) : (regsOf set).reverse = descending set := by
  rw [regsOf_eq_ascending, ascending, descending, ← List.filter_reverse]
  rfl

theorem loByte_eq (w : Word) : loByte w = BitVec.ofNat 8 w.toNat := by
  apply BitVec.eq_of_toNat_eq; simp [loByte]

theorem hiByte_eq (w : Word) : hiByte w = BitVec.ofNat 8 (w.toNat / 256) := by
  apply BitVec.eq_of_toNat_eq; simp [hiByte, Nat.shiftRight_eq_div_pow]

theorem wordOf_ofNat_bytes (w : Word) : wordOf (BitVec.ofNat 8 w.toNat) (BitVec.ofNat 8 (w.toNat / 256)) = w := by
  rw [← loByte_eq, ← hiByte_eq]
  exact (BitVec.extractLsb'_append_extractLsb'_eq_extractLsb' (w := 16) (x := w) (by omega)).trans (by simp)

theorem loByte_wordOf (lo hi : Byte) : loByte (wordOf lo hi) = lo := BitVec.extractLsb'_append_eq_right

theorem hiByte_wordOf (lo hi : Byte) : hiByte (wordOf lo hi) = hi := BitVec.extractLsb'_append_eq_left

theorem even_iff (w : Word) : w.toNat % 2 = 0 ↔ w.getLsbD 0 = false := by
  rw [BitVec.getLsbD, Nat.testBit_zero]; simp

/-- One push of the machine that goes through is one push of the claims (R184). -/
theorem pushOne_iff (ptr : RegRef) (n : RegNo) (s u : State) : s.pushOne ptr n = .ok u ↔ PushesOne ptr n s u := by
  unfold State.pushOne PushesOne State.pointerDown State.setRef State.getRef State.wordAt State.withWord
  rw [writeWord_ok]
  simp only [even_iff, loByte_eq, hiByte_eq]
  constructor
  · rintro ⟨h0, pa, h1, h2, h3, h⟩
    exact ⟨_, pa, rfl, ⟨h0, h1, h2, h3⟩, h⟩
  · rintro ⟨_, pa, rfl, ⟨h0, h1, h2, h3⟩, h⟩
    exact ⟨h0, pa, h1, h2, h3, h⟩

/-- A word read is the word that the claims say memory holds (R63). -/
theorem readWord_iff (s : State) (va w : Word) :
    s.readWord va = .ok w ↔ ∃ pa, s.wordAt .read va pa ∧ s.holdsWord pa w := by
  rw [readWord_ok]
  unfold State.wordAt State.holdsWord
  simp only [even_iff, physRead_ok]
  constructor
  · rintro ⟨h0, pa, lo, hi, h1, ⟨h2, h3⟩, ⟨h4, h5⟩, rfl⟩
    refine ⟨pa, ⟨h0, h1, h2, h4⟩, ?_, ?_⟩
    · rw [← loByte_eq, loByte_wordOf]; exact h3
    · rw [← hiByte_eq, hiByte_wordOf]; exact h5
  · rintro ⟨pa, ⟨h0, h1, h2, h4⟩, h3, h5⟩
    exact ⟨h0, pa, _, _, h1, ⟨h2, h3⟩, ⟨h4, h5⟩, (wordOf_ofNat_bytes w).symm⟩

/-- A word read raises what the claims say it raises (R54, R63). -/
theorem readWord_exc (s : State) (va : Word) (e : Exc) : s.readWord va = .exc e ↔ s.wordRaises .read va e := by
  unfold State.readWord State.wordRaises
  rw [even_iff, show va.toNat % 2 = 1 ↔ va.getLsbD 0 = true by
    rw [← Bool.not_eq_false, ← even_iff, Nat.mod_two_not_eq_zero]]
  cases va.getLsbD 0 with
  | true => simp [eq_comm (a := e)]
  | false =>
    simp only [Bool.false_eq_true, if_false, andThen_exc, physRead_ok, physRead_exc, false_and, false_or, true_and]
    refine or_congr_right (exists_congr fun pa => and_congr_right fun _ => ?_)
    cases physMapHas s.cfg.physMap pa.toNat .read <;> cases Memory.read s.mem pa.toNat <;>
      simp [and_comm]

/-- A word write raises what the claims say it raises (R54, R64). -/
theorem writeWord_exc (s : State) (va w : Word) (e : Exc) : s.writeWord va w = .exc e ↔ s.wordRaises .write va e := by
  unfold State.writeWord State.wordRaises
  rw [even_iff, show va.toNat % 2 = 1 ↔ va.getLsbD 0 = true by
    rw [← Bool.not_eq_false, ← even_iff, Nat.mod_two_not_eq_zero]]
  cases va.getLsbD 0 with
  | true => simp [eq_comm (a := e)]
  | false =>
    simp only [Bool.false_eq_true, if_false, andThen_exc, false_and, false_or, true_and]
    refine or_congr_right (exists_congr fun pa => and_congr_right fun _ => ?_)
    cases physMapHas s.cfg.physMap pa.toNat .write <;> cases physMapHas s.cfg.physMap (pa + 1#24).toNat .write <;>
      simp_all [eq_comm]

/-- A word read stops at the byte that the claims say it stops at (R49). -/
theorem readWord_stops {s : State} {va : Word} {m : Nat} (h : s.wordStops .read va m) : s.readWord va = .unwritten m := by
  obtain ⟨h0, h⟩ := h
  unfold State.readWord
  rw [if_neg (by rw [even_iff] at h0; simpa using h0)]
  rcases h with h | ⟨-, pa, h1, h2, ⟨h3, rfl⟩ | ⟨h3, h4, h5, rfl⟩⟩
  · rw [h]; rfl
  · rw [h1]; simp [State.physRead, h2, h3]
  · obtain ⟨b, hb⟩ := Option.ne_none_iff_exists'.1 h3
    rw [h1]
    simp at h4 h5
    simp [State.physRead, h2, hb, h4, h5]

/-- A word write stops only in the page table (R49). -/
theorem writeWord_stops {s : State} {va : Word} {m : Nat} (w : Word) (h : s.wordStops .write va m) :
    s.writeWord va w = .unwritten m := by
  obtain ⟨h0, h⟩ := h
  unfold State.writeWord
  rw [if_neg (by rw [even_iff] at h0; simpa using h0)]
  rcases h with h | ⟨h, -⟩
  · rw [h]; rfl
  · cases h

/-- One pop of the machine that goes through is one pop of the claims (R185). -/
theorem popOne_iff (ptr : RegRef) (n : RegNo) (s u : State) : s.popOne ptr n = .ok u ↔ PopsOne ptr n s u := by
  unfold State.popOne PopsOne
  rw [andThen_ok]
  constructor
  · rintro ⟨w, hw, h⟩
    obtain ⟨pa, h1, h2⟩ := (readWord_iff _ _ _).1 hw
    exact ⟨w, _, pa, h1, h2, rfl, (Access.ok.inj h).symm⟩
  · rintro ⟨w, _, pa, h1, h2, rfl, rfl⟩
    exact ⟨w, (readWord_iff _ _ _).2 ⟨pa, h1, h2⟩, rfl⟩

/-- Pushes that go through leave the rest of the list to do (R184). -/
theorem pushAll_chain {ptr : RegRef} {ns : List RegNo} (ms : List RegNo) {s u : State}
    (h : Chain (PushesOne ptr) ns s u) : pushAll ptr (ns ++ ms) s = pushAll ptr ms u := by
  induction ns generalizing s with
  | nil => cases h; rfl
  | cons n ns ih =>
    obtain ⟨v, h1, h2⟩ := h
    rw [List.cons_append, pushAll, (pushOne_iff ptr n s v).2 h1]
    exact ih h2

/-- Pops that go through leave the rest of the list to do (R185). -/
theorem popAll_chain {ptr : RegRef} {ns : List RegNo} (ms : List RegNo) {s u : State}
    (h : Chain (PopsOne ptr) ns s u) : popAll ptr (ns ++ ms) s = popAll ptr ms u := by
  induction ns generalizing s with
  | nil => cases h; rfl
  | cons n ns ih =>
    obtain ⟨v, h1, h2⟩ := h
    rw [List.cons_append, popAll, (popOne_iff ptr n s v).2 h1]
    exact ih h2

end Sys2Proof.Machine
end

