-- ==== Sys2Proof/Laws/Timer.lean ====
section
/-! SUPPORT. An execute step that is done does not depend on `TIMER`, unless it is an `RDC` or `WRC` of that register: at
another value of `TIMER` it is done in the same way (R123). `exec_at_timer` says so of `exec`, and `complete_expires` says what
the completion that takes `TIMER` from 1 to 0 leaves. -/

namespace Sys2Proof.Machine

/-- The machine with `TIMER` of a context set. -/
def State.setTimer (s : State) (c : CtxId) (v : Word) : State := s.setCr c crTimer v

variable (s : State) (c : CtxId) (v : Word)

@[simp] theorem setTimer_active : (s.setTimer c v).active = s.active := setCr_active ..
@[simp] theorem setTimer_mem : (s.setTimer c v).mem = s.mem := setCr_mem ..
@[simp] theorem setTimer_ports : (s.setTimer c v).ports = s.ports := setCr_ports ..
@[simp] theorem setTimer_latch : (s.setTimer c v).latch = s.latch := setCr_latch ..
@[simp] theorem setTimer_draws : (s.setTimer c v).draws = s.draws := setCr_draws ..
@[simp] theorem setTimer_cfg : (s.setTimer c v).cfg = s.cfg := setCr_cfg ..
@[simp] theorem getReg_setTimer (d : CtxId) (i : RegNo) : (s.setTimer c v).getReg d i = s.getReg d i := getReg_setCr ..
@[simp] theorem getCr_setTimer (d : CtxId) {n : CRegNo} (h : n ≠ crTimer) :
    (s.setTimer c v).getCr d n = s.getCr d n := getCr_setCr_ne _ _ _ _ h
@[simp] theorem getCr_setTimer_self : (s.setTimer c v).getCr c crTimer = v := getCr_setCr_self ..

theorem setCr_getCr (n : CRegNo) : s.setCr c n (s.getCr c n) = s := by
  unfold State.setCr State.getCr
  generalize Params.home s.cfg c n = h
  cases h <;> simp [State.setCtx, State.ctx]

/-! ## The updates of an instruction, with `TIMER` set before or after -/

theorem setCr_setReg (d : CtxId) (n : CRegNo) (i : RegNo) (w : Word) :
    (s.setCr c n v).setReg d i w = (s.setReg d i w).setCr c n v := by
  unfold State.setCr State.setReg
  generalize hh : Params.home s.cfg c n = h
  cases h <;> cases d <;> simp [State.setCtx, State.ctx, hh, Context.setReg] <;> split <;> rfl

@[simp] theorem setTimer_setReg (d : CtxId) (i : RegNo) (w : Word) :
    (s.setTimer c v).setReg d i w = (s.setReg d i w).setTimer c v := setCr_setReg ..

@[simp] theorem setTimer_setCr (d : CtxId) {n : CRegNo} (w : Word) (h : n ≠ crTimer) :
    (s.setTimer c v).setCr d n w = (s.setCr d n w).setTimer c v := by
  have hn : crTimer.toNat ≠ n.toNat := fun e => h (BitVec.eq_of_toNat_eq e.symm)
  unfold State.setTimer State.setCr
  simp only [setCtx_cfg]
  generalize Params.home s.cfg c crTimer = a
  generalize Params.home s.cfg d n = b
  cases a <;> cases b <;> simp [State.setCtx, State.ctx] <;> exact Vector.set_comm _ _ hn

@[simp] theorem setTimer_drawn : (s.setTimer c v).drawn = s.drawn.setTimer c v := by
  unfold State.setTimer State.setCr
  generalize hh : Params.home s.cfg c crTimer = h
  cases h <;> simp [State.drawn, State.setCtx, State.ctx, hh]

@[simp] theorem setTimer_freeWord : (s.setTimer c v).freeWord = s.freeWord := by simp [State.freeWord]

@[simp] theorem setTimer_putByte (pa : PhysAddr) (b : Byte) :
    (s.setTimer c v).putByte pa b = (s.putByte pa b).setTimer c v := by
  unfold State.setTimer State.setCr
  generalize hh : Params.home s.cfg c crTimer = h
  cases h <;> simp [State.putByte, State.setCtx, State.ctx, hh]

@[simp] theorem setTimer_portReadDone (p : PortNo) :
    (s.setTimer c v).portReadDone p = (s.portReadDone p).setTimer c v := by
  unfold State.setTimer State.setCr
  generalize hh : Params.home s.cfg c crTimer = h
  cases h <;> simp [State.portReadDone, State.portAnswer, State.setCtx, State.ctx, hh]

@[simp] theorem setTimer_portWriteDone (p : PortNo) (b : Byte) :
    (s.setTimer c v).portWriteDone p b = (s.portWriteDone p b).setTimer c v := by
  unfold State.setTimer State.setCr
  generalize hh : Params.home s.cfg c crTimer = h
  cases h <;> simp [State.portWriteDone, State.portAccepts, State.setCtx, State.ctx, hh]

@[simp] theorem setTimer_swapContexts : (s.setTimer c v).swapContexts = s.swapContexts.setTimer c v := by
  unfold State.setTimer State.setCr
  generalize hh : Params.home s.cfg c crTimer = h
  cases h <;> simp [State.swapContexts, State.setCtx, State.ctx, hh]

@[simp] theorem setTimer_writeFlags (d : CtxId) (wf : Bool) (w : FlagWrite) :
    (s.setTimer c v).writeFlags d wf w = (s.writeFlags d wf w).setTimer c v := by
  have h : crFlags ≠ crTimer := by decide
  cases wf <;> simp [State.writeFlags, State.flags, h]

/-! ## What an execute step reads -/

@[simp] theorem setTimer_flags (d : CtxId) : (s.setTimer c v).flags d = s.flags d := getCr_setTimer s c v d (by decide)
@[simp] theorem setTimer_bankOf (b : Bool) : (s.setTimer c v).bankOf b = s.bankOf b := by simp [State.bankOf]
@[simp] theorem setTimer_rx (x : RegNo) : (s.setTimer c v).rx x = s.rx x := by simp [State.rx]
@[simp] theorem setTimer_ry (y : RegNo) : (s.setTimer c v).ry y = s.ry y := by simp [State.ry]
@[simp] theorem setTimer_rd (x : RegNo) : (s.setTimer c v).rd x = s.rd x := by simp [State.rd]
@[simp] theorem setTimer_rdx (x : RegNo) : (s.setTimer c v).rdx x = s.rdx x := by simp [State.rdx]
@[simp] theorem setTimer_getRef (r : RegRef) : (s.setTimer c v).getRef r = s.getRef r := by simp [State.getRef]
@[simp] theorem setTimer_setRef (r : RegRef) (w : Word) :
    (s.setTimer c v).setRef r w = (s.setRef r w).setTimer c v := by simp [State.setRef]
@[simp] theorem setTimer_drawRef (r : RegRef) : (s.setTimer c v).drawRef r = (s.drawRef r).setTimer c v := by
  simp [State.drawRef, State.drawReg]
@[simp] theorem setTimer_vy (y : Vy) : (s.setTimer c v).vy y = s.vy y := by cases y <;> simp [State.vy]
@[simp] theorem setTimer_effAddr (x : RegNo) (y : Vy) : (s.setTimer c v).effAddr x y = s.effAddr x y := by
  simp [State.effAddr, State.baseDefault]
@[simp] theorem setTimer_portAnswer (p : PortNo) : (s.setTimer c v).portAnswer p = s.portAnswer p := by
  simp [State.portAnswer]
@[simp] theorem setTimer_portAccepts (p : PortNo) (b : Byte) : (s.setTimer c v).portAccepts p b = s.portAccepts p b := by
  simp [State.portAccepts]
@[simp] theorem setTimer_linkOperand (x : RegNo) (y : Vy) : (s.setTimer c v).linkOperand x y = s.linkOperand x y := by
  simp [State.linkOperand]
@[simp] theorem setTimer_membase (mode : AccessMode) : (s.setTimer c v).membase mode = s.membase mode := by
  unfold State.membase
  cases mode <;> rw [setTimer_active] <;> exact getCr_setTimer s c v _ (by decide)
@[simp] theorem setTimer_physRead (kind mode : AccessMode) (va : Word) (pa : PhysAddr) :
    (s.setTimer c v).physRead kind mode va pa = s.physRead kind mode va pa :=
  physRead_congr (setTimer_mem ..) (setTimer_cfg ..) _ _ _ _
@[simp] theorem setTimer_translate (va : Word) (mode : AccessMode) :
    (s.setTimer c v).translate va mode = s.translate va mode :=
  translate_congr (setTimer_mem ..) (setTimer_cfg ..) (setTimer_membase s c v) _ _
@[simp] theorem setTimer_readWord (va : Word) : (s.setTimer c v).readWord va = s.readWord va :=
  readWord_congr (setTimer_mem ..) (setTimer_cfg ..) (setTimer_membase s c v) _
@[simp] theorem setTimer_readByte (va : Word) : (s.setTimer c v).readByte va = s.readByte va := by simp [State.readByte]

/-- The value of an access changed, its exceptions and stops kept. -/
def Access.map {α β : Type} (f : α → β) (x : Access α) : Access β := x.andThen fun a => .ok (f a)

theorem map_andThen {α β γ : Type} (f : β → γ) (x : Access α) (k : α → Access β) :
    (x.andThen k).map f = x.andThen fun a => (k a).map f := by cases x <;> rfl

@[simp] theorem setTimer_writeWord (va w : Word) :
    (s.setTimer c v).writeWord va w = (s.writeWord va w).map (·.setTimer c v) := by
  unfold State.writeWord
  split
  · rfl
  · simp only [map_andThen, setTimer_translate, setTimer_cfg, setTimer_putByte]
    congr 1; funext pa; split <;> rfl

@[simp] theorem setTimer_writeByte (va : Word) (b : Byte) :
    (s.setTimer c v).writeByte va b = (s.writeByte va b).map (·.setTimer c v) := by
  unfold State.writeByte
  simp only [map_andThen, setTimer_translate, setTimer_cfg, setTimer_putByte]
  congr 1; funext pa; split <;> rfl

/-! ## Execute steps -/

/-- `y` is done only where `x` is, and then in the same state but for `TIMER` of `c`, which is `v`. -/
def Effect.DoneAs (c : CtxId) (v : Word) (x y : Effect) : Prop :=
  ∀ u, y = .done u → ∃ t, x = .done t ∧ u = t.setTimer c v

theorem doneAs_done (t : State) : Effect.DoneAs c v (.done t) (.done (t.setTimer c v)) :=
  fun _ h => ⟨t, rfl, (Effect.done.inj h).symm⟩

theorem doneAs_of_ne {x y : Effect} (h : ∀ u, y ≠ .done u) : Effect.DoneAs c v x y := fun u e => absurd e (h u)

theorem doneAs_thenDo {α β : Type} {x : Access α} {y : Access β} {f : α → β} (hy : y = x.map f) (p q p' q' : State)
    {k : α → Effect} {k' : β → Effect} (hk : ∀ a, x = .ok a → Effect.DoneAs c v (k a) (k' (f a))) :
    Effect.DoneAs c v (x.thenDo p q k) (y.thenDo p' q' k') := by
  subst hy
  cases x with
  | ok a => exact hk a rfl
  | exc e => exact doneAs_of_ne c v fun u h => by cases h
  | unwritten pa => exact doneAs_of_ne c v fun u h => by cases h

theorem map_id {α : Type} (x : Access α) : x = x.map id := by cases x <;> rfl

theorem oneResult_timer (f : Word → Word → Result) (x : RegNo) (y : Vy) (wf : Bool) :
    Effect.DoneAs c v (oneResult f x y wf s) (oneResult f x y wf (s.setTimer c v)) := by
  simpa [oneResult] using doneAs_done c v _

theorem twoResults_timer (f : Word → Word → PairResult) (x : RegNo) (y : Vy) (wf : Bool) :
    Effect.DoneAs c v (twoResults f x y wf s) (twoResults f x y wf (s.setTimer c v)) := by
  unfold twoResults
  simp only [setTimer_rd, setTimer_rdx]
  split
  · exact doneAs_of_ne c v fun u h => by cases h
  · simpa using doneAs_done c v _

theorem shiftEffect_timer (f : Word → Nat → Result) (x : RegNo) (y : Vy) (wf : Bool) :
    Effect.DoneAs c v (shiftEffect f x y wf s) (shiftEffect f x y wf (s.setTimer c v)) := by
  unfold shiftEffect
  rw [setTimer_cfg]
  exact oneResult_timer s c v _ x y wf

theorem mulEffect_timer (signed : Bool) (x : RegNo) (y : Vy) (wf : Bool) :
    Effect.DoneAs c v (mulEffect signed x y wf s) (mulEffect signed x y wf (s.setTimer c v)) := by
  unfold mulEffect
  rw [setTimer_cfg]
  exact twoResults_timer s c v _ x y wf

theorem pushAll_timer (ptr : RegRef) (ns : List RegNo) (s : State) :
    Effect.DoneAs c v (pushAll ptr ns s) (pushAll ptr ns (s.setTimer c v)) := by
  induction ns generalizing s with
  | nil => exact doneAs_done c v s
  | cons n ns ih =>
    refine doneAs_thenDo c v (f := (·.setTimer c v)) ?_ _ _ _ _ (fun t _ => ih t)
    simp [State.pushOne, State.pointerDown]

theorem popAll_timer (ptr : RegRef) (ns : List RegNo) (s : State) :
    Effect.DoneAs c v (popAll ptr ns s) (popAll ptr ns (s.setTimer c v)) := by
  induction ns generalizing s with
  | nil => exact doneAs_done c v s
  | cons n ns ih =>
    refine doneAs_thenDo c v (f := (·.setTimer c v)) ?_ _ _ _ _ (fun t _ => ih t)
    unfold State.popOne
    rw [map_andThen]
    simp [Access.map]

theorem rdcEffect_timer (x : RegNo) (n : CRegNo) (wf : Bool) (h : n = crTimer → s.cfg.cregFailRead.getLsbD 13 = true) :
    Effect.DoneAs c v (rdcEffect x n wf s) (rdcEffect x n wf (s.setTimer c v)) := by
  unfold rdcEffect
  simp only [setTimer_active, setTimer_cfg, getCr_setTimer s c v _ (show crDenyR ≠ crTimer by decide)]
  split
  · exact doneAs_of_ne c v fun u h => by cases h
  · split
    · simpa using doneAs_done c v _
    · rename_i hf
      split
      · simpa using doneAs_done c v _
      · have hn : n ≠ crTimer := by rintro rfl; exact hf (h rfl)
        simpa [hn] using doneAs_done c v _

theorem wrcEffect_timer (n : CRegNo) (y : RegNo) (wf : Bool) (h : n = crTimer → s.cfg.cregFailWrite.getLsbD 13 = true) :
    Effect.DoneAs c v (wrcEffect n y wf s) (wrcEffect n y wf (s.setTimer c v)) := by
  unfold wrcEffect
  simp only [setTimer_active, setTimer_cfg, setTimer_getRef, setTimer_ry,
    getCr_setTimer s c v _ (show crDenyW ≠ crTimer by decide)]
  split
  · exact doneAs_of_ne c v fun u h => by cases h
  · split
    · exact doneAs_of_ne c v fun u h => by cases h
    · split
      · exact doneAs_of_ne c v fun u h => by cases h
      · split
        · simpa using doneAs_done c v _
        · rename_i hf
          have hn : n ≠ crTimer := by rintro rfl; exact hf (h rfl)
          simpa [hn] using doneAs_done c v _

theorem rdbEffect_timer (x : RegNo) (p : PortNo) (wf : Bool) :
    Effect.DoneAs c v (rdbEffect x p wf s) (rdbEffect x p wf (s.setTimer c v)) := by
  unfold rdbEffect
  simp only [setTimer_portAnswer]
  split <;> simpa using doneAs_done c v _

/-! ## `exec` -/

/-- An instruction around its execute step: at another value of `TIMER` it completes from the same state but for `TIMER`. -/
theorem runInsn_at_timer {sh : Shape} {cond : BitVec 3} {body : Bool → State → Effect} {u : State}
    (hb : ∀ w, s.condOn cond = true →
      Effect.DoneAs s.active w (body (s.writeBack cond) s) (body (s.writeBack cond) (s.setTimer s.active w)))
    (h : runInsn sh cond body (s.setTimer s.active v) = .next u) (hu : u.ended = .completed) :
    ∃ t : State, runInsn sh cond body s = .next (t.complete s.active) ∧ u = (t.setTimer s.active v).complete s.active ∧
      t.getCr s.active crTimer = s.getCr s.active crTimer := by
  have e1 : (s.setTimer s.active v).deniesCross = s.deniesCross := by simp [State.deniesCross]
  have e2 : (s.setTimer s.active v).deniesOpcode sh.op = s.deniesOpcode sh.op := by
    simp [State.deniesOpcode, getCr_setTimer s s.active v _ (show crInsnDeny0 ≠ crTimer by decide),
      getCr_setTimer s s.active v _ (show crInsnDeny1 ≠ crTimer by decide)]
  have e3 : (s.setTimer s.active v).condOn cond = s.condOn cond := by simp [State.condOn]
  have e4 : (s.setTimer s.active v).writeBack cond = s.writeBack cond := by simp [State.writeBack]
  unfold runInsn at h ⊢
  simp only [e1, e2, e3, e4, setTimer_latch, setTimer_active] at h
  split at h
  · rw [← Host.Outcome.next.inj h, takeException_ended] at hu; cases hu
  · split at h
    · cases h
    · split at h
      · cases h
      · split at h
        · rename_i h1 h2 h3 h4
          simp only [h1, h2, h3, h4, if_true]
          cases hd : body (s.writeBack cond) (s.setTimer s.active v) with
          | done r =>
            rw [hd] at h
            obtain ⟨t, ht, rfl⟩ := hb v h4 r hd
            refine ⟨t, by rw [ht]; rfl, (Host.Outcome.next.inj h).symm, ?_⟩
            have hs : s.setTimer s.active (s.getCr s.active crTimer) = s := setCr_getCr _ _ _
            have hb' := hb (s.getCr s.active crTimer) h4
            rw [hs] at hb'
            obtain ⟨t', ht', e⟩ := hb' t ht
            rw [e, getCr_setTimer_self]
          | raise x r => rw [hd] at h; rw [← Host.Outcome.next.inj h, takeException_ended] at hu; cases hu
          | halt r => rw [hd] at h; rw [← Host.Outcome.next.inj h] at hu; cases hu
          | fault f => rw [hd] at h; cases h
          | refuse r => rw [hd] at h; cases h
        · rename_i h1 h2 h3 h4
          simp only [h1, h2, h3, h4]
          exact ⟨s, rfl, (Host.Outcome.next.inj h).symm, rfl⟩

/-- Every instruction that completes, completes at another value of `TIMER` from the same state but for `TIMER`. -/
theorem exec_at_timer {i : Instr} {r : OpcodeRow} {u : State} (hr : opcodeRow i = some r)
    (ht : ¬ (s.condOn r.cond = true ∧ s.usesTimer i)) (h : exec i (s.setTimer s.active v) = .next u)
    (hu : u.ended = .completed) :
    ∃ t : State, exec i s = .next (t.complete s.active) ∧ u = (t.setTimer s.active v).complete s.active ∧
      t.getCr s.active crTimer = s.getCr s.active crTimer := by
  cases i with
  | add _ x y | sub _ x y | xor _ x y | and _ x y | orr _ x y =>
    exact runInsn_at_timer s v (fun w _ => oneResult_timer s _ w _ x y _) h hu
  | shl _ x y | sru _ x y | srs _ x y => exact runInsn_at_timer s v (fun w _ => shiftEffect_timer s _ w _ x y _) h hu
  | inc _ x k => exact runInsn_at_timer s v (fun w _ => oneResult_timer s _ w _ x _ _) h hu
  | mlu _ x y | mls _ x y => exact runInsn_at_timer s v (fun w _ => mulEffect_timer s _ w _ x y _) h hu
  | dvu _ x y =>
    refine runInsn_at_timer s v (body := dvuEffect x y) (fun w _ => ?_) h hu
    unfold dvuEffect
    simp only [setTimer_vy]
    split
    · exact doneAs_of_ne _ _ fun u h => by cases h
    · exact twoResults_timer s _ w _ x y _
  | dvs _ x y =>
    refine runInsn_at_timer s v (body := dvsEffect x y) (fun w _ => ?_) h hu
    unfold dvsEffect
    simp only [setTimer_vy, setTimer_getRef, setTimer_rx, setTimer_cfg]
    split
    · exact doneAs_of_ne _ _ fun u h => by cases h
    · split
      · exact doneAs_of_ne _ _ fun u h => by cases h
      · exact twoResults_timer s _ w _ x y _
  | mov _ x y =>
    exact runInsn_at_timer s v (body := movEffect x y) (fun w _ => by simpa [movEffect] using doneAs_done _ w _) h hu
  | cmp _ x y =>
    exact runInsn_at_timer s v (body := cmpEffect x y) (fun w _ => by simpa [cmpEffect] using doneAs_done _ w _) h hu
  | rdc c x n =>
    cases hr
    refine runInsn_at_timer s v (body := rdcEffect x n) (fun w hc => rdcEffect_timer s _ w x n _ ?_) h hu
    rintro rfl
    exact Bool.not_eq_false _ ▸ fun e => ht ⟨hc, .inl ⟨c, x, rfl, e⟩⟩
  | wrc c n y =>
    cases hr
    refine runInsn_at_timer s v (body := wrcEffect n y) (fun w hc => wrcEffect_timer s _ w n y _ ?_) h hu
    rintro rfl
    exact Bool.not_eq_false _ ▸ fun e => ht ⟨hc, .inr ⟨c, y, rfl, e⟩⟩
  | ldw _ x y =>
    refine runInsn_at_timer s v (body := ldwEffect x y)
      (fun w _ => doneAs_thenDo _ w (f := id) ?_ _ _ _ _ fun a _ => ?_) h hu
    · rw [← map_id]; simp
    · simpa using doneAs_done _ w _
  | ldb _ x y =>
    refine runInsn_at_timer s v (body := ldbEffect x y)
      (fun w _ => doneAs_thenDo _ w (f := id) ?_ _ _ _ _ fun a _ => ?_) h hu
    · rw [← map_id]; simp
    · simpa using doneAs_done _ w _
  | stw _ x y =>
    refine runInsn_at_timer s v (body := stwEffect x y)
      (fun w _ => doneAs_thenDo _ w (f := (·.setTimer s.active w)) ?_ _ _ _ _ fun a _ => doneAs_done _ w a) h hu
    simp
  | stb _ x y =>
    refine runInsn_at_timer s v (body := stbEffect x y)
      (fun w _ => doneAs_thenDo _ w (f := (·.setTimer s.active w)) ?_ _ _ _ _ fun a _ => doneAs_done _ w a) h hu
    simp
  | bra _ x y =>
    exact runInsn_at_timer s v (body := braEffect x y)
      (fun w _ => by simpa [braEffect, State.jumpTo] using doneAs_done _ w _) h hu
  | brr _ k =>
    exact runInsn_at_timer s v (body := brrEffect k)
      (fun w _ => by simpa [brrEffect, State.relTarget] using doneAs_done _ w _) h hu
  | fca _ x y =>
    refine runInsn_at_timer s v (body := fcaEffect x y) (fun w _ => ?_) h hu
    unfold fcaEffect
    simp only [setTimer_linkOperand]
    split
    · exact doneAs_of_ne _ _ fun u h => by cases h
    · simpa [State.linked, State.jumpTo] using doneAs_done _ w _
  | fcr _ k =>
    exact runInsn_at_timer s v (body := fcrEffect k)
      (fun w _ => by simpa [fcrEffect, State.linked, State.relTarget] using doneAs_done _ w _) h hu
  | rdb _ x p => exact runInsn_at_timer s v (fun w _ => rdbEffect_timer s _ w x p _) h hu
  | wrb _ p y =>
    exact runInsn_at_timer s v (body := wrbEffect p y) (fun w _ => by simpa [wrbEffect] using doneAs_done _ w _) h hu
  | psh _ set =>
    refine runInsn_at_timer s v (body := pshEffect set) (fun w _ => ?_) h hu
    unfold pshEffect
    rw [setTimer_rd]
    exact pushAll_timer _ w _ _ s
  | pop _ set =>
    refine runInsn_at_timer s v (body := popEffect set) (fun w _ => ?_) h hu
    unfold popEffect
    rw [setTimer_rd]
    exact popAll_timer _ w _ _ s
  | bpt _ =>
    refine runInsn_at_timer s v (body := bptEffect) (fun w _ => ?_) h hu
    unfold bptEffect
    rw [setTimer_cfg]
    split
    · exact doneAs_of_ne _ _ fun u h => by cases h
    · exact doneAs_done _ w s
  | hlt _ =>
    exact runInsn_at_timer s v (body := hltEffect) (fun w _ => by simpa [hltEffect] using doneAs_done _ w _) h hu
  | nop _ => exact runInsn_at_timer s v (body := nopEffect) (fun w _ => doneAs_done _ w s) h hu
  | xc | tf | xx | xy | xz | dr _ | reservedC5 | reservedC6 _ | reservedC8 _ => cases hr

/-- The completion that takes `TIMER` from 1 to 0, against the one that takes it from 2 to 1. -/
theorem complete_expires {s t : State} (hg : t.cfg = s.cfg) (h : t.getCr s.active crTimer = 1#16) :
    Expires s ((t.setTimer s.active 2#16).complete s.active) (t.complete s.active) := by
  have h2 : (t.setTimer s.active 2#16).getCr s.active crTimer ≠ 1#16 := by rw [getCr_setTimer_self]; decide
  have e1 : crTimer ≠ crExcInfo := by decide
  have e2 : crTimer ≠ crExcAddr := by decide
  refine ⟨?_, ?_, ?_, ?_, ?_, ?_, ?_, ?_⟩
  · intro c i; simp
  · show (t.complete s.active).getCr s.active crTimer = _
    rw [complete_of_timer_one h, getCr_takeException, if_neg (by simp [e1]), if_neg (by simp [e2]), getCr_setCr_self]
  · show InfoRecords ((t.complete s.active).getCr s.active crExcInfo) _ _
    rw [complete_of_timer_one h, getCr_takeException, if_pos ⟨rfl, rfl⟩, setCr_cfg, countUp_cfg, hg]
    exact infoRecords_excInfo _ _
  · intro d n hn
    have hk : ∀ m, m ∈ [11#4, 12#4, 13#4] → ¬ (n = m ∧ Params.home s.cfg d n = Params.home s.cfg s.active n) := by
      rintro m hm ⟨rfl, hh⟩
      exact hn ⟨hm, (home_eq_iff s d n).1 hh⟩
    rw [complete_of_timer_one h, complete_of_timer h2, getCr_takeException]
    simp only [setCr_cfg, countUp_cfg, hg]
    rw [if_neg (hk 11#4 (by simp)), if_neg (hk 12#4 (by simp)), getCr_endStep, getCr_setTimer_self, if_neg (by decide),
      getCr_setCr, getCr_setCr, countUp_cfg, countUp_cfg, setTimer_cfg, hg]
    have k13 : ¬ (n = crTimer ∧ Params.home s.cfg d crTimer = Params.home s.cfg s.active crTimer) := by
      rintro ⟨rfl, hh⟩; exact hk 13#4 (by simp) ⟨rfl, hh⟩
    rw [if_neg k13, if_neg k13]
    have e3 : crCountLo ≠ crTimer := by decide
    have e4 : crCountHi ≠ crTimer := by decide
    have : (t.setTimer s.active 2#16).countUp s.active = (t.countUp s.active).setTimer s.active 2#16 := by
      unfold State.countUp State.insnCount
      simp [e3, e4]
    rw [this, State.setTimer, getCr_setCr, countUp_cfg, hg, if_neg k13]
  · intro a; simp
  · simp
  · rw [activeAfterExc, complete_active h2, complete_of_timer_one h, takeException_active]
    simp
  · exact ⟨by rw [complete_of_timer_one h]; rfl, complete_latch _ _, by rw [complete_cfg, hg]⟩

end Sys2Proof.Machine
end

