-- ==== Sys2Proof/Tests/Slice0.lean ====
section
/-! SUPPORT. The model's own tests: the encodings written out from R80 to R97, ill-formed terms refused, one step of each
instruction against the rows of spec/95_test_vectors.md (named in each comment), and for every statement with hypotheses
a concrete case that meets them. -/

namespace Sys2Proof.Tests

open Sys2Proof.Machine

/-! ## WellFormed refuses ill-formed terms -/

/-- Condition 6 without `XC` marks a prefix (R83). -/
theorem test_wellFormed_cond6 : Instr.wellFormed .two false (.nop 6#3) = false := by decide
theorem test_wellFormed_cond6_afterXc : Instr.wellFormed .two true (.nop 6#3) = true := by decide
/-- Nibble 15 of a value operand is the immediate selector (R85). -/
theorem test_wellFormed_vy15 : Instr.wellFormed .two false (.add 7#3 1#4 (.reg 15#4)) = false := by decide
/-- ... but not of the `Ry` of `WRC` (R172). -/
theorem test_wellFormed_wrc15 : Instr.wellFormed .two false (.wrc 7#3 1#4 15#4) = true := by decide
/-- An immediate of one byte is below 256, and only `WRB` can have one (R221). -/
theorem test_wellFormed_immOne : Instr.wellFormed .one false (.wrb 7#3 3#4 (.imm 0x100#16)) = false := by decide
theorem test_wellFormed_immTwo : Instr.wellFormed .one false (.add 7#3 3#4 (.imm 0x100#16)) = true := by decide
/-- No prefix stands after `XC` (R83). -/
theorem test_wellFormed_prefixAfterXc : Instr.wellFormed .two true .tf = false := by decide

/-! ## Words written out from the encoding tables (R81 to R93) -/

theorem test_decode_add : decode .two false [0xE0#8, 0x12#8] = .ok (.add 7#3 1#4 (.reg 2#4), []) := rfl
theorem test_decode_add_imm : decode .two false [0xE0#8, 0x1F#8, 0x34#8, 0x12#8] = .ok (.add 7#3 1#4 (.imm 0x1234#16), []) := rfl
theorem test_decode_sub : decode .two false [0xE1#8, 0x21#8] = .ok (.sub 7#3 2#4 (.reg 1#4), []) := rfl
theorem test_decode_mlu : decode .two false [0xE2#8, 0x45#8] = .ok (.mlu 7#3 4#4 (.reg 5#4), []) := rfl
theorem test_decode_mls : decode .two false [0xE3#8, 0x23#8] = .ok (.mls 7#3 2#4 (.reg 3#4), []) := rfl
theorem test_decode_dvu : decode .two false [0xE4#8, 0x2F#8, 0x02#8, 0x00#8] = .ok (.dvu 7#3 2#4 (.imm 2#16), []) := rfl
theorem test_decode_dvs : decode .two false [0xE5#8, 0x23#8] = .ok (.dvs 7#3 2#4 (.reg 3#4), []) := rfl
theorem test_decode_xor : decode .two false [0xE6#8, 0x1F#8, 0xFF#8, 0xFF#8] = .ok (.xor 7#3 1#4 (.imm 0xFFFF#16), []) := rfl
theorem test_decode_and : decode .two false [0xE7#8, 0x1F#8, 0xFF#8, 0x00#8] = .ok (.and 7#3 1#4 (.imm 0x00FF#16), []) := rfl
theorem test_decode_orr : decode .two false [0xE8#8, 0x1F#8, 0x00#8, 0x80#8] = .ok (.orr 7#3 1#4 (.imm 0x8000#16), []) := rfl
theorem test_decode_shl : decode .two false [0xE9#8, 0x1F#8, 0x04#8, 0x00#8] = .ok (.shl 7#3 1#4 (.imm 4#16), []) := rfl
theorem test_decode_sru : decode .two false [0xEA#8, 0x1F#8, 0x08#8, 0x00#8] = .ok (.sru 7#3 1#4 (.imm 8#16), []) := rfl
theorem test_decode_srs : decode .two false [0xEB#8, 0x12#8] = .ok (.srs 7#3 1#4 (.reg 2#4), []) := rfl
theorem test_decode_mov : decode .two false [0xEC#8, 0xE1#8] = .ok (.mov 7#3 14#4 (.reg 1#4), []) := rfl
theorem test_decode_cmp : decode .two false [0xED#8, 0x1F#8, 0x0A#8, 0x00#8] = .ok (.cmp 7#3 1#4 (.imm 10#16), []) := rfl
theorem test_decode_rdc : decode .two false [0xEE#8, 0x1F#8] = .ok (.rdc 7#3 1#4 15#4, []) := rfl
theorem test_decode_wrc : decode .two false [0xEF#8, 0xD1#8] = .ok (.wrc 7#3 13#4 1#4, []) := rfl
theorem test_decode_ldw : decode .two false [0xF0#8, 0x1F#8, 0x04#8, 0x00#8] = .ok (.ldw 7#3 1#4 (.imm 4#16), []) := rfl
theorem test_decode_stw : decode .two false [0xF1#8, 0xE2#8] = .ok (.stw 7#3 14#4 (.reg 2#4), []) := rfl
theorem test_decode_ldb : decode .two false [0xF2#8, 0x32#8] = .ok (.ldb 7#3 3#4 (.reg 2#4), []) := rfl
theorem test_decode_stb : decode .two false [0xF3#8, 0x12#8] = .ok (.stb 7#3 1#4 (.reg 2#4), []) := rfl
theorem test_decode_bra : decode .two false [0xF4#8, 0x0F#8, 0x00#8, 0x01#8] = .ok (.bra 7#3 0#4 (.imm 0x0100#16), []) := rfl
theorem test_decode_brr : decode .two false [0x35#8, 0xF9#8, 0xFF#8] = .ok (.brr 1#3 0xFFF9#16, []) := rfl
theorem test_decode_fca : decode .two false [0xF6#8, 0x0F#8, 0x00#8, 0x20#8] = .ok (.fca 7#3 0#4 (.imm 0x2000#16), []) := rfl
theorem test_decode_fcr : decode .two false [0xF7#8, 0x05#8, 0x00#8] = .ok (.fcr 7#3 5#16, []) := rfl
theorem test_decode_rdb : decode .two false [0xF8#8, 0x23#8] = .ok (.rdb 7#3 2#4 3#4, []) := rfl
theorem test_decode_wrb : decode .two false [0xF9#8, 0x3F#8, 0x41#8, 0x00#8] = .ok (.wrb 7#3 3#4 (.imm 0x41#16), []) := rfl
/-- The same bytes where `WRB_IMM_BYTES` is 1 (R221): the immediate is one byte and the fourth byte is left over. -/
theorem test_decode_wrb_one :
    decode .one false [0xF9#8, 0x3F#8, 0x41#8, 0x00#8] = .ok (.wrb 7#3 3#4 (.imm 0x41#16), [0x00#8]) := rfl
theorem test_encode_wrb_one : encode .one (.wrb 7#3 3#4 (.imm 0x41#16)) = [0xF9#8, 0x3F#8, 0x41#8] := rfl
theorem test_decode_psh : decode .two false [0xFA#8, 0x80#8, 0x10#8] = .ok (.psh 7#3 0x1080#16, []) := rfl
theorem test_decode_pop : decode .two false [0xFB#8, 0x00#8, 0xC0#8] = .ok (.pop 7#3 0xC000#16, []) := rfl
theorem test_decode_inc : decode .two false [0xFC#8, 0x2F#8] = .ok (.inc 7#3 2#4 15#4, []) := rfl
theorem test_decode_bpt : decode .two false [0xFD#8] = .ok (.bpt 7#3, []) := rfl
theorem test_decode_hlt : decode .two false [0x1E#8] = .ok (.hlt 0#3, []) := rfl
theorem test_decode_nop : decode .two false [0xFF#8] = .ok (.nop 7#3, []) := rfl
theorem test_decode_xc : decode .two false [0xC0#8] = .ok (.xc, []) := rfl
theorem test_decode_tf : decode .two false [0xC1#8] = .ok (.tf, []) := rfl
theorem test_decode_xx : decode .two false [0xC2#8] = .ok (.xx, []) := rfl
theorem test_decode_xy : decode .two false [0xC3#8] = .ok (.xy, []) := rfl
theorem test_decode_xz : decode .two false [0xC4#8] = .ok (.xz, []) := rfl
theorem test_decode_dr : decode .two false [0xD3#8] = .ok (.dr 3#4, []) := rfl
theorem test_decode_dr15 : decode .two false [0xDF#8] = .ok (.dr 15#4, []) := rfl
theorem test_decode_reservedC5 : decode .two false [0xC5#8] = .ok (.reservedC5, []) := rfl
theorem test_decode_reservedC6 : decode .two false [0xC7#8] = .ok (.reservedC6 1#1, []) := rfl
theorem test_decode_reservedC8 : decode .two false [0xCF#8] = .ok (.reservedC8 7#3, []) := rfl
/-- Vector X7: after `XC` the byte 0xDF is an opcode byte. -/
theorem test_decode_afterXc : decode .two true [0xDF#8] = .ok (.nop 6#3, []) := rfl
theorem test_decode_truncated : decode .two false [0xE0#8, 0x1F#8, 0x34#8] = .error .truncated := rfl
theorem test_decode_empty : decode .two false [] = .error .truncated := rfl
/-- The opcode table numbers the regpair byte as bits 15 to 8, and gives the immediate no bits. -/
theorem test_decodeTableWord : decodeTableWord 16 0x1FE0 = some (.add 7#3 1#4 (.imm 0#16)) := by decide

/-! ## One step of each instruction (spec/95_test_vectors.md, parts 2 to 4) -/

/-- Parameters for the tests: the defaults, with a value for each one the spec leaves open. -/
def testParams : Params :=
  { launchParams with
    excCodes := { unaligned := 6, mmu := 2, bus := 3, deniedCreg := 1, deniedInsn := 4, timer := 5 }
    pteFault := [{ mode := .execute, lo := 0x2E01#16, hi := 0xFFFF#16 }]
    dvsRound := .trunc }

/-- The launch of R273: code at 0x0100 in context 0, the rest as listed. -/
def start (code : List Byte) (regs : List (RegNo × Word)) (cregs : List (CRegNo × Word)) (mem : List Host.Cell) :
    State :=
  let s := { State.reset with cfg := testParams, mem := mem.foldl (fun m e => Memory.write m e.1 e.2) [] }
  let s := regs.foldl (fun s e => s.setReg .ctx0 e.1 e.2) ((placeBytes code 0x0100#16 s).setReg .ctx0 14#4 0x0100#16)
  cregs.foldl (fun s e => s.setCr .ctx0 e.1 e.2) s

/-- The outcome is a next state with this property. -/
def ends (o : Host.Outcome State Fault Refusal) (p : State → Bool) : Bool :=
  match o with
  | .next t => p t
  | .fault _ => false
  | .refused _ => false

/-- The outcome is a fault with this property. -/
def faults (o : Host.Outcome State Fault Refusal) (p : Fault → Bool) : Bool :=
  match o with
  | .next _ => false
  | .fault f => p f
  | .refused _ => false

/-- The outcome is a refusal with this property. -/
def refuses (o : Host.Outcome State Fault Refusal) (p : Refusal → Bool) : Bool :=
  match o with
  | .next _ => false
  | .fault _ => false
  | .refused r => p r

/-- A general register and a control register of context 0, and a byte of memory. -/
def reg (t : State) (i : RegNo) : Word := t.getReg .ctx0 i
def cr (t : State) (n : CRegNo) : Word := t.getCr .ctx0 n
def byte (t : State) (a : Nat) : Option Byte := Memory.read t.mem a

/-- The state that a stop hands over (R226): `PC` past the bytes fetched, `INSN_ADDR` at the first, nothing counted. -/
def stoppedAt (t : State) (pc : Word) : Bool := reg t 14#4 == pc && cr t 14#4 == 0x0100#16 && cr t 4#4 == 0#16

/-- Vector A1. -/
theorem test_add : ends (step (start [0xE0#8, 0x12#8] [(1#4, 0xFFFF#16), (2#4, 0x0001#16)] [] []))
    (fun t => reg t 1#4 == 0x0000#16 && cr t 15#4 == 0x0009#16 && reg t 14#4 == 0x0102#16 && cr t 4#4 == 0x0001#16 && cr t 14#4 == 0x0100#16) = true := by decide
/-- Vector A2. -/
theorem test_add_overflow : ends (step (start [0xE0#8, 0x12#8] [(1#4, 0x7FFF#16), (2#4, 0x0001#16)] [] []))
    (fun t => reg t 1#4 == 0x8000#16 && cr t 15#4 == 0x0016#16) = true := by decide
/-- Vector B1. -/
theorem test_sub : ends (step (start [0xE1#8, 0x12#8] [(1#4, 0x0000#16), (2#4, 0x0001#16)] [] []))
    (fun t => reg t 1#4 == 0xFFFF#16 && cr t 15#4 == 0x0002#16) = true := by decide
/-- Vector B2. -/
theorem test_sub_overflow : ends (step (start [0xE1#8, 0x12#8] [(1#4, 0x8000#16), (2#4, 0x0001#16)] [] []))
    (fun t => reg t 1#4 == 0x7FFF#16 && cr t 15#4 == 0x001C#16) = true := by decide
/-- Vector U1. -/
theorem test_mlu : ends (step (start [0xD2#8, 0xD3#8, 0xE2#8, 0x45#8] [(4#4, 0xFFFF#16), (5#4, 0xFFFF#16)] [] []))
    (fun t => reg t 2#4 == 0x0001#16 && reg t 3#4 == 0xFFFE#16 && reg t 4#4 == 0xFFFF#16 && reg t 14#4 == 0x0104#16) = true := by decide
/-- `CF` of vector U1 is bit 16 of 0xFFFE0001, and the other value where `MUL_CF` lists the operands (R143). -/
theorem test_mulCf : mulCf [] false 0xFFFF#16 0xFFFF#16 0xFFFE0001#32 = false ∧
    mulCf [(false, 0xFFFF#16, 0xFFFF#16)] false 0xFFFF#16 0xFFFF#16 0xFFFE0001#32 = true := by decide
/-- Vector U3. -/
theorem test_mlu_r0 : ends (step (start [0xE2#8, 0x12#8] [(1#4, 0x1234#16), (2#4, 0x0010#16)] [] []))
    (fun t => reg t 1#4 == 0x2340#16 && reg t 0#4 == 0x0000#16) = true := by decide
/-- Vector U5. -/
theorem test_mls : ends (step (start [0xE3#8, 0x23#8] [(2#4, 0xFFFF#16), (3#4, 0x0002#16)] [] []))
    (fun t => reg t 2#4 == 0xFFFE#16 && reg t 3#4 == 0xFFFF#16) = true := by decide
/-- Vector U6. -/
theorem test_mls_min : ends (step (start [0xE3#8, 0x23#8] [(2#4, 0x8000#16), (3#4, 0x8000#16)] [] []))
    (fun t => reg t 2#4 == 0x0000#16 && reg t 3#4 == 0x4000#16) = true := by decide
/-- Vector V1. -/
theorem test_dvu : ends (step (start [0xE4#8, 0x2F#8, 0x02#8, 0x00#8] [(2#4, 0x0007#16)] [(15#4, 0x0018#16)] []))
    (fun t => reg t 2#4 == 0x0003#16 && reg t 3#4 == 0x0001#16 && cr t 15#4 == 0x0018#16) = true := by decide
/-- Vector V5. -/
theorem test_dvs : ends (step (start [0xE5#8, 0x23#8] [(2#4, 0x0007#16), (3#4, 0x0002#16)] [] []))
    (fun t => reg t 2#4 == 0x0003#16 && reg t 3#4 == 0x0001#16 && cr t 15#4 == 0x0000#16) = true := by decide
/-- Vector V6. -/
theorem test_dvs_trunc : ends (step (start [0xE5#8, 0x23#8] [(2#4, 0xFFF9#16), (3#4, 0x0002#16)] [] []))
    (fun t => reg t 2#4 == 0xFFFD#16 && reg t 3#4 == 0xFFFF#16 && cr t 15#4 == 0x0006#16) = true := by decide
/-- Vector L2. -/
theorem test_xor : ends (step (start [0xE6#8, 0x11#8] [(1#4, 0x1234#16)] [(15#4, 0x0018#16)] []))
    (fun t => reg t 1#4 == 0x0000#16 && cr t 15#4 == 0x0019#16) = true := by decide
/-- Vector L3. -/
theorem test_and : ends (step (start [0xE7#8, 0x1F#8, 0xFF#8, 0x00#8] [(1#4, 0x1234#16)] [] []))
    (fun t => reg t 1#4 == 0x0034#16 && cr t 15#4 == 0x0004#16) = true := by decide
/-- Vector L4. -/
theorem test_orr : ends (step (start [0xE8#8, 0x1F#8, 0x00#8, 0x80#8] [(1#4, 0x0001#16)] [] []))
    (fun t => reg t 1#4 == 0x8001#16 && cr t 15#4 == 0x0002#16) = true := by decide
/-- Vector H3. -/
theorem test_shl_16 : ends (step (start [0xE9#8, 0x1F#8, 0x10#8, 0x00#8] [(1#4, 0x0001#16)] [] []))
    (fun t => reg t 1#4 == 0x0000#16 && cr t 15#4 == 0x0009#16) = true := by decide
/-- Vector H4. -/
theorem test_shl_17 : ends (step (start [0xE9#8, 0x1F#8, 0x11#8, 0x00#8] [(1#4, 0xFFFF#16)] [] []))
    (fun t => reg t 1#4 == 0x0000#16 && cr t 15#4 == 0x0001#16) = true := by decide
/-- The same where `SHIFT_COUNT` keeps the low 4 bits of 17 (R150). -/
theorem test_shl_count : ends (step { start [0xE9#8, 0x1F#8, 0x11#8, 0x00#8] [(1#4, 0xFFFF#16)] [] [] with
      cfg := { testParams with shiftCount := [(0x11#16, 1)] } })
    (fun t => reg t 1#4 == 0xFFFE#16 && cfOf (cr t 15#4)) = true := by decide
/-- Vector H7. -/
theorem test_sru : ends (step (start [0xEA#8, 0x1F#8, 0x0F#8, 0x00#8] [(1#4, 0x8000#16)] [] []))
    (fun t => reg t 1#4 == 0x0001#16) = true := by decide
/-- Vector H9. -/
theorem test_srs : ends (step (start [0xEB#8, 0x1F#8, 0x01#8, 0x00#8] [(1#4, 0x8000#16)] [] []))
    (fun t => reg t 1#4 == 0xC000#16) = true := by decide
/-- Vector H10. -/
theorem test_srs_20 : ends (step (start [0xEB#8, 0x1F#8, 0x14#8, 0x00#8] [(1#4, 0xFFFF#16)] [] []))
    (fun t => reg t 1#4 == 0xFFFF#16) = true := by decide
/-- Vector O5. -/
theorem test_mov_pc : ends (step (start [0xEC#8, 0x1E#8] [] [] []))
    (fun t => reg t 1#4 == 0x0102#16 && cr t 15#4 == 0x0000#16) = true := by decide
/-- Vector O7. -/
theorem test_mov_cross : ends (step (start [0xC2#8, 0xEC#8, 0x1F#8, 0x05#8, 0x00#8] [(1#4, 0x0009#16)] [] []))
    (fun t => t.getReg .ctx1 1#4 == 0x0005#16 && reg t 1#4 == 0x0009#16 && reg t 14#4 == 0x0105#16) = true := by decide
/-- Vector C2. -/
theorem test_cmp : ends (step (start [0xED#8, 0x12#8] [(1#4, 0x8000#16), (2#4, 0x7FFF#16)] [] []))
    (fun t => cr t 15#4 == 0x001C#16 && reg t 1#4 == 0x8000#16) = true := by decide
/-- Vector C3. -/
theorem test_cmp_signed : ends (step (start [0xED#8, 0x12#8] [(1#4, 0xFFFF#16), (2#4, 0x0001#16)] [] []))
    (fun t => cr t 15#4 == 0x000E#16) = true := by decide
/-- Vector K1. -/
theorem test_rdc : ends (step (start [0xEE#8, 0x1F#8] [] [(15#4, 0x0015#16)] []))
    (fun t => reg t 1#4 == 0x0015#16 && cr t 15#4 == 0x0014#16) = true := by decide
/-- Vector K2. -/
theorem test_rdc_insnAddr : ends (step (start [0xEE#8, 0x2E#8] [] [] []))
    (fun t => reg t 2#4 == 0x0100#16 && cr t 15#4 == 0x0004#16) = true := by decide
/-- Vector K6. -/
theorem test_wrc_timer : ends (step (start [0xEF#8, 0xD1#8] [(1#4, 0x0005#16)] [] []))
    (fun t => cr t 13#4 == 0x0004#16 && cr t 15#4 == 0x0000#16) = true := by decide
/-- Vector K12. -/
theorem test_wrc_count : ends (step (start [0xEF#8, 0x41#8] [(1#4, 0xFFFF#16)] [(5#4, 0xFFFF#16)] []))
    (fun t => cr t 5#4 == 0x0000#16 && cr t 4#4 == 0x0000#16) = true := by decide
/-- Vector M1. -/
theorem test_ldw : ends (step (start [0xD0#8, 0xF0#8, 0x12#8] [(2#4, 0x8000#16)] [] [(0x8000, 0x34#8), (0x8001, 0x12#8)]))
    (fun t => reg t 1#4 == 0x1234#16 && cr t 15#4 == 0x0004#16 && reg t 14#4 == 0x0103#16) = true := by decide
/-- Vector M5. -/
theorem test_ldw_wraps : ends (step (start [0xD2#8, 0xF0#8, 0x1F#8, 0x04#8, 0x00#8] [(2#4, 0xFFFE#16)] [] [(0x0002, 0x55#8), (0x0003, 0xAA#8)]))
    (fun t => reg t 1#4 == 0xAA55#16) = true := by decide
/-- Vector M6. -/
theorem test_stw : ends (step (start [0xD0#8, 0xF1#8, 0x12#8] [(1#4, 0x1234#16), (2#4, 0x8000#16)] [] []))
    (fun t => byte t 0x8000 == some 0x34#8 && byte t 0x8001 == some 0x12#8 && cr t 15#4 == 0x0000#16) = true := by decide
/-- Vector M7. -/
theorem test_stw_unaligned : ends (step (start [0xD0#8, 0xF1#8, 0x12#8] [(2#4, 0x8003#16)] [] []))
    (fun t => cr t 11#4 == 0x800D#16 && cr t 12#4 == 0x8003#16 && cr t 4#4 == 0x0000#16) = true := by decide
/-- Vector M9. -/
theorem test_ldb : ends (step (start [0xD0#8, 0xF2#8, 0x32#8] [(2#4, 0x8000#16)] [] [(0x8000, 0x80#8)]))
    (fun t => reg t 3#4 == 0x0080#16 && cr t 15#4 == 0x0004#16) = true := by decide
/-- Vector M10. -/
theorem test_ldb_odd : ends (step (start [0xD0#8, 0xF2#8, 0x32#8] [(2#4, 0x8001#16)] [] [(0x8001, 0x00#8)]))
    (fun t => reg t 3#4 == 0x0000#16 && cr t 15#4 == 0x0001#16) = true := by decide
/-- Vector M11. -/
theorem test_stb : ends (step (start [0xD0#8, 0xF3#8, 0x12#8] [(1#4, 0xABCD#16), (2#4, 0x8001#16)] [] [(0x8000, 0x11#8), (0x8001, 0x22#8), (0x8002, 0x33#8)]))
    (fun t => byte t 0x8000 == some 0x11#8 && byte t 0x8001 == some 0xCD#8 && byte t 0x8002 == some 0x33#8) = true := by decide
/-- Vector P1. -/
theorem test_psh : ends (step (start [0xFA#8, 0x80#8, 0x10#8] [(7#4, 0x5555#16), (11#4, 0xF000#16), (12#4, 0xAAAA#16)] [] []))
    (fun t => reg t 11#4 == 0xEFFC#16 && byte t 0xEFFE == some 0xAA#8 && byte t 0xEFFF == some 0xAA#8 && byte t 0xEFFC == some 0x55#8 && byte t 0xEFFD == some 0x55#8) = true := by decide
/-- Vector P6. -/
theorem test_psh_sp : ends (step (start [0xFA#8, 0x00#8, 0x08#8] [(11#4, 0xF000#16)] [] []))
    (fun t => byte t 0xEFFE == some 0xFE#8 && byte t 0xEFFF == some 0xEF#8 && reg t 11#4 == 0xEFFE#16) = true := by decide
/-- Vector P7. -/
theorem test_pop_sp : ends (step (start [0xFB#8, 0x00#8, 0x08#8] [(11#4, 0xE000#16)] [] [(0xE000, 0x00#8), (0xE001, 0x90#8)]))
    (fun t => reg t 11#4 == 0x9002#16) = true := by decide
/-- Vector P8. -/
theorem test_pop_pc_dpc : ends (step (start [0xFB#8, 0x00#8, 0xC0#8] [(11#4, 0xE000#16)] [] [(0xE000, 0x00#8), (0xE001, 0x30#8), (0xE002, 0x01#8), (0xE003, 0x00#8)]))
    (fun t => reg t 14#4 == 0x3000#16 && reg t 15#4 == 0x0001#16 && reg t 11#4 == 0xE004#16) = true := by decide
/-- Vector J3. -/
theorem test_bra : ends (step (start [0xF4#8, 0x12#8] [(1#4, 0x0003#16), (2#4, 0x2000#16)] [] []))
    (fun t => reg t 15#4 == 0x0003#16 && reg t 14#4 == 0x2000#16) = true := by decide
/-- Vector J4. -/
theorem test_bra_falls : ends (step (start [0xF4#8, 0xFE#8] [] [] []))
    (fun t => reg t 15#4 == 0x0000#16 && reg t 14#4 == 0x0102#16) = true := by decide
/-- Vector J5. -/
theorem test_brr : ends (step (start [0xF5#8, 0xF9#8, 0xFF#8] [] [] []))
    (fun t => reg t 14#4 == 0x00FC#16) = true := by decide
/-- Vector J11. -/
theorem test_fca : ends (step (start [0xF6#8, 0x12#8] [(1#4, 0x0001#16), (2#4, 0x3000#16)] [] []))
    (fun t => reg t 13#4 == 0x0000#16 && reg t 12#4 == 0x0102#16 && reg t 15#4 == 0x0001#16 && reg t 14#4 == 0x3000#16) = true := by decide
/-- Vector J12. -/
theorem test_fcr : ends (step (start [0xF7#8, 0x05#8, 0x00#8] [] [] []))
    (fun t => reg t 13#4 == 0x0000#16 && reg t 12#4 == 0x0103#16 && reg t 14#4 == 0x0108#16) = true := by decide
/-- Vector I3. -/
theorem test_inc : ends (step (start [0xFC#8, 0x1F#8] [(1#4, 0x8000#16)] [] []))
    (fun t => reg t 1#4 == 0x7FFF#16 && cr t 15#4 == 0x001C#16) = true := by decide
/-- Vector I8. -/
theorem test_inc_dr : ends (step (start [0xD1#8, 0xFC#8, 0xB7#8] [(11#4, 0xF000#16)] [] []))
    (fun t => reg t 1#4 == 0xF008#16 && reg t 11#4 == 0xF000#16) = true := by decide
/-- Vector Q9. -/
theorem test_bpt : ends (step (start [0xFD#8] [] [(15#4, 0x001F#16)] []))
    (fun t => reg t 14#4 == 0x0101#16 && cr t 15#4 == 0x001F#16 && cr t 4#4 == 0x0001#16) = true := by decide
/-- Vector Q11. -/
theorem test_hlt : ends (step (start [0xFE#8] [] [] []))
    (fun t => t.active == .ctx1 && reg t 14#4 == 0x0101#16 && cr t 4#4 == 0x0001#16) = true := by decide
/-- Vector Q13. -/
theorem test_hlt_cond : ends (step (start [0x1E#8] [] [(15#4, 0x0001#16)] []))
    (fun t => t.active == .ctx1) = true := by decide
/-- Vector Q10. -/
theorem test_nop : ends (step (start [0xFF#8] [] [(15#4, 0x001F#16)] []))
    (fun t => cr t 15#4 == 0x001F#16 && reg t 14#4 == 0x0101#16 && cr t 4#4 == 0x0001#16) = true := by decide
/-- Vector X16. -/
theorem test_nop_timer : ends (step (start [0xFF#8] [] [(13#4, 0x0001#16)] []))
    (fun t => cr t 13#4 == 0x0000#16 && cr t 11#4 == 0x000B#16 && cr t 4#4 == 0x0001#16 && reg t 14#4 == 0x0101#16) = true := by decide
/-- Vector X8. -/
theorem test_xc : ends (step (start [0xC0#8, 0xC1#8, 0x12#8] [(1#4, 0x0005#16), (2#4, 0x0003#16)] [(15#4, 0x0004#16)] []))
    (fun t => reg t 1#4 == 0x0002#16 && cr t 15#4 == 0x0004#16) = true := by decide
/-- Vector X5. -/
theorem test_tf : ends (step (start [0xC1#8, 0xC1#8, 0xE0#8, 0x12#8] [(1#4, 0xFFFF#16), (2#4, 0x0001#16)] [] []))
    (fun t => cr t 15#4 == 0x0009#16 && reg t 14#4 == 0x0104#16) = true := by decide
/-- Vector X19. -/
theorem test_xz : ends (step (start [0xC4#8, 0xE0#8, 0x12#8] [(1#4, 0x0002#16), (2#4, 0x0003#16)] [] []))
    (fun t => t.getReg .ctx1 1#4 == 0x0005#16 && reg t 1#4 == 0x0002#16) = true := by decide
/-- Vector J7: the offset counts code bytes at the stride 4. -/
theorem test_brr_stride : ends (exec (.brr 7#3 2#16) (start [] [(14#4, 0x010C#16), (15#4, 3#16)] [] []))
    (fun t => reg t 14#4 == 0x0114#16) = true := by decide
/-- Vector J13. -/
theorem test_fcr_stride : ends (exec (.fcr 7#3 0xFFFE#16) (start [] [(14#4, 0x0106#16), (15#4, 1#16)] [] []))
    (fun t => reg t 13#4 == 1#16 && reg t 12#4 == 0x0106#16 && reg t 14#4 == 0x0102#16) = true := by decide
/-- A machine whose ports answer as scripted. -/
def withPorts (s : State) (reads : List (Option Byte)) (writes : List Bool) : State :=
  { s with ports := { reads := reads, writes := writes, log := [] } }
/-- Vector Q2. -/
theorem test_rdb : ends (step (withPorts (start [0xF8#8, 0x23#8] [] [(15#4, 0x1E#16)] []) [some 0#8] []))
    (fun t => reg t 2#4 == 0#16 && cr t 15#4 == 0x11#16 && t.ports.log == [.read 3#4 (some 0#8)]) = true := by decide
/-- Vector Q6. -/
theorem test_wrb : ends (step (withPorts (start [0xF9#8, 0x3F#8, 0x41#8, 0#8] [] [] []) [] [true]))
    (fun t => t.ports.log == [.write 3#4 0x41#8 true] && reg t 14#4 == 0x0104#16) = true := by decide
/-- Vector Q7: a failed write sets `CF` alone. -/
theorem test_wrb_fails : ends (step (withPorts (start [0xF9#8, 0x01#8] [(1#4, 0x1241#16)] [] []) [] [false]))
    (fun t => t.ports.log == [.write 0#4 0x41#8 false] && cr t 15#4 == 8#16) = true := by decide
/-- Vector V4. -/
theorem test_dvu_zero : faults (step (start [0xE4#8, 0x23#8] [] [] []))
    (fun | .divideByZero t => stoppedAt t 0x0102#16 | _ => false) = true := by decide
/-- Vector U7. -/
theorem test_mlu_same : refuses (step (start [0xD2#8, 0xD2#8, 0xE2#8, 0x45#8] [] [] []))
    (fun | .sameDestination t => stoppedAt t 0x0104#16 | _ => false) = true := by decide
/-- Vector J14. -/
theorem test_fca_link : refuses (step (start [0xF6#8, 0xC1#8] [] [] []))
    (fun | .linkRegisterOperand t => stoppedAt t 0x0102#16 | _ => false) = true := by decide
/-- Vector X9, and the ends of the other reserved ranges. -/
theorem test_reservedC5 : faults (step (start [0xC5#8, 0xFF#8] [] [] []))
    (fun | .reservedPrefix t => stoppedAt t 0x0101#16 | _ => false) = true := by decide
theorem test_reservedC6 : faults (step (start [0xC7#8] [] [] []))
    (fun | .reservedPrefix t => stoppedAt t 0x0101#16 | _ => false) = true := by decide
theorem test_reservedC8 : faults (step (start [0xCF#8] [] [] []))
    (fun | .reservedPrefix t => stoppedAt t 0x0101#16 | _ => false) = true := by decide
/-- Vectors X13, X14 and X15. -/
theorem test_dr_on_mov : refuses (step (start [0xD3#8, 0xEC#8, 0x12#8] [] [] []))
    (fun | .prefixWithoutOperand t => stoppedAt t 0x0103#16 | _ => false) = true := by decide
theorem test_xy_on_imm : refuses (step (start [0xC3#8, 0xEC#8, 0x1F#8, 5#8, 0#8] [] [] []))
    (fun | .prefixWithoutOperand t => stoppedAt t 0x0105#16 | _ => false) = true := by decide
theorem test_third_dr : refuses (step (start [0xD1#8, 0xD2#8, 0xD3#8, 0xE2#8, 0x45#8] [] [] []))
    (fun | .thirdDr t => stoppedAt t 0x0105#16 | _ => false) = true := by decide
/-- Vector X11. -/
theorem test_xx_denied : ends (step (start [0xC2#8, 0xEC#8, 0x10#8] [] [(15#4, 0x20#16)] []))
    (fun t => cr t 11#4 == 9#16 && t.ended == .exception .deniedInsn && cr t 4#4 == 0#16) = true := by decide
/-- A fetch from physical memory that nothing has written is a model fault (R49, R258). -/
theorem test_fetch_unwritten : faults (step (start [0xC1#8, 0xE0#8] [] [] []))
    (fun | .unwrittenMemory pa t => pa == 0x102 && stoppedAt t 0x0102#16 && t.latch.tf | _ => false) = true := by decide
/-- A pop that meets an unwritten byte keeps the pops before it (R185, R226). -/
theorem test_pop_unwritten : faults (step (start [0xFB#8, 0x06#8, 0x00#8] [(11#4, 0x8000#16)] [] [(0x8000, 0x34#8), (0x8001, 0x12#8)]))
    (fun | .unwrittenMemory pa t => pa == 0x8002 && reg t 1#4 == 0x1234#16 && reg t 11#4 == 0x8002#16 | _ => false) =
    true := by decide
/-- A launch with `WRB_IMM_BYTES` 1 (R221): the instruction is three bytes long. -/
theorem test_wrb_one : ends (step { withPorts (start [0xF9#8, 0x3F#8, 0x41#8] [] [] []) [] [true] with
      cfg := { testParams with wrbImm := .one } })
    (fun t => t.ports.log == [.write 3#4 0x41#8 true] && reg t 14#4 == 0x0103#16) = true := by decide
/-- Vector T5: one virtual address, three physical ones. -/
theorem test_translate_modes :
    (fun s : State => (s.translate 0x7A00#16 .read, s.translate 0x7A00#16 .write, s.translate 0x7A00#16 .execute))
      (start [] [] [(8#4, 0x41#16), (9#4, 0x43#16), (10#4, 0x45#16)]
        [(0x40F4, 0x2C#8), (0x40F5, 0#8), (0x42F4, 0x2D#8), (0x42F5, 0#8), (0x44F4, 0x2E#8), (0x44F5, 0#8)]) =
    (.ok 0x002C00#24, .ok 0x002D00#24, .ok 0x002E00#24) := by rfl
/-- A word put where the next step fetches is the instruction that step runs. -/
theorem test_withFetchWord : ends (step (State.reset.withFetchWord 8 0xFF)) (fun t => reg t 14#4 == 1#16 && cr t 4#4 == 1#16) =
    true := by decide +kernel
theorem test_reset_wf : Memory.wf State.reset.mem = true := by decide

/-! ## Witnesses: for each statement with hypotheses, a case that meets them all -/

/-- `Ready` as a Boolean. -/
def readyNow (i : Instr) (s : State) : Bool :=
  match opcodeRow i with
  | none => false
  | some r =>
    !s.deniesCross && !s.deniesOpcode (BitVec.ofNat 5 r.op) && decide (r.op < 32) && s.condOn r.cond &&
      (!s.latch.xx || r.rx) && (!s.latch.xy || r.ry) && (!s.latch.xz || r.rd) && (s.latch.rd.isNone || r.rd) &&
      (s.latch.rdx.isNone || r.rdx) && !s.latch.extraDr

theorem ready_of {i : Instr} {s : State} (h : readyNow i s = true) : Ready i s := by
  unfold readyNow at h
  split at h
  · cases h
  · rename_i r hr
    simp only [Bool.and_eq_true, Bool.not_eq_true', decide_eq_true_eq] at h
    obtain ⟨⟨⟨⟨⟨⟨⟨⟨⟨h1, h2⟩, h3⟩, h4⟩, h5⟩, h6⟩, h7⟩, h8⟩, h9⟩, h10⟩ := h
    refine ⟨r, hr, ?_, ?_, ⟨?_, ?_, ?_, ?_, ?_, h10⟩, h4⟩
    · rw [xregsDenied_iff, h1]; decide
    · have e : (BitVec.ofNat 5 r.op).toNat = r.op := by rw [BitVec.toNat_ofNat]; exact Nat.mod_eq_of_lt h3
      rw [← e, opcodeDenied_iff, h2]; decide
    · intro h; simpa [h] using h5
    · intro h; simpa [h] using h6
    · intro h; simpa [h] using h7
    · intro h
      cases hd : s.latch.rd with
      | none => exact absurd hd h
      | some d => simpa [hd] using h8
    · intro h
      cases hd : s.latch.rdx with
      | none => exact absurd hd h
      | some d => simpa [hd] using h9

theorem runs_of {i : Instr} {s : State} (h : (readyNow i s && s.getCr s.active 13#4 != 1#16) = true) : Runs i s := by
  simp only [Bool.and_eq_true, bne_iff_ne] at h
  exact ⟨ready_of h.1, h.2⟩

/-- The state after an outcome that is one. -/
def result (o : Host.Outcome State Fault Refusal) (s : State) : State :=
  match o with
  | .next t => t
  | .fault _ => s
  | .refused _ => s

theorem next_of {o : Host.Outcome State Fault Refusal} (s : State) (h : ends o (fun _ => true) = true) :
    o = .next (result o s) := by
  cases o with
  | next t => rfl
  | fault f => cases h
  | refused r => cases h

/-- `R1` is 0x1234, `R2` is 0x0003, the stack pointer 0xF000, and nothing else is set. -/
def here : State := start [] [(1#4, 0x1234#16), (2#4, 3#16), (11#4, 0xF000#16)] [] []

/-- `here` with these prefixes noted. -/
def under (l : Latch) : State := here.setLatch l

/-- `here` with control registers written. -/
def ruled (crs : List (CRegNo × Word)) : State := crs.foldl (fun s e => s.setCr .ctx0 e.1 e.2) here

/-- The invariant from its parts. -/
theorem inv_of {s : State} (hm : Memory.wf s.mem = true)
    (hr : (∀ n, setsReserved n (s.getCr .ctx0 n) = false) ∧ ∀ n, setsReserved n (s.getCr .ctx1 n) = false)
    (hl : s.latch = {}) : s.Inv :=
  ⟨hm, fun n => (reservedOk_iff n _).2 (hr.1 n), fun n => (reservedOk_iff n _).2 (hr.2 n), hl⟩

theorem witness_StepKeepsInvariant :
    (start [0xFF#8] [] [] []).Inv ∧
      step (start [0xFF#8] [] [] []) = .next (result (step (start [0xFF#8] [] [] [])) here) :=
  ⟨inv_of (by decide) (by decide) rfl, next_of _ (by decide)⟩

theorem witness_AddWritesSumAndFlags : Runs (.add 7#3 1#4 (.reg 2#4)) here := runs_of (by decide)
theorem witness_SubWritesDifferenceAndFlags : Runs (.sub 7#3 1#4 (.imm 0xFFFF#16)) here := runs_of (by decide)
theorem witness_CmpWritesFlagsOnly : Runs (.cmp 1#3 1#4 (.reg 2#4)) here := runs_of (by decide)
theorem witness_IncAddsSmallConstant :
    Runs (.inc 7#3 1#4 7#4) here ∧ Runs (.inc 7#3 1#4 8#4) here := ⟨runs_of (by decide), runs_of (by decide)⟩
theorem witness_LogicWritesResultAndFlags :
    (Runs (.xor 7#3 1#4 (.reg 2#4)) here ∧ ∀ j, (0x1237#16).getLsbD j =
      ((here.getRef (here.rx 1#4)).getLsbD j != (here.vy (.reg 2#4)).getLsbD j)) ∧
    (Runs (.and 7#3 1#4 (.imm 0x30#16)) here ∧ ∀ j, (0x30#16).getLsbD j =
      ((here.getRef (here.rx 1#4)).getLsbD j && (here.vy (.imm 0x30#16)).getLsbD j)) ∧
    (Runs (.orr 7#3 1#4 (.reg 2#4)) here ∧ ∀ j, (0x1237#16).getLsbD j =
      ((here.getRef (here.rx 1#4)).getLsbD j || (here.vy (.reg 2#4)).getLsbD j)) := by
  have a : here.getRef (here.rx 1#4) = 0x1234#16 := by decide
  have b : here.vy (.reg 2#4) = 3#16 := by decide
  refine ⟨⟨runs_of (by decide), fun j => ?_⟩, ⟨runs_of (by decide), fun j => ?_⟩, ⟨runs_of (by decide), fun j => ?_⟩⟩
  · rw [a, b, show (0x1237#16) = 0x1234#16 ^^^ 3#16 by decide, BitVec.getLsbD_xor]
  · rw [a, show here.vy (.imm 0x30#16) = 0x30#16 from rfl, ← BitVec.getLsbD_and]; rfl
  · rw [a, b, ← BitVec.getLsbD_or]; rfl
theorem witness_ShiftsWriteResultAndFlags :
    Runs (.shl 7#3 1#4 (.imm 16#16)) here ∧ Runs (.sru 7#3 1#4 (.imm 16#16)) here ∧
      Runs (.srs 7#3 1#4 (.imm 15#16)) here :=
  ⟨runs_of (by decide), runs_of (by decide), runs_of (by decide)⟩
theorem witness_MultiplyWritesBothHalves :
    (here.rd 1#4).num ≠ (here.rdx 1#4).num ∧ Runs (.mlu 7#3 1#4 (.reg 2#4)) here ∧ Runs (.mls 7#3 1#4 (.reg 2#4)) here :=
  ⟨by decide, runs_of (by decide), runs_of (by decide)⟩
theorem witness_DvuWritesQuotientAndRemainder :
    (Ready (.dvu 7#3 1#4 (.reg 0#4)) here ∧ here.vy (.reg 0#4) = 0#16) ∧
    (Runs (.dvu 7#3 1#4 (.imm 7#16)) here ∧ here.vy (.imm 7#16) ≠ 0#16 ∧ (here.rd 1#4).num ≠ (here.rdx 1#4).num ∧
      (here.getRef (here.rx 1#4)).toNat = 665 * (here.vy (.imm 7#16)).toNat + 5 ∧ 5 < (here.vy (.imm 7#16)).toNat) :=
  ⟨⟨ready_of (by decide), by decide⟩, runs_of (by decide), by decide, by decide, by decide, by decide⟩
/-- `here` with `R1` at -32768. -/
def lowest : State := here.setReg .ctx0 1#4 0x8000#16
theorem witness_DvsWritesQuotientAndRemainder :
    (Ready (.dvs 7#3 1#4 (.reg 0#4)) here ∧ (here.vy (.reg 0#4)).toInt = 0) ∧
    (Ready (.dvs 7#3 1#4 (.imm 0xFFFF#16)) lowest ∧ (lowest.getRef (lowest.rx 1#4)).toInt = -32768 ∧
      (lowest.vy (.imm 0xFFFF#16)).toInt = -1) ∧
    (Runs (.dvs 7#3 1#4 (.imm 0xFFFE#16)) lowest ∧ (lowest.vy (.imm 0xFFFE#16)).toInt ≠ 0 ∧
      ¬ ((lowest.getRef (lowest.rx 1#4)).toInt = -32768 ∧ (lowest.vy (.imm 0xFFFE#16)).toInt = -1) ∧
      (lowest.rd 1#4).num ≠ (lowest.rdx 1#4).num) :=
  ⟨⟨ready_of (by decide), by decide⟩, ⟨ready_of (by decide), by decide, by decide⟩, runs_of (by decide), by decide,
    by decide, by decide⟩
/-- Two `DR` prefixes that name one register. -/
def twice : State := under (notedPrefixes [.dr 4#4, .dr 4#4])
theorem witness_SameDestinationIsRefused :
    (twice.rd 1#4).num = (twice.rdx 1#4).num ∧ Ready (.mlu 7#3 1#4 (.reg 2#4)) twice ∧
      Ready (.mls 7#3 1#4 (.reg 2#4)) twice ∧ Ready (.dvu 7#3 1#4 (.reg 2#4)) twice ∧
      Ready (.dvs 7#3 1#4 (.reg 2#4)) twice ∧ twice.vy (.reg 2#4) ≠ 0#16 ∧
      ¬ (twice.getRef (twice.rx 1#4) = 0x8000#16 ∧ twice.vy (.reg 2#4) = 0xFFFF#16) ∧
      twice.latch = notedPrefixes [.dr 4#4, .dr 4#4] :=
  ⟨by decide, ready_of (by decide), ready_of (by decide), ready_of (by decide), ready_of (by decide), by decide,
    by decide, rfl⟩
theorem witness_MovWritesValueAndFlags : Runs (.mov 7#3 1#4 (.reg 2#4)) (under { xx := true, tf := true }) :=
  runs_of (by decide)

/-- `here` on a platform where control register 3 fails. -/
def failing : State := { here with cfg := { testParams with cregFailRead := 8#16, cregFailWrite := 8#16 } }
theorem witness_RdcReadsControlRegister :
    Runs (.rdc 7#3 1#4 0#4) here ∧ Runs (.rdc 7#3 1#4 6#4) here ∧ Runs (.rdc 7#3 1#4 15#4) here ∧
      ∀ n : CRegNo, (here.getCr here.active 0#4).getLsbD n.toNat = false ∧
        here.cfg.cregFailRead.getLsbD n.toNat = false :=
  ⟨runs_of (by decide), runs_of (by decide), runs_of (by decide), by decide⟩
theorem witness_ControlAccessFailureSetsCarry :
    (Runs (.rdc 7#3 1#4 3#4) failing ∧ (failing.getCr failing.active 0#4).getLsbD 3 = false ∧
      failing.cfg.cregFailRead.getLsbD 3 = true) ∧
    (Runs (.wrc 7#3 3#4 2#4) failing ∧ (failing.getCr failing.active 1#4).getLsbD 3 = false ∧
      reservedOk 3#4 (failing.getRef (failing.ry 2#4)) ∧ failing.cfg.cregFailWrite.getLsbD 3 = true) :=
  ⟨⟨runs_of (by decide), by decide, by decide⟩, runs_of (by decide), by decide,
    (reservedOk_iff _ _).2 (by decide), by decide⟩
theorem witness_DeniedControlAccessRaises :
    (Ready (.rdc 7#3 1#4 15#4) (ruled [(0#4, 0x8000#16)]) ∧
      ((ruled [(0#4, 0x8000#16)]).getCr .ctx0 0#4).getLsbD 15 = true) ∧
    (Ready (.wrc 7#3 0#4 2#4) (ruled [(1#4, 1#16)]) ∧ ((ruled [(1#4, 1#16)]).getCr .ctx0 1#4).getLsbD 0 = true) :=
  ⟨⟨ready_of (by decide), by decide⟩, ready_of (by decide), by decide⟩
theorem witness_WrcWritesControlRegister :
    Runs (.wrc 7#3 0#4 2#4) here ∧ Runs (.wrc 7#3 14#4 2#4) here ∧ Runs (.wrc 7#3 11#4 2#4) here ∧
      0#4 ∉ [4#4, 5#4, 6#4, 7#4, 13#4, 15#4] ∧ 14#4 ∉ [4#4, 5#4, 6#4, 7#4, 13#4, 15#4] ∧
      11#4 ∉ [4#4, 5#4, 6#4, 7#4, 13#4, 15#4] ∧ (∀ n, reservedOk n (here.getRef (here.ry 0#4))) ∧
      reservedOk 11#4 (here.getRef (here.ry 2#4)) ∧
      ∀ n : CRegNo, (here.getCr here.active 1#4).getLsbD n.toNat = false ∧
        here.cfg.cregFailWrite.getLsbD n.toNat = false :=
  ⟨runs_of (by decide), runs_of (by decide), runs_of (by decide), by decide, by decide, by decide,
    fun n => (reservedOk_iff _ _).2 (by revert n; decide), (reservedOk_iff _ _).2 (by decide), by decide⟩
theorem witness_WrcFlagsWriteBackComesLast :
    Runs (.wrc 7#3 15#4 2#4) here ∧ here.writesFlags 7#3 ∧ Runs (.wrc 7#3 15#4 2#4) (under { tf := true }) ∧
      ¬ (under { tf := true }).writesFlags 7#3 ∧ (here.getCr here.active 1#4).getLsbD 15 = false ∧
      reservedOk 15#4 (here.getRef (here.ry 2#4)) ∧ here.cfg.cregFailWrite.getLsbD 15 = false :=
  ⟨runs_of (by decide), by rw [← writeBack_iff]; decide, runs_of (by decide), by rw [← writeBack_iff]; decide,
    by decide, (reservedOk_iff _ _).2 (by decide), by decide⟩
/-- `here` with `R2` at 1. -/
def one : State := here.setReg .ctx0 2#4 1#16
theorem witness_WrcTimerCountsItself :
    (Ready (.wrc 7#3 13#4 2#4) one ∧ one.getRef (one.ry 2#4) = 1#16 ∧ (one.getCr one.active 1#4).getLsbD 13 = false ∧
      one.cfg.cregFailWrite.getLsbD 13 = false) ∧
    (Ready (.wrc 7#3 13#4 0#4) one ∧ one.getRef (one.ry 0#4) = 0#16) ∧
    (Ready (.wrc 7#3 13#4 2#4) here ∧ here.getRef (here.ry 2#4) = 3#16 ∧
      (here.getCr here.active 1#4).getLsbD 13 = false ∧ here.cfg.cregFailWrite.getLsbD 13 = false) :=
  ⟨⟨ready_of (by decide), by decide, by decide, by decide⟩, ⟨ready_of (by decide), by decide⟩, ready_of (by decide),
    by decide, by decide, by decide⟩
theorem witness_WrcCountThenIncrements :
    Runs (.wrc 7#3 4#4 2#4) here ∧ Runs (.wrc 7#3 5#4 2#4) here ∧
      (∀ n : CRegNo, (here.getCr here.active 1#4).getLsbD n.toNat = false ∧
        here.cfg.cregFailWrite.getLsbD n.toNat = false) :=
  ⟨runs_of (by decide), runs_of (by decide), by decide⟩
theorem witness_WrcRefusesExecStateAndReservedBits :
    Ready (.wrc 7#3 6#4 2#4) here ∧ Ready (.wrc 7#3 7#4 2#4) here ∧ Ready (.wrc 7#3 15#4 1#4) here ∧
      ¬ reservedOk 15#4 (here.getRef (here.ry 1#4)) ∧ Ready (.wrc 7#3 8#4 1#4) here ∧
      ¬ reservedOk 8#4 (here.getRef (here.ry 1#4)) ∧
      ∀ n : CRegNo, (here.getCr here.active 1#4).getLsbD n.toNat = false :=
  ⟨ready_of (by decide), ready_of (by decide), ready_of (by decide), by rw [reservedOk_iff]; decide,
    ready_of (by decide), by rw [reservedOk_iff]; decide, by decide⟩

/-- Base 0x1000 in `R1`, 0x1234 in `R3`, and the word 0xABCD at 0x1002. -/
def stored : State :=
  start [] [(1#4, 0x1000#16), (3#4, 0x1234#16), (11#4, 0x1002#16)] [] [(0x1002, 0xCD#8), (0x1003, 0xAB#8)]
theorem witness_LoadsWriteValueAndFlags :
    (Runs (.ldw 7#3 1#4 (.imm 2#16)) stored ∧ stored.wordAt .read (stored.effAddr 1#4 (.imm 2#16)) 0x1002#24 ∧
      stored.holdsWord 0x1002#24 0xABCD#16) ∧
    (Runs (.ldb 7#3 1#4 (.imm 3#16)) stored ∧ stored.byteAt .read (stored.effAddr 1#4 (.imm 3#16)) 0x1003#24 ∧
      Memory.read stored.mem (0x1003#24).toNat = some 0xAB#8) :=
  ⟨⟨runs_of (by decide), ⟨by decide, rfl, by decide, by decide⟩, by decide, by decide⟩, runs_of (by decide),
    ⟨rfl, by decide⟩, by decide⟩
theorem witness_StoresWriteBytes :
    (Runs (.stw 7#3 1#4 (.imm 2#16)) stored ∧ stored.wordAt .write (stored.effAddr 1#4 (.imm 2#16)) 0x1002#24) ∧
    (Runs (.stb 7#3 1#4 (.imm 3#16)) stored ∧ stored.byteAt .write (stored.effAddr 1#4 (.imm 3#16)) 0x1003#24) :=
  ⟨⟨runs_of (by decide), ⟨by decide, rfl, by decide, by decide⟩⟩, runs_of (by decide), ⟨rfl, by decide⟩⟩
/-- `stored` with an odd stack pointer. -/
def odd : State := stored.setReg .ctx0 11#4 0x1003#16
theorem witness_UnalignedAccessRaises :
    Ready (.ldw 7#3 1#4 (.imm 3#16)) odd ∧ Ready (.stw 7#3 1#4 (.imm 3#16)) odd ∧
      (odd.effAddr 1#4 (.imm 3#16)).toNat % 2 = 1 ∧ Ready (.psh 7#3 1#16) odd ∧ Ready (.pop 7#3 0x8000#16) odd ∧
      (odd.getRef (odd.rd 11#4)).toNat % 2 = 1 :=
  ⟨ready_of (by decide), ready_of (by decide), by decide, ready_of (by decide), ready_of (by decide), by decide⟩
/-- `stored` with reads and writes sent to region 0x2A, which no bus region answers. -/
def nowhere : State := (stored.setCr .ctx0 8#4 0x2A00#16).setCr .ctx0 9#4 0x2A00#16
/-- `stored` with the MMU on for reads and writes and a table that the bus does not answer. -/
def noTable : State := (stored.setCr .ctx0 8#4 0xFFFF#16).setCr .ctx0 9#4 0xFFFF#16
/-- `stored` where the bus answers up to 0x1002 and no further. -/
def halfBus : State :=
  { stored with cfg := { testParams with physMap := [{ base := 0, size := 0x1003, read := true, write := true, fetch := true }] } }
theorem witness_DataAccessExceptionRaises :
    (noTable.translate (noTable.effAddr 1#4 (.imm 2#16)) .read = .exc (.bus .read 0x1002#16) ∧
      Ready (.ldb 7#3 1#4 (.imm 2#16)) noTable) ∧
    (nowhere.translate (nowhere.effAddr 1#4 (.imm 2#16)) .write = .ok 0x2A1002#24 ∧
      physMapHas nowhere.cfg.physMap (0x2A1002#24).toNat .write = false ∧
      Ready (.stb 7#3 1#4 (.imm 2#16)) nowhere ∧ Ready (.stw 7#3 1#4 (.imm 2#16)) nowhere ∧
      (nowhere.effAddr 1#4 (.imm 2#16)).toNat % 2 = 0) ∧
    (halfBus.translate (halfBus.effAddr 1#4 (.imm 2#16)) .read = .ok 0x1002#24 ∧
      Memory.read halfBus.mem (0x1002#24).toNat ≠ none ∧
      physMapHas halfBus.cfg.physMap (0x1002#24 + 1#24).toNat .read = false ∧
      Ready (.ldw 7#3 1#4 (.imm 2#16)) halfBus ∧ (halfBus.effAddr 1#4 (.imm 2#16)).toNat % 2 = 0) :=
  ⟨⟨rfl, ready_of (by decide)⟩, ⟨rfl, by decide, ready_of (by decide), ready_of (by decide), by decide⟩, rfl, by decide,
    by decide, ready_of (by decide), by decide⟩
theorem witness_PshPushesInDescendingOrder :
    Runs (.psh 7#3 0x000A#16) stored ∧ ∃ u, Chain (PushesOne (stored.rd 11#4)) (descending 0x000A#16) stored u :=
  ⟨runs_of (by decide), _, _, ⟨_, 0x1000#24, rfl, ⟨by decide, rfl, by decide, by decide⟩, rfl⟩, _,
    ⟨_, 0x0FFE#24, rfl, ⟨by decide, rfl, by decide, by decide⟩, rfl⟩, rfl⟩
theorem witness_PopPopsInAscendingOrder :
    Runs (.pop 7#3 0x8000#16) stored ∧ ∃ u, Chain (PopsOne (stored.rd 11#4)) (ascending 0x8000#16) stored u :=
  ⟨runs_of (by decide), _, _, ⟨0xABCD#16, _, 0x1002#24, ⟨by decide, rfl, by decide, by decide⟩,
    ⟨by decide, by decide⟩, rfl, rfl⟩, rfl⟩
/-- `stored` where the bus answers writes from 0x1000 on and the one byte 0x0FFE. -/
def lowBus : State :=
  { stored with cfg := { testParams with physMap := [{ base := 0x1000, size := 0x1000, read := true, write := true, fetch := true },
      { base := 0x0FFE, size := 1, read := true, write := true, fetch := true }] } }
/-- The word 0x9001 and nothing more where the stack pointer points. -/
def oddStack : State := start [] [] [(11#4, 0#16)] [(0x9000, 0x01#8), (0x9001, 0x90#8)] |>.setReg .ctx0 11#4 0x9000#16
/-- Writes paged, with a table entry for page 0x7B and none for page 0x7A; the stack pointer at 0x7B02. -/
def lastPage : State := start [] [(11#4, 0x7B02#16)] [(9#4, 0x41#16)] [(0x40F6, 0x2E#8), (0x40F7, 0#8)]
/-- Part way through, after one transfer: a push whose second byte fails, a push into a page whose entry is unwritten, a
pop of `SP` that leaves an odd pointer, and a pop that meets an unwritten byte. -/
theorem witness_StackExceptionKeepsEarlierTransfers :
    (Ready (.psh 7#3 6#16) lowBus ∧ descending 6#16 = [2#4] ++ 1#4 :: [] ∧
      ∃ u, Chain (PushesOne (lowBus.rd 11#4)) [2#4] lowBus u ∧
        (u.setReg .ctx0 11#4 0x0FFE#16).wordRaises .write 0x0FFE#16 (.bus .write 0x0FFE#16)) ∧
    (Ready (.psh 7#3 6#16) lastPage ∧
      ∃ u, Chain (PushesOne (lastPage.rd 11#4)) [2#4] lastPage u ∧
        (u.setReg .ctx0 11#4 0x7AFE#16).wordStops .write 0x7AFE#16 0x40F4) ∧
    (Ready (.pop 7#3 0x1800#16) oddStack ∧ ascending 0x1800#16 = [11#4] ++ 12#4 :: [] ∧
      ∃ u, Chain (PopsOne (oddStack.rd 11#4)) [11#4] oddStack u ∧
        u.wordRaises .read (u.getReg .ctx0 11#4) (.unaligned .read 0x9003#16)) ∧
    (Ready (.pop 7#3 6#16) oddStack ∧ ascending 6#16 = [1#4] ++ 2#4 :: [] ∧
      ∃ u, Chain (PopsOne (oddStack.rd 11#4)) [1#4] oddStack u ∧ u.wordStops .read (u.getReg .ctx0 11#4) 0x9002) :=
  ⟨⟨ready_of (by decide), by decide, _, ⟨_, ⟨_, 0x1000#24, rfl, ⟨by decide, rfl, by decide, by decide⟩, rfl⟩, rfl⟩,
      .inr ⟨by decide, .inr ⟨0x0FFE#24, rfl, rfl, .inr ⟨(fun h => by cases h), by decide⟩⟩⟩⟩,
    ⟨ready_of (by decide), _, ⟨_, ⟨_, 0x2E00#24, rfl, ⟨by decide, rfl, by decide, by decide⟩, rfl⟩, rfl⟩,
      by decide, .inl rfl⟩,
    ⟨ready_of (by decide), by decide, _, ⟨_, ⟨0x9001#16, _, 0x9000#24, ⟨by decide, rfl, by decide, by decide⟩,
      ⟨by decide, by decide⟩, rfl, rfl⟩, rfl⟩, .inl ⟨by decide, by decide⟩⟩,
    ready_of (by decide), by decide, _, ⟨_, ⟨0x9001#16, _, 0x9000#24, ⟨by decide, rfl, by decide, by decide⟩,
      ⟨by decide, by decide⟩, rfl, rfl⟩, rfl⟩, by decide, .inr ⟨rfl, 0x9002#24, rfl, by decide, .inl ⟨by decide, by decide⟩⟩⟩
theorem witness_PopRestoresWhatPshSaved :
    Runs (.psh 7#3 0x8002#16) here ∧ here.latch = {} ∧ (0x8002#16).getLsbD 11 = false ∧
      (here.getReg here.active 11#4).toNat % 2 = 0 ∧ here.getCr here.active 8#4 = here.getCr here.active 9#4 ∧
      (here.getCr here.active 9#4).getLsbD 0 = false ∧
      (∀ va : Word, ∀ mode, mode ≠ .execute →
        physMapHas here.cfg.physMap (regionTranslate (here.getCr here.active 9#4) va).toNat mode = true) ∧
      exec (.psh 7#3 0x8002#16) here = .next (result (exec (.psh 7#3 0x8002#16) here) here) ∧
      Runs (.pop 7#3 0x8002#16) (result (exec (.psh 7#3 0x8002#16) here) here) := by
  refine ⟨runs_of (by decide), rfl, by decide, by decide, by decide, by decide, ?_, next_of _ (by decide),
    runs_of (by decide)⟩
  intro va mode _
  have h0 : here.getCr here.active 9#4 = 0#16 := by decide
  have hp : here.cfg.physMap = launchPhysMap := rfl
  have hv : (regionTranslate 0#16 va).toNat = va.toNat := by
    show ((0#16).extractLsb' 0 8 ++ va).toNat = _
    rw [BitVec.toNat_append]; simp
  rw [h0, hp, hv]
  have := va.isLt
  cases mode <;> simp [physMapHas, launchPhysMap, regionAllows] <;> omega
theorem witness_StoredWordReadsBackLittleEndian :
    Runs (.stw 7#3 1#4 (.imm 2#16)) stored ∧ stored.wordAt .write (stored.effAddr 1#4 (.imm 2#16)) 0x1002#24 ∧
      exec (.stw 7#3 1#4 (.imm 2#16)) stored = .next (result (exec (.stw 7#3 1#4 (.imm 2#16)) stored) here) ∧
      (result (exec (.stw 7#3 1#4 (.imm 2#16)) stored) here).wordAt .read (stored.effAddr 1#4 (.imm 2#16)) 0x1002#24 ∧
      (result (exec (.stw 7#3 1#4 (.imm 2#16)) stored) here).byteAt .read
        (stored.effAddr 1#4 (.imm 2#16) + 1#16) (0x1002#24 + 1#24) :=
  ⟨runs_of (by decide), ⟨by decide, rfl, by decide, by decide⟩, next_of _ (by decide),
    ⟨by decide, rfl, by decide, by decide⟩, rfl, by decide⟩

theorem witness_RegionTranslationPrependsRegion :
    (nowhere.getCr nowhere.active 8#4).getLsbD 0 = false ∧ (nowhere.getCr nowhere.active 9#4).getLsbD 0 = false ∧
      (nowhere.getCr nowhere.active 10#4).getLsbD 0 = false := by decide
/-- The MMU on for every mode with a table at 0x4000 whose entry for page 0x7A is 0x2E01, refused for fetches. -/
def paged : State :=
  start [] [] [(8#4, 0x41#16), (9#4, 0x41#16), (10#4, 0x41#16)] [(0x40F4, 0x01#8), (0x40F5, 0x2E#8)]
/-- `paged` where the bus answers the entry's low byte and no further. -/
def halfTable : State :=
  { paged with cfg := { testParams with physMap := [{ base := 0, size := 0x40F5, read := true, write := true, fetch := true }] } }
theorem witness_PageTranslationWalksTable :
    ((noTable.getCr noTable.active 8#4).getLsbD 0 = true ∧
      (0xFFFE20#24).toNat = (noTable.getCr noTable.active 8#4).toNat / 2 * 2 * 256 + 2 * ((0x1002#16).toNat / 256) ∧
      physMapHas noTable.cfg.physMap (0xFFFE20#24).toNat .read = false) ∧
    ((halfTable.getCr halfTable.active 8#4).getLsbD 0 = true ∧
      physMapHas halfTable.cfg.physMap (0x40F4#24).toNat .read = true ∧
      Memory.read halfTable.mem (0x40F4#24).toNat ≠ none ∧
      physMapHas halfTable.cfg.physMap ((0x40F4#24).toNat + 1) .read = false) ∧
    ((paged.getCr paged.active 10#4).getLsbD 0 = true ∧
      (0x40F4#24).toNat = (paged.getCr paged.active 10#4).toNat / 2 * 2 * 256 + 2 * ((0x7A10#16).toNat / 256) ∧
      physMapHas paged.cfg.physMap (0x40F4#24).toNat .read = true ∧
      physMapHas paged.cfg.physMap ((0x40F4#24).toNat + 1) .read = true ∧ paged.holdsWord 0x40F4#24 0x2E01#16 ∧
      pteFaults paged.cfg.pteFault 0x2E01#16 .execute = true ∧ pteFaults paged.cfg.pteFault 0x2E01#16 .read = false) := by
  refine ⟨by decide, by decide, by decide, by decide, by decide, by decide, ⟨by decide, by decide⟩, by decide, by decide⟩

theorem witness_BraWritesDpcAndPc : Runs (.bra 7#3 1#4 (.reg 2#4)) here := runs_of (by decide)
theorem witness_BrrMovesPcByStrides : Runs (.brr 7#3 0xFFF9#16) here := runs_of (by decide)
theorem witness_FcaLinksAndBranches :
    (Runs (.fca 7#3 1#4 (.reg 2#4)) here ∧
      (here.rx 1#4 ≠ ⟨here.active, 12#4⟩ ∧ here.rx 1#4 ≠ ⟨here.active, 13#4⟩) ∧
      (∀ y, Vy.reg 2#4 = .reg y → here.ry y ≠ ⟨here.active, 12#4⟩ ∧ here.ry y ≠ ⟨here.active, 13#4⟩)) ∧
    (Runs (.fca 7#3 12#4 (.imm 8#16)) (under { xx := true }) ∧
      (under { xx := true }).rx 12#4 ≠ ⟨(under { xx := true }).active, 12#4⟩) :=
  ⟨⟨runs_of (by decide), by decide, fun y h => by cases h; decide⟩, runs_of (by decide), by decide⟩
theorem witness_FcaRefusesLinkOperand :
    Ready (.fca 7#3 12#4 (.imm 0#16)) here ∧ Ready (.fca 7#3 1#4 (.reg 13#4)) here ∧
      Ready (.fca 7#3 1#4 (.reg 13#4)) (under { xy := true }) :=
  ⟨ready_of (by decide), ready_of (by decide), ready_of (by decide)⟩
theorem witness_FcrLinksAndMovesPc : Runs (.fcr 7#3 5#16) here := runs_of (by decide)
theorem witness_RdbReadsPort :
    (Runs (.rdb 7#3 1#4 15#4) (withPorts here [some 0x80#8] []) ∧
      (withPorts here [some 0x80#8] []).portAnswer 15#4 = some 0x80#8) ∧
    (Runs (.rdb 7#3 1#4 0#4) (withPorts here [none] []) ∧ (withPorts here [none] []).portAnswer 0#4 = none) :=
  ⟨⟨runs_of (by decide), by decide⟩, runs_of (by decide), by decide⟩
theorem witness_WrbWritesPort :
    Runs (.wrb 7#3 15#4 (.reg 1#4)) (withPorts here [] [false]) ∧
      0x34#8 = BitVec.ofNat 8 ((withPorts here [] [false]).vy (.reg 1#4)).toNat := ⟨runs_of (by decide), by decide⟩
/-- `here` with a debugger attached. -/
def debugged : State := { here with cfg := { testParams with debugger := true } }
theorem witness_BptStopsOnlyForDebugger :
    (Runs (.bpt 7#3) here ∧ here.cfg.debugger = false) ∧ (Ready (.bpt 7#3) debugged ∧ debugged.cfg.debugger = true) :=
  ⟨⟨runs_of (by decide), rfl⟩, ready_of (by decide), rfl⟩
theorem witness_HltSwapsContexts : Runs (.hlt 7#3) here := runs_of (by decide)
theorem witness_NopOnlyCompletes : Runs (.nop 7#3) here := runs_of (by decide)

theorem witness_PrefixesAreNoted :
    here.latch.rd = none ∧ (under { rd := some 1#4 }).latch.rd ≠ none ∧ (under { rd := some 1#4 }).latch.rdx = none ∧
      (under { rd := some 1#4, rdx := some 2#4 }).latch.rd ≠ none ∧
      (under { rd := some 1#4, rdx := some 2#4 }).latch.rdx ≠ none := by decide
/-- The bytes 0xC1 0xC5 at 0x0100, and 0xCF. -/
def reservedCode (b : Byte) : State := start [0xC1#8, b] [] [] []
theorem witness_ReservedPrefixFaults :
    ((reservedCode 0xC5#8).ended ≠ .breakpoint ∧ (∀ p ∈ [Instr.tf], p.isPrefix = true ∧ p ≠ .xc) ∧
      (reservedCode 0xC5#8).codeAt ((reservedCode 0xC5#8).getReg .ctx0 14#4) ([Instr.tf].flatMap (encode .two) ++ [0xC5#8])) ∧
    (reservedCode 0xCF#8).codeAt ((reservedCode 0xCF#8).getReg .ctx0 14#4) ([Instr.tf].flatMap (encode .two) ++ [0xCF#8]) :=
  ⟨⟨by decide, by decide, ⟨⟨_, rfl, by decide, by decide⟩, ⟨_, rfl, by decide, by decide⟩, trivial⟩⟩,
    ⟨_, rfl, by decide, by decide⟩, ⟨_, rfl, by decide, by decide⟩, trivial⟩
theorem witness_OperandsResolve :
    here.latch.rd = none ∧ here.latch.rdx = none ∧ here.cfg.memBase = .rx ∧ twice.latch.rd = some 4#4 ∧
      twice.latch.rdx = some 4#4 ∧
      ({ here with cfg := { testParams with memBase := .zero } } : State).cfg.memBase = .zero := by decide
theorem witness_ConditionsHoldAsTabulated :
    (here.latch.xc = false ∧ (under { xc := true }).latch.xc = true) ∧
    (Runs (.cmp 7#3 1#4 (.reg 2#4)) here ∧ Runs (.sub 7#3 1#4 (.reg 2#4)) here ∧ here.latch.tf = false ∧
      exec (.cmp 7#3 1#4 (.reg 2#4)) here = .next (result (exec (.cmp 7#3 1#4 (.reg 2#4)) here) here) ∧
      exec (.sub 7#3 1#4 (.reg 2#4)) here = .next (result (exec (.sub 7#3 1#4 (.reg 2#4)) here) here)) :=
  ⟨by decide, runs_of (by decide), runs_of (by decide), rfl, next_of _ (by decide), next_of _ (by decide)⟩
theorem witness_FalseConditionOnlyCompletes :
    opcodeRow (.rdc 0#3 1#4 0#4) = some { op := 0x0E, cond := 0#3, rx := true } ∧ ¬ here.xregsDenied ∧
      ¬ here.opcodeDenied 0x0E ∧ prefixesFit here.latch { op := 0x0E, cond := 0#3, rx := true } ∧
      here.condOn 0#3 = false ∧ here.getCr here.active 13#4 ≠ 1#16 :=
  ⟨rfl, by unfold State.xregsDenied; decide, by unfold State.opcodeDenied; decide, by unfold prefixesFit; decide,
    by decide, by decide⟩
/-- `FLAG_DENY_XREGS` set and an `XZ` prefix noted. -/
def sealed : State := (ruled [(15#4, 0x20#16)]).setLatch { xz := true }
theorem witness_DeniedInstructionRaises :
    (opcodeRow (.nop 0#3) = some { op := 0x1F, cond := 0#3 } ∧ sealed.xregsDenied) ∧
      (ruled [(3#4, 0x8000#16)]).opcodeDenied 0x1F ∧ (ruled [(2#4, 1#16)]).opcodeDenied 0x00 ∧
      opcodeRow (.add 7#3 1#4 (.reg 2#4)) = some { op := 0x00, cond := 7#3, rx := true, ry := true, rd := true } :=
  ⟨⟨rfl, by unfold State.xregsDenied; decide⟩, by unfold State.opcodeDenied; decide,
    by unfold State.opcodeDenied; decide, rfl⟩
theorem witness_MisplacedPrefixIsRefused :
    (opcodeRow (.mov 7#3 1#4 (.imm 5#16)) = some { op := 0x0C, cond := 7#3, rx := true } ∧
      ¬ (under { xy := true }).xregsDenied ∧ ¬ (under { xy := true }).opcodeDenied 0x0C ∧
      ¬ prefixesFit (under { xy := true }).latch { op := 0x0C, cond := 7#3, rx := true }) ∧
    ¬ prefixesFit (under { rd := some 1#4, rdx := some 2#4, extraDr := true }).latch
      { op := 0x02, cond := 7#3, rx := true, ry := true, rd := true, rdx := true } :=
  ⟨⟨rfl, by unfold State.xregsDenied; decide, by unfold State.opcodeDenied; decide, by unfold prefixesFit; decide⟩,
    by unfold prefixesFit; decide⟩
/-- `TIMER` at 1 under each `EXC_ACTION`. -/
def expiring (action : ExcAction) : State := { ruled [(13#4, 1#16)] with cfg := { testParams with excAction := action } }
theorem usesTimer_of_ne {i : Instr} {s : State} (h : (∀ cond x, i ≠ .rdc cond x 13#4) ∧ ∀ cond y, i ≠ .wrc cond 13#4 y) :
    ¬ s.usesTimer i := by
  rintro (⟨c, x, e, -⟩ | ⟨c, y, e, -⟩)
  · exact h.1 c x e
  · exact h.2 c y e
theorem witness_TimerExpiryIsPrecise :
    (∀ act, (expiring act).getCr (expiring act).active 13#4 = 1#16) ∧
    (∀ i ∈ [Instr.add 7#3 1#4 (.reg 2#4), .hlt 7#3], ¬ (expiring .swap).usesTimer i ∧
      exec i ((expiring .swap).setCr .ctx0 13#4 2#16) =
        .next (result (exec i ((expiring .swap).setCr .ctx0 13#4 2#16)) here) ∧
      (result (exec i ((expiring .swap).setCr .ctx0 13#4 2#16)) here).ended = .completed) ∧
    ((expiring .stop).condOn 0#3 = false ∧ opcodeRow (.rdc 0#3 1#4 13#4) = some { op := 0x0E, cond := 0#3, rx := true } ∧
      exec (.rdc 0#3 1#4 13#4) ((expiring .stop).setCr .ctx0 13#4 2#16) =
        .next (result (exec (.rdc 0#3 1#4 13#4) ((expiring .stop).setCr .ctx0 13#4 2#16)) here)) ∧
    (∀ act, Ready (.rdc 7#3 1#4 13#4) (expiring act) ∧ ((expiring act).getCr .ctx0 0#4).getLsbD 13 = false ∧
      (expiring act).cfg.cregFailRead.getLsbD 13 = false) ∧
    ∀ act, Ready (.nop 7#3) (expiring act) ∧ Ready (.hlt 7#3) (expiring act) := by
  refine ⟨fun act => by cases act <;> decide, fun i hi => ?_, ⟨by decide, rfl, next_of _ (by decide)⟩,
    fun act => ⟨ready_of (by cases act <;> decide), by cases act <;> decide, by cases act <;> decide⟩,
    fun act => ⟨ready_of (by cases act <;> decide), ready_of (by cases act <;> decide)⟩⟩
  simp only [List.mem_cons, List.not_mem_nil, or_false] at hi
  rcases hi with rfl | rfl <;>
    exact ⟨usesTimer_of_ne ⟨(fun _ _ h => by cases h), fun _ _ h => by cases h⟩, next_of _ (by decide), by decide⟩
/-- `ADD A0, 0x1234` at 0x0100. -/
def addCode : State := start [0xE0#8, 0x1F#8, 0x34#8, 0x12#8] [] [] []
theorem witness_StepRunsDecodedInstruction :
    addCode.ended ≠ .breakpoint ∧
      decode .two false [0xE0#8, 0x1F#8, 0x34#8, 0x12#8] = .ok (.add 7#3 1#4 (.imm 0x1234#16), []) ∧
      (Instr.add 7#3 1#4 (.imm 0x1234#16)).isPrefix = false ∧
      addCode.codeAt (addCode.getReg addCode.active 14#4) [0xE0#8, 0x1F#8, 0x34#8, 0x12#8] :=
  ⟨by decide, rfl, rfl, ⟨_, rfl, by decide, by decide⟩, ⟨_, rfl, by decide, by decide⟩, ⟨_, rfl, by decide, by decide⟩,
    ⟨_, rfl, by decide, by decide⟩, trivial⟩
/-- `TF`, `XC` and the opcode byte of `NOP.OD` at 0x0100. -/
def prefixedCode : State := start [0xC1#8, 0xC0#8, 0xDF#8] [] [] []
theorem witness_StepRunsPrefixedInstruction :
    prefixedCode.ended ≠ .breakpoint ∧ (∀ p ∈ [Instr.tf, .xc], p.isPrefix = true) ∧
      (∀ p ∈ [Instr.tf, .xc].dropLast, p ≠ .xc) ∧ (Instr.nop 6#3).isPrefix = false ∧
      (Instr.nop 6#3).wellFormed .two ([Instr.tf, .xc].contains .xc) = true ∧
      prefixedCode.codeAt (prefixedCode.getReg prefixedCode.active 14#4)
        ([Instr.tf, .xc].flatMap (encode .two) ++ encode .two (.nop 6#3)) :=
  ⟨by decide, by decide, by decide, rfl, by decide, ⟨_, rfl, by decide, by decide⟩, ⟨_, rfl, by decide, by decide⟩,
    ⟨_, rfl, by decide, by decide⟩, trivial⟩
/-- `addCode` where the bus answers the first three code bytes and no further. -/
def cutCode : State :=
  { addCode with cfg := { testParams with physMap := [{ base := 0, size := 0x103, read := true, write := true, fetch := true }] } }
/-- A `TF` prefix and the opcode byte of `ADD` at 0x0100, and nothing written after them. -/
def halfWritten : State := start [0xC1#8, 0xE0#8] [] [] []
theorem witness_FetchExceptionRaises :
    ((ruled [(10#4, 0x2A00#16)]).ended ≠ .breakpoint ∧ (Instr.nop 7#3).wellFormed .two false = true ∧
      encode .two (.nop 7#3) = [] ++ 0xFF#8 :: [] ∧
      (ruled [(10#4, 0x2A00#16)]).translate 0x0100#16 .execute = .ok 0x2A0100#24 ∧
      (ruled [(10#4, 0x2A00#16)]).getReg .ctx0 14#4 = 0x0100#16 ∧
      physMapHas (ruled [(10#4, 0x2A00#16)]).cfg.physMap (0x2A0100#24).toNat .execute = false ∧
      (ruled [(10#4, 0xFFFF#16)]).translate 0x0100#16 .execute = .exc (.bus .execute 0x0100#16)) ∧
    (encode .two (.add 7#3 1#4 (.imm 0x1234#16)) = [0xE0#8, 0x1F#8, 0x34#8] ++ 0x12#8 :: [] ∧
      cutCode.codeAt (cutCode.getReg cutCode.active 14#4) [0xE0#8, 0x1F#8, 0x34#8] ∧
      cutCode.translate 0x0103#16 .execute = .ok 0x000103#24 ∧
      physMapHas cutCode.cfg.physMap (0x000103#24).toNat .execute = false) ∧
    ([Instr.tf].flatMap (encode .two) ++ encode .two (.add 7#3 1#4 (.reg 2#4)) = [0xC1#8, 0xE0#8] ++ 0x12#8 :: [] ∧
      halfWritten.codeAt (halfWritten.getReg halfWritten.active 14#4) [0xC1#8, 0xE0#8] ∧
      halfWritten.translate 0x0102#16 .execute = .ok 0x000102#24 ∧
      physMapHas halfWritten.cfg.physMap (0x000102#24).toNat .execute = true ∧
      Memory.read halfWritten.mem (0x000102#24).toNat = none) :=
  ⟨⟨by decide, by decide, rfl, rfl, by decide, by decide, rfl⟩,
    ⟨rfl, ⟨⟨_, rfl, by decide, by decide⟩, ⟨_, rfl, by decide, by decide⟩, ⟨_, rfl, by decide, by decide⟩, trivial⟩, rfl,
      by decide⟩,
    rfl, ⟨⟨_, rfl, by decide, by decide⟩, ⟨_, rfl, by decide, by decide⟩, trivial⟩, rfl, by decide, by decide⟩
theorem witness_DecodeOfEncodeIsIdentity :
    (Instr.nop 6#3).wellFormed .two true = true ∧ (Instr.dr 15#4).wellFormed .two false = true ∧
      (Instr.wrc 7#3 15#4 15#4).wellFormed .two false = true ∧
      (Instr.wrb 7#3 3#4 (.imm 0xFF#16)).wellFormed .one false = true := by decide
theorem witness_EncodeOfDecodeIsIdentity :
    decode .two false [0xDF#8, 0x00#8] = .ok (.dr 15#4, [0x00#8]) ∧
      decode .one false [0xF9#8, 0x3F#8, 0x41#8, 0x00#8] = .ok (.wrb 7#3 3#4 (.imm 0x41#16), [0x00#8]) := ⟨rfl, rfl⟩

theorem witness_InactiveControlRegistersKept :
    addCode.cfg.sharedCregs = 0#16 ∧ step addCode = .next (result (step addCode) here) ∧ CtxId.ctx1 ≠ addCode.active :=
  ⟨rfl, next_of _ (by decide), by decide⟩
theorem witness_DenyXregsSealsOtherBank :
    ((addCode.setCr .ctx0 15#4 0x20#16).getCr .ctx0 15#4).getLsbD 5 = true ∧
      step (addCode.setCr .ctx0 15#4 0x20#16) = .next (result (step (addCode.setCr .ctx0 15#4 0x20#16)) here) ∧
      CtxId.ctx1 ≠ (addCode.setCr .ctx0 15#4 0x20#16).active := ⟨by decide, next_of _ (by decide), by decide⟩
/-- `addCode` with `CREG_DENY_W` and `INSN_DENY_0` sealed. -/
def locked : State := addCode.setCr .ctx0 1#4 6#16
theorem witness_WriteDenialIsPermanent :
    locked.cfg.sharedCregs = 0#16 ∧ 2#4 ∈ [0#4, 1#4, 2#4, 3#4, 8#4, 9#4, 10#4] ∧
      (locked.getCr .ctx0 1#4).getLsbD 1 = true ∧ (locked.getCr .ctx0 1#4).getLsbD (2#4).toNat = true ∧
      Sys2Proof.core.run 1 locked = .next (result (Sys2Proof.core.run 1 locked) here) :=
  ⟨rfl, by decide, by decide, by decide, next_of _ (by decide)⟩
/-- A `WRC EXC_INFO, A0` at `PC`, `A0` 0 and bit 0 of `EXC_INFO` set. -/
def clearing : State := (here.setReg .ctx0 1#4 0#16).setCr .ctx0 11#4 3#16 |>.withFetchWord 16 0xB1EF
theorem witness_ExceptionBitIsSticky :
    ((∀ cond y, Instr.add 7#3 1#4 (.reg 2#4) ≠ .wrc cond 11#4 y) ∧
      exec (.add 7#3 1#4 (.reg 2#4)) (ruled [(11#4, 3#16)]) =
        .next (result (exec (.add 7#3 1#4 (.reg 2#4)) (ruled [(11#4, 3#16)])) here) ∧
      ((ruled [(11#4, 3#16)]).getCr .ctx0 11#4).getLsbD 0 = true) ∧
    (step clearing = .next (result (step clearing) here) ∧ (clearing.getCr .ctx0 11#4).getLsbD 0 = true ∧
      ((result (step clearing) here).getCr .ctx0 11#4).getLsbD 0 = false) :=
  ⟨⟨(fun _ _ h => by cases h), next_of _ (by decide), by decide⟩, next_of _ (by decide +kernel), by decide +kernel,
    by decide +kernel⟩

end Sys2Proof.Tests
end

section
/-! PROOFS. Translation with the MMU off (R57, R58). -/

namespace Sys2Proof.Proofs.Translation
open Sys2Proof.Machine

/-- R58 as arithmetic: the region is the high byte of `m`, and bits 7 to 1 of `m` take no part. -/
theorem regionTranslate_toNat (m va : Word) : (regionTranslate m va).toNat = m.toNat / 256 * 65536 + va.toNat := by
  have region : (m.extractLsb' 8 8).toNat = m.toNat / 256 := by
    have := m.isLt
    rw [BitVec.extractLsb'_toNat, Nat.shiftRight_eq_div_pow]
    omega
  rw [regionTranslate, BitVec.toNat_append, ← Nat.shiftLeft_add_eq_or_of_lt va.isLt, region, Nat.shiftLeft_eq]

/-- Settles O31: the register the statement names is `State.membase`, and with its bit 0 clear `translate` answers the
address of R58. -/
theorem regionTranslationPrependsRegion : Obligations.RegionTranslationPrependsRegion := by
  intro s va mode m hm mmuOff
  obtain rfl : m = s.membase mode := by cases mode <;> exact hm
  exact ⟨regionTranslate (s.membase mode) va, translate_region mmuOff, regionTranslate_toNat _ va⟩

end Sys2Proof.Proofs.Translation
end

section
/-! PROOFS. Addition, subtraction and the bitwise operations: one result of `Rx` and `Vy`, written to `Rd` with its
flags (R140 to R142, R147 to R149). -/

namespace Sys2Proof.Proofs.ArithmeticLogic
open Sys2Proof Sys2Proof.Machine

/-! ## The arms of `exec`: each of these instructions is `oneResult` under the shape `Rx`, `Vy`, `Rd` -/

theorem exec_add (cond : BitVec 3) (x : RegNo) (v : Vy) (s : State) :
    exec (.add cond x v) s = runInsn (shapeRd 0x00#5 v) cond (oneResult addResult x v) s := rfl

theorem exec_sub (cond : BitVec 3) (x : RegNo) (v : Vy) (s : State) :
    exec (.sub cond x v) s = runInsn (shapeRd 0x01#5 v) cond (oneResult subResult x v) s := rfl

theorem exec_xor (cond : BitVec 3) (x : RegNo) (v : Vy) (s : State) :
    exec (.xor cond x v) s =
      runInsn (shapeRd 0x06#5 v) cond (oneResult (fun a b => plainResult (a ^^^ b)) x v) s := rfl

theorem exec_and (cond : BitVec 3) (x : RegNo) (v : Vy) (s : State) :
    exec (.and cond x v) s =
      runInsn (shapeRd 0x07#5 v) cond (oneResult (fun a b => plainResult (a &&& b)) x v) s := rfl

theorem exec_orr (cond : BitVec 3) (x : RegNo) (v : Vy) (s : State) :
    exec (.orr cond x v) s =
      runInsn (shapeRd 0x08#5 v) cond (oneResult (fun a b => plainResult (a ||| b)) x v) s := rfl

/-! ## What an instruction with one result computes -/

section
variable {i : Instr} {sh : Shape} {cond : BitVec 3} {x : RegNo} {v : Vy} {s : State}

/-- An instruction of any shape whose rule is `oneResult f` writes the value of `f` to `Rd`, its flags, and nothing
else. -/
theorem computes_oneResult {f : Word → Word → Result} (hrow : opcodeRow i = some (sh.row cond))
    (hexec : exec i s = runInsn sh cond (oneResult f x v) s) (runs : Runs i s) :
    Computes i s cond (oneReg (s.rd x) (f (s.getRef (s.rx x)) (s.vy v)).value)
      (f (s.getRef (s.rx x)) (s.vy v)).flags := by
  obtain ⟨ready, timerNotOne⟩ := runs
  exact computes_oneReg (hexec.trans (runInsn_of_ready _ hrow ready)) timerNotOne

/-- Where the flags are only those of the value, the word `r` that `g` yields of the operands goes to `Rd` with
`ZF`, `SF`, `PF` of it. -/
theorem computes_plainResult {g : Word → Word → Word} {r : Word} (hrow : opcodeRow i = some (sh.row cond))
    (hexec : exec i s = runInsn sh cond (oneResult (fun a b => plainResult (g a b)) x v) s)
    (hr : r = g (s.getRef (s.rx x)) (s.vy v)) (runs : Runs i s) :
    Computes i s cond (oneReg (s.rd x) r) (resultFlags r) := by
  have done := computes_oneResult hrow hexec runs
  rwa [plainResult_value, plainResult_flags, ← hr] at done

end

/-! ## The statements -/

/-- Settles O3: `ADD` is `oneResult addResult`, whose value and flags are those of the sum. -/
theorem addWritesSumAndFlags : Obligations.AddWritesSumAndFlags := by
  intro cond x v s runs
  have done := computes_oneResult rfl (exec_add cond x v s) runs
  rwa [addResult_value, addResult_flags] at done

/-- Settles O4: `SUB` is `oneResult subResult`, whose value and flags are those of the difference. -/
theorem subWritesDifferenceAndFlags : Obligations.SubWritesDifferenceAndFlags := by
  intro cond x v s runs
  have done := computes_oneResult rfl (exec_sub cond x v s) runs
  rwa [subResult_value, subResult_flags] at done

/-- Settles O7: a word with the statement's bits is the machine's `^^^`, `&&&` or `|||` of the operands, and these
rows list `ZSP` alone. -/
theorem logicWritesResultAndFlags : Obligations.LogicWritesResultAndFlags := by
  intro cond x v s r
  refine ⟨fun runs bits => ?xor, fun runs bits => ?and, fun runs bits => ?orr⟩
  case xor =>
    have hr : r = s.getRef (s.rx x) ^^^ s.vy v :=
      BitVec.eq_of_getLsbD_eq fun j _ => (bits j).trans BitVec.getLsbD_xor.symm
    exact computes_plainResult rfl (exec_xor cond x v s) hr runs
  case and =>
    have hr : r = s.getRef (s.rx x) &&& s.vy v :=
      BitVec.eq_of_getLsbD_eq fun j _ => (bits j).trans BitVec.getLsbD_and.symm
    exact computes_plainResult rfl (exec_and cond x v s) hr runs
  case orr =>
    have hr : r = s.getRef (s.rx x) ||| s.vy v :=
      BitVec.eq_of_getLsbD_eq fun j _ => (bits j).trans BitVec.getLsbD_or.symm
    exact computes_plainResult rfl (exec_orr cond x v s) hr runs

end Sys2Proof.Proofs.ArithmeticLogic
end

section
/-! PROOFS. The relative call: `FCR` links `DPC` and the next `PC`, then moves `PC` by strides (R201, R203). -/

namespace Sys2Proof.Proofs.ControlTransfer
open Sys2Proof Sys2Proof.Machine

/-- The arm of `exec`: `FCR` is `fcrEffect` under the shape without operands. -/
theorem exec_fcr (cond : BitVec 3) (imm : Word) (s : State) :
    exec (.fcr cond imm) s = runInsn (shapeNone 0x17#5) cond (fcrEffect imm) s := rfl

/-- R201 as arithmetic: word addition and multiplication are those of `Nat` modulo 2^16. -/
theorem relTarget_eq_ofNat (s : State) (imm : Word) :
    s.relTarget imm =
      BitVec.ofNat 16 ((s.getReg s.active 14#4).toNat + imm.toNat * ((s.getReg s.active 15#4).toNat + 1)) := by
  simp only [BitVec.ofNat_add, BitVec.ofNat_mul, BitVec.ofNat_toNat, BitVec.setWidth_eq]
  rfl

/-- One more register of the executing context's bank written, over the registers `f` written before it. -/
theorem regsAfter_setReg_bankRegs {s u : State} {f : RegNo → Option Word} (n : RegNo) (v : Word)
    (h : RegsAfter s u (s.bankRegs f)) :
    RegsAfter s (u.setReg s.active n v) (s.bankRegs (Function.update f n (some v))) := by
  intro c i
  rw [getReg_setReg, h c i]
  by_cases zero : i = 0#4
  · simp [zero]
  by_cases bank : c = s.active
  · by_cases written : i = n
    · rw [if_pos ⟨bank, written, zero⟩, if_neg zero]
      simp [State.bankRegs, bank, written]
    · simp [State.bankRegs, bank, written]
  · simp [State.bankRegs, bank]

/-- `RD`, `RA` and `PC` are different registers, so the order in which they are written does not matter. -/
theorem update_rd_ra_pc (dpc ra pc : Option Word) :
    Function.update (Function.update (Function.update (fun _ => none) regRD dpc) regRA ra) regPC pc =
      fun i => if i = 13#4 then dpc else if i = 12#4 then ra else if i = 14#4 then pc else none := by
  rw [Function.update_comm (by decide : regRA ≠ regPC), Function.update_comm (by decide : regRD ≠ regPC),
    Function.update_comm (by decide : regRD ≠ regRA)]
  funext i
  simp only [Function.update_apply]

/-- What `FCR` writes to the registers: `RD`, `RA` and `PC` of the executing context, the links taken from the state
before it. -/
theorem regsAfter_linked_setPc (s : State) (pc : Word) :
    RegsAfter s (s.linked.setReg s.active regPC pc)
      (s.bankRegs fun i =>
        if i = 13#4 then some (s.getReg s.active 15#4) else if i = 12#4 then some (s.getReg s.active 14#4)
        else if i = 14#4 then some pc else none) := by
  have start : RegsAfter s s (s.bankRegs fun _ => none) := fun c i => by
    simpa [State.bankRegs, noReg] using regsAfter_refl s c i
  rw [← update_rd_ra_pc]
  exact regsAfter_setReg_bankRegs regPC pc <|
    regsAfter_setReg_bankRegs regRA _ <| regsAfter_setReg_bankRegs regRD _ start

/-- Settles O37: `FCR` lists no flags, its three register writes are those of `regsAfter_linked_setPc`, and the target
it computes is that of R201. -/
theorem fcrLinksAndMovesPc : Obligations.FcrLinksAndMovesPc := by
  intro cond imm s ⟨ready, timerNotOne⟩
  rw [← relTarget_eq_ofNat]
  have executes := (exec_fcr cond imm s).trans (runInsn_of_ready (fcrEffect imm) rfl ready)
  exact computes_of_done_noflags executes (regsAfter_linked_setPc s (s.relTarget imm))
    (by simp [State.linked]) (by simp [State.linked]) (by simp [State.linked]) (by simp [State.linked])
    (by simp [State.linked]) timerNotOne

end Sys2Proof.Proofs.ControlTransfer
end

section
/-! PROOFS. Whole-machine rules: what every step keeps of the control registers, of the other bank and of the invariant
(R11, R28, R36, R44, R46, R50, R113). Each is said of `Moves`, of the ways `exec` ends and of `step`, in this order. -/

namespace Sys2Proof.Proofs.WholeMachine
open Sys2Proof Sys2Proof.Machine

/-! ## Which control registers a step can write -/

/-- `i` is a `WRC` of control register `n` that `CREG_DENY_W` of the executing context lets through. -/
def WrcWrites (i : Instr) (s : State) (n : CRegNo) : Prop :=
  (∃ cond y, i = .wrc cond n y) ∧ (s.getCr s.active crDenyW).getLsbD n.toNat = false

/-- The control registers that completion and exceptions write (R122, R123, R242). -/
def hardwareCregs : List CRegNo := [crCountLo, crCountHi, crExcInfo, crExcAddr, crTimer]

/-- An execute step writes no control register but `FLAGS` and the one of a `WRC`, and those of the executing context. -/
theorem getCr_moves {i : Instr} {s u : State} {d : CtxId} {n : CRegNo} (h : Moves i s u)
    (kept : ¬ (s.sameCreg d n ∧ (n = crFlags ∨ WrcWrites i s n))) : u.getCr d n = s.getCr d n := by
  induction h with
  | refl => rfl
  | reg c m v _ _ ih => rw [getCr_setReg, ih]
  | drawn _ ih => rw [getCr_drawn, ih]
  | @flags u wf w hu ih =>
    by_cases hn : n = crFlags
    · subst hn
      rw [getCr_writeFlags_flags, moves_cfg hu, if_neg fun same => kept ⟨(home_eq_iff s d _).1 same.2, .inl rfl⟩, ih]
    · rw [getCr_writeFlags_ne _ _ _ _ _ hn, ih]
  | @creg u cond m y v hi hd _ hu ih =>
    by_cases hn : n = m
    · subst hn
      rw [getCr_setCr, moves_cfg hu,
        if_neg fun same => kept ⟨(home_eq_iff s d _).1 same.2, .inr ⟨⟨cond, y, hi⟩, hd⟩⟩, ih]
    · rw [getCr_setCr_ne _ _ _ _ hn, ih]
  | mem pa b _ ih => rw [getCr_putByte, ih]
  | portRead p _ ih => rw [getCr_portReadDone, ih]
  | portWrite p b _ ih => rw [getCr_portWriteDone, ih]
  | swap _ ih => rw [getCr_swapContexts, ih]

/-- An exception writes `EXC_INFO` and `EXC_ADDR` of the context it is taken in (R242). -/
theorem getCr_takeException_kept {u : State} {c d : CtxId} {n : CRegNo} (e : Exc)
    (kept : ¬ (Params.home u.cfg d n = Params.home u.cfg c n ∧ (n = crExcInfo ∨ n = crExcAddr))) :
    (u.takeException c e).getCr d n = u.getCr d n := by
  rw [getCr_takeException, if_neg fun h => kept ⟨h.2, .inl h.1⟩, if_neg fun h => kept ⟨h.2, .inr h.1⟩]

/-- Completion writes the count and the timer, and the record of `EXC_TIMER` where it expires (R122, R123). -/
theorem getCr_complete_kept {u : State} {c d : CtxId} {n : CRegNo}
    (kept : ¬ (Params.home u.cfg d n = Params.home u.cfg c n ∧ n ∈ hardwareCregs)) :
    (u.complete c).getCr d n = u.getCr d n := by
  by_cases far : Params.home u.cfg d n = Params.home u.cfg c n
  · have hn : n ∉ hardwareCregs := fun h => kept ⟨far, h⟩
    simp only [hardwareCregs, List.mem_cons, List.not_mem_nil, or_false, not_or] at hn
    obtain ⟨hlo, hhi, hinfo, haddr, htimer⟩ := hn
    by_cases expires : u.getCr c crTimer = 1#16
    · rw [complete_of_timer_one expires, getCr_takeException_kept _ (by simp [hinfo, haddr]),
        getCr_setCr_ne _ _ _ _ htimer, getCr_countUp_ne _ _ _ hlo hhi]
    · exact getCr_complete_ne expires d hlo hhi htimer
  · by_cases expires : u.getCr c crTimer = 1#16
    · rw [complete_of_timer_one expires, getCr_takeException_kept _ (by simp [far]), getCr_setCr, countUp_cfg,
        if_neg (by rintro ⟨rfl, h⟩; exact far h), getCr_countUp_far _ _ _ _ far]
    · exact getCr_complete_far expires d n far

/-- `exec` writes the control registers that hardware writes, `FLAGS` and the one of a `WRC`, all in the executing
context. -/
theorem getCr_exec {i : Instr} {s t : State} {d : CtxId} {n : CRegNo} (h : exec i s = .next t)
    (kept : ¬ (s.sameCreg d n ∧ (n ∈ crFlags :: hardwareCregs ∨ WrcWrites i s n))) : t.getCr d n = s.getCr d n := by
  have moved : ∀ {u}, Moves i s u → u.getCr d n = s.getCr d n := fun hu =>
    getCr_moves hu fun w => kept ⟨w.1, w.2.imp_left fun e => by simp [e]⟩
  cases exec_next h with
  | noted _ l e => rw [e, getCr_setLatch]
  | completed u hu _ e =>
    rw [e, getCr_complete_kept, moved hu]
    rw [moves_cfg hu, home_eq_iff]
    exact fun w => kept ⟨w.1, .inl (List.mem_cons_of_mem _ w.2)⟩
  | raised u x hu _ e =>
    rw [e, getCr_takeException_kept, moved hu]
    rw [moves_cfg hu, home_eq_iff]
    exact fun w => kept ⟨w.1, .inl (by rcases w.2 with e | e <;> simp [hardwareCregs, e])⟩
  | stopped u hu _ e => rw [e, State.stopAtBreakpoint, getCr_endStep, moved hu]

/-! ### The state after the fetch -/

theorem fetched_active (s : State) (m : Nat) (l : Latch) : (s.fetched m l).active = s.active := by
  simp [State.fetched]

theorem fetched_cfg (s : State) (m : Nat) (l : Latch) : (s.fetched m l).cfg = s.cfg := by simp [State.fetched]

theorem fetched_mem (s : State) (m : Nat) (l : Latch) : (s.fetched m l).mem = s.mem := by simp [State.fetched]

/-- The fetch writes no control register but `INSN_ADDR` of the executing context (R41). -/
theorem getCr_fetched {s : State} (m : Nat) (l : Latch) {d : CtxId} {n : CRegNo}
    (kept : ¬ (s.sameCreg d n ∧ n = crInsnAddr)) : (s.fetched m l).getCr d n = s.getCr d n := by
  rw [State.fetched, getCr_setLatch, getCr_setReg, getCr_setCr, if_neg]
  rintro ⟨rfl, same⟩
  exact kept ⟨(home_eq_iff s d _).1 same, rfl⟩

/-- The fetch moves `PC` of the executing context and writes no other general register (R17). -/
theorem getReg_fetched (s : State) (m : Nat) (l : Latch) {d : CtxId} (i : RegNo) (h : d ≠ s.active) :
    (s.fetched m l).getReg d i = s.getReg d i := by
  rw [State.fetched, getReg_setLatch, getReg_setReg, if_neg fun e => h e.1, getReg_setCr]

/-- A step writes the control registers that hardware writes, and one that `CREG_DENY_W` of the executing context does
not deny, all in the executing context. -/
theorem getCr_step {s t : State} {d : CtxId} {n : CRegNo} (h : step s = .next t)
    (kept : ¬ (s.sameCreg d n ∧
      (n ∈ crInsnAddr :: crFlags :: hardwareCregs ∨ (s.getCr s.active crDenyW).getLsbD n.toNat = false))) :
    t.getCr d n = s.getCr d n := by
  obtain ⟨m, l, ⟨e, rfl⟩ | ⟨i, -, hi⟩⟩ := step_next h
  · rw [getCr_takeException_kept, getCr_fetched]
    · exact fun w => kept ⟨w.1, .inl (by simp [w.2])⟩
    · rw [fetched_cfg, home_eq_iff]
      exact fun w => kept ⟨w.1, .inl (by rcases w.2 with e | e <;> simp [hardwareCregs, e])⟩
  · rw [getCr_exec hi, getCr_fetched]
    · exact fun w => kept ⟨w.1, .inl (by simp [w.2])⟩
    · rintro ⟨same, w⟩
      have same : s.sameCreg d n := by simpa [State.sameCreg, fetched_active, fetched_cfg] using same
      rcases w with w | ⟨-, w⟩
      · exact kept ⟨same, .inl (List.mem_cons_of_mem _ w)⟩
      · rw [fetched_active, getCr_fetched _ _ fun w => absurd w.2 (by decide)] at w
        exact kept ⟨same, .inr w⟩

/-! ## No shared control registers, and a sealed one -/

theorem sameCreg_of_unshared {s : State} (h : s.cfg.sharedCregs = 0#16) (d : CtxId) (n : CRegNo) :
    s.sameCreg d n ↔ d = s.active := by
  simp [State.sameCreg, h]

/-- Settles O57: whatever a step writes it writes in the executing context (`getCr_step`), which without shared control
registers is another storage than that of any other context. -/
theorem inactiveControlRegistersKept : Obligations.InactiveControlRegistersKept := by
  intro s t d n unshared h other
  exact getCr_step h fun w => other ((sameCreg_of_unshared unshared d n).1 w.1)

theorem not_hardware_of_sealable :
    ∀ n ∈ [0#4, 1#4, 2#4, 3#4, 8#4, 9#4, 10#4], n ∉ crInsnAddr :: crFlags :: hardwareCregs := by decide

/-- A step keeps a control register that hardware does not write and that its context denies (R28). -/
theorem step_keeps_sealed {s t : State} {c : CtxId} {n : CRegNo} (unshared : s.cfg.sharedCregs = 0#16)
    (hn : n ∈ [0#4, 1#4, 2#4, 3#4, 8#4, 9#4, 10#4]) (sealing : (s.getCr c 1#4).getLsbD n.toNat = true)
    (h : step s = .next t) : t.getCr c n = s.getCr c n := by
  refine getCr_step h ?_
  rintro ⟨same, w⟩
  obtain rfl := (sameCreg_of_unshared unshared c n).1 same
  rcases w with w | w
  · exact not_hardware_of_sealable n hn w
  · exact absurd (sealing.symm.trans w) (by decide)

theorem step_cfg {s t : State} (h : step s = .next t) : t.cfg = s.cfg := by
  obtain ⟨m, l, ⟨e, rfl⟩ | ⟨i, -, hi⟩⟩ := step_next h
  · rw [takeException_cfg, fetched_cfg]
  · rw [exec_cfg hi, fetched_cfg]

/-- A run of one step more is a step and then a run from where it leads. -/
theorem run_succ {M : Host.Core} {k : Nat} {s t : M.State} (h : M.run (k + 1) s = .next t) :
    ∃ u, M.step s = .next u ∧ M.run k u = .next t := by
  unfold Host.Core.run at h
  split at h
  next u hu => exact ⟨u, hu, h⟩
  next => cases h
  next => cases h

/-- Settles O59, by induction on the number of steps: a step keeps `CREG_DENY_W`, whose own bit is set, and with it the
sealed register. -/
theorem writeDenialIsPermanent : Obligations.WriteDenialIsPermanent := by
  intro k
  induction k with
  | zero =>
    intro s t c n _ _ _ _ h
    cases h
    rfl
  | succ k ih =>
    intro s t c n unshared hn sealsItself sealing h
    obtain ⟨u, first, rest⟩ : ∃ u, step s = .next u ∧ Sys2Proof.core.run k u = .next t := run_succ h
    have mask : u.getCr c 1#4 = s.getCr c 1#4 := step_keeps_sealed unshared (by simp) sealsItself first
    rw [ih u t c n (by rw [step_cfg first, unshared]) hn (by rwa [mask]) (by rwa [mask]) rest,
      step_keeps_sealed unshared hn sealing first]

/-! ## The other bank -/

/-- Without a cross-bank prefix an execute step writes no register of the other bank (R15, R44). -/
theorem getReg_moves {i : Instr} {s u : State} {d : CtxId} {j : RegNo} (h : Moves i s u)
    (noCross : (s.latch.xx || s.latch.xy || s.latch.xz) = false) (other : d ≠ s.active) :
    u.getReg d j = s.getReg d j := by
  induction h with
  | refl => rfl
  | reg c n v hc _ ih =>
    rcases hc with rfl | hc
    · rw [getReg_setReg, if_neg fun e => other e.1, ih]
    · exact absurd (hc.symm.trans noCross) (by decide)
  | drawn _ ih => rw [getReg_drawn, ih]
  | flags wf w _ ih => rw [getReg_writeFlags, ih]
  | creg cond n y v _ _ _ _ ih => rw [getReg_setCr, ih]
  | mem pa b _ ih => rw [getReg_putByte, ih]
  | portRead p _ ih => rw [getReg_portReadDone, ih]
  | portWrite p b _ ih => rw [getReg_portWriteDone, ih]
  | swap _ ih => rw [getReg_swapContexts, ih]

/-- An exception writes no register of another context than the one it is taken in. -/
theorem getReg_takeException_other (u : State) {c d : CtxId} (e : Exc) (j : RegNo) (other : d ≠ c) :
    (u.takeException c e).getReg d j = u.getReg d j := by
  rw [getReg_takeException, if_neg fun w => other w.2.1]

/-- While `FLAG_DENY_XREGS` is set, `exec` writes no register of the other bank: an instruction with a cross-bank prefix
is denied (R115), one without cannot reach that bank. -/
theorem getReg_exec {i : Instr} {s t : State} {d : CtxId} (j : RegNo) (h : exec i s = .next t)
    (denied : (s.getCr s.active 15#4).getLsbD 5 = true) (other : d ≠ s.active) : t.getReg d j = s.getReg d j := by
  have moved : ∀ {u}, Moves i s u → u = s ∨ s.deniesCross = false → u.getReg d j = s.getReg d j := by
    rintro u hu (rfl | allowed)
    · rfl
    · have hf : denyXregsOf (s.flags s.active) = true := denied
      rw [State.deniesCross, hf, Bool.and_true] at allowed
      exact getReg_moves hu allowed other
  cases exec_next h with
  | noted _ l e => rw [e, getReg_setLatch]
  | completed u hu hc e => rw [e, getReg_complete, moved hu hc]
  | raised u x hu hc e => rw [e, getReg_takeException_other _ _ _ other, moved hu hc]
  | stopped u hu hc e => rw [e, State.stopAtBreakpoint, getReg_endStep, moved hu hc]

/-- Settles O58: the fetch and an exception write registers of the executing context alone, and so does `exec` while the
flag is set (`getReg_exec`). -/
theorem denyXregsSealsOtherBank : Obligations.DenyXregsSealsOtherBank := by
  intro s t d j denied h other
  obtain ⟨m, l, ⟨e, rfl⟩ | ⟨i, -, hi⟩⟩ := step_next h
  · rw [getReg_takeException_other _ _ _ other, getReg_fetched s m l j other]
  · rw [getReg_exec j hi ?_ (by rwa [fetched_active]), getReg_fetched s m l j other]
    rwa [fetched_active, getCr_fetched _ _ fun w => absurd w.2 (by decide)]

/-! ## Bit 0 of `EXC_INFO` -/

theorem excInfo_bit0 (codes : ExcCodes) (e : Exc) : (excInfo codes e).getLsbD 0 = true :=
  (infoRecords_excInfo codes e).1

/-- An exception leaves bit 0 of `EXC_INFO` set where it was (R36, R242). -/
theorem takeException_keeps_bit0 {u : State} (c d : CtxId) (e : Exc) (h : (u.getCr d crExcInfo).getLsbD 0 = true) :
    ((u.takeException c e).getCr d crExcInfo).getLsbD 0 = true := by
  by_cases same : Params.home u.cfg d crExcInfo = Params.home u.cfg c crExcInfo
  · rw [getCr_takeException, if_pos ⟨rfl, same⟩, excInfo_bit0]
  · rwa [getCr_takeException_kept _ fun w => same w.1]

theorem complete_keeps_bit0 {u : State} (c d : CtxId) (h : (u.getCr d crExcInfo).getLsbD 0 = true) :
    ((u.complete c).getCr d crExcInfo).getLsbD 0 = true := by
  by_cases expires : u.getCr c crTimer = 1#16
  · rw [complete_of_timer_one expires]
    refine takeException_keeps_bit0 c d .timer ?_
    rwa [getCr_setCr_ne _ _ _ _ (by decide), getCr_countUp_ne _ _ _ (by decide) (by decide)]
  · rwa [getCr_complete_ne expires d (by decide) (by decide) (by decide)]

/-- Only a `WRC` of `EXC_INFO` clears bit 0 of the register (R36). -/
theorem exec_keeps_bit0 {i : Instr} {s t : State} {c : CtxId} (notWrc : ∀ cond y, i ≠ .wrc cond 11#4 y)
    (h : exec i s = .next t) (bit0 : (s.getCr c 11#4).getLsbD 0 = true) : (t.getCr c 11#4).getLsbD 0 = true := by
  have moved : ∀ {u}, Moves i s u → (u.getCr c crExcInfo).getLsbD 0 = true := by
    intro u hu
    rw [getCr_moves hu]
    · exact bit0
    · rintro ⟨-, e | ⟨⟨cond, y, e⟩, -⟩⟩
      · exact absurd e (by decide)
      · exact notWrc cond y e
  cases exec_next h with
  | noted _ l e => rwa [e, getCr_setLatch]
  | completed u hu _ e => exact e ▸ complete_keeps_bit0 _ c (moved hu)
  | raised u x hu _ e => exact e ▸ takeException_keeps_bit0 _ c x (moved hu)
  | stopped u hu _ e =>
    rw [e, State.stopAtBreakpoint, getCr_endStep]
    exact moved hu

/-- Settles O60: `exec_keeps_bit0` is the first clause; for the second, a step that cleared the bit was no exception of
the fetch, so it ran an instruction, which by the first clause was a `WRC` of `EXC_INFO`. -/
theorem exceptionBitIsSticky : Obligations.ExceptionBitIsSticky := by
  refine ⟨fun i s t c notWrc h bit0 => exec_keeps_bit0 notWrc h bit0, fun s t c h bit0 clear => ?_⟩
  have notSet : ¬ (t.getCr c 11#4).getLsbD 0 = true := by rw [clear]; decide
  obtain ⟨m, l, hnext⟩ := step_next h
  have fetchedSet : ((s.fetched m l).getCr c 11#4).getLsbD 0 = true := by
    rwa [getCr_fetched _ _ fun w => absurd w.2 (by decide)]
  rcases hnext with ⟨e, rfl⟩ | ⟨i, -, hi⟩
  · exact absurd (takeException_keeps_bit0 _ c e fetchedSet) notSet
  · by_cases wrc : ∃ cond y, i = .wrc cond 11#4 y
    · obtain ⟨cond, y, rfl⟩ := wrc
      exact ⟨cond, y, m, l, hi⟩
    · exact absurd (exec_keeps_bit0 (fun cond y e => wrc ⟨cond, y, e⟩) hi fetchedSet) notSet

/-! ## The invariant -/

/-- `State.Inv` but for the prefix latch: what also holds in the middle of a step. -/
def Sound (s : State) : Prop := Memory.wf s.mem = true ∧ ∀ c, s.reservedClear c

theorem inv_iff (s : State) : s.Inv ↔ Sound s ∧ s.latch = {} := by
  constructor
  · rintro ⟨hmem, h0, h1, hl⟩
    exact ⟨⟨hmem, fun c => by cases c <;> assumption⟩, hl⟩
  · rintro ⟨⟨hmem, h⟩, hl⟩
    exact ⟨hmem, h .ctx0, h .ctx1, hl⟩

/-- `Sound` reads memory and the control registers alone. -/
theorem Sound.congr {s t : State} (h : Sound s) (hmem : t.mem = s.mem) (hcr : ∀ c n, t.getCr c n = s.getCr c n) :
    Sound t := ⟨hmem ▸ h.1, fun c n => hcr c n ▸ h.2 c n⟩

theorem Sound.setCr {s : State} (h : Sound s) (c : CtxId) {n : CRegNo} {v : Word} (hv : reservedOk n v) :
    Sound (s.setCr c n v) := by
  refine ⟨by rw [setCr_mem]; exact h.1, fun d m => ?_⟩
  rw [getCr_setCr]
  split
  next e => exact e.1 ▸ hv
  next => exact h.2 d m

/-- A control register without reserved bits takes any value (R46). -/
theorem reservedOk_of_plain {n : CRegNo} (v : Word) (h : n ∉ [8#4, 9#4, 10#4, 11#4, 15#4]) : reservedOk n v := by
  simp only [List.mem_cons, List.not_mem_nil, or_false, not_or] at h
  obtain ⟨h8, h9, h10, h11, h15⟩ := h
  exact ⟨fun e => absurd e h15, fun e => absurd e h11, fun e => by simp [h8, h9, h10] at e⟩

/-- A write-back leaves the reserved bits of `FLAGS` as they are (R43, R46). -/
theorem reservedOk_putFlags {f : Word} (w : FlagWrite) (h : reservedOk crFlags f) : reservedOk crFlags (putFlags f w) := by
  refine ⟨fun e => ?_, fun e => absurd e (by decide), fun e => absurd e (by decide)⟩
  rw [extract_eq_zero_iff]
  intro j hj
  rw [putFlags_high f w (by omega)]
  exact (extract_eq_zero_iff f).1 (h.1 rfl) j hj

theorem Sound.writeFlags {s : State} (h : Sound s) (c : CtxId) (wf : Bool) (w : FlagWrite) :
    Sound (s.writeFlags c wf w) := by
  cases wf with
  | false => exact h
  | true => exact h.setCr c (reservedOk_putFlags w (h.2 c crFlags))

theorem Sound.putByte {s : State} (h : Sound s) (pa : PhysAddr) (b : Byte) : Sound (s.putByte pa b) :=
  ⟨memory_wf_write b h.1 pa.isLt, fun c n => by rw [getCr_putByte]; exact h.2 c n⟩

theorem Sound.moves {i : Instr} {s u : State} (h : Sound s) (hu : Moves i s u) : Sound u := by
  induction hu with
  | refl => exact h
  | reg c n v _ _ ih => exact ih.congr (setReg_mem ..) fun d m => getCr_setReg ..
  | drawn _ ih => exact ih.congr rfl fun d m => getCr_drawn ..
  | flags wf w _ ih => exact ih.writeFlags _ wf w
  | creg cond n y v _ _ hr _ ih => exact ih.setCr _ ((reservedOk_iff n v).2 hr)
  | mem pa b _ ih => exact ih.putByte pa b
  | portRead p _ ih => exact ih.congr rfl fun d m => getCr_portReadDone ..
  | portWrite p b _ ih => exact ih.congr rfl fun d m => getCr_portWriteDone ..
  | swap _ ih => exact ih.congr rfl fun d m => getCr_swapContexts ..

theorem reservedOk_excInfo (codes : ExcCodes) (e : Exc) : reservedOk crExcInfo (excInfo codes e) :=
  ⟨fun h => absurd h (by decide), fun _ => (infoRecords_excInfo codes e).2.2.1, fun h => absurd h (by decide)⟩

theorem Sound.takeException {s : State} (h : Sound s) (c : CtxId) (e : Exc) : Sound (s.takeException c e) := by
  refine ⟨by rw [takeException_mem]; exact h.1, fun d n => ?_⟩
  rw [getCr_takeException]
  split
  next hn => exact hn.1 ▸ reservedOk_excInfo _ e
  next =>
    split
    next hn => exact hn.1 ▸ reservedOk_of_plain _ (by decide)
    next => exact h.2 d n

theorem Sound.countUp {s : State} (h : Sound s) (c : CtxId) : Sound (s.countUp c) :=
  (h.setCr c (reservedOk_of_plain _ (by decide))).setCr c (reservedOk_of_plain _ (by decide))

theorem Sound.endStep {s : State} (h : Sound s) (e : StepEnd) : Sound (s.endStep e) :=
  h.congr rfl fun _ _ => getCr_endStep ..

theorem Sound.complete {s : State} (h : Sound s) (c : CtxId) : Sound (s.complete c) := by
  have timerSet : ∀ v, Sound ((s.countUp c).setCr c crTimer v) := fun v =>
    (h.countUp c).setCr c (reservedOk_of_plain v (by decide))
  by_cases expires : s.getCr c crTimer = 1#16
  · rw [complete_of_timer_one expires]
    exact (timerSet 0#16).takeException c .timer
  · rw [complete_of_timer expires]
    split
    · exact (h.countUp c).endStep _
    · exact (timerSet _).endStep _

theorem Sound.fetched {s : State} (h : Sound s) (m : Nat) (l : Latch) : Sound (s.fetched m l) := by
  have begun : Sound (s.setCr s.active 14#4 (s.getReg s.active 14#4)) := h.setCr _ (reservedOk_of_plain _ (by decide))
  exact begun.congr (by simp [State.fetched]) fun c n => by simp [State.fetched]

/-- An opcode row ends its step with the invariant: the latch is empty, since every way a step ends empties it. -/
theorem inv_exec {i : Instr} {s t : State} (hs : Sound s) (hi : i.isPrefix = false) (h : exec i s = .next t) : t.Inv := by
  rw [inv_iff]
  cases exec_next h with
  | noted hp l e => exact absurd (hp.symm.trans hi) (by decide)
  | completed u hu _ e => exact e ▸ ⟨(hs.moves hu).complete _, complete_latch _ _⟩
  | raised u x hu _ e => exact e ▸ ⟨(hs.moves hu).takeException _ x, takeException_latch _ _ _⟩
  | stopped u hu _ e => exact e ▸ ⟨(hs.moves hu).endStep _, endStep_latch _ _⟩

/-- Settles O2: the fetch keeps `Sound`, and both ways a step goes on from it end with an empty latch. -/
theorem stepKeepsInvariant : Obligations.StepKeepsInvariant := by
  intro s t hs h
  have hs : Sound s := ((inv_iff s).1 hs).1
  obtain ⟨m, l, ⟨e, rfl⟩ | ⟨i, hi, hexec⟩⟩ := step_next h
  · exact (inv_iff _).2 ⟨(hs.fetched m l).takeException _ e, takeException_latch _ _ _⟩
  · exact inv_exec (hs.fetched m l) hi hexec

theorem getReg_reset (c : CtxId) (i : RegNo) : State.reset.getReg c i = 0#16 := by
  cases c <;> simp [State.reset, State.getReg, State.ctx, Context.getReg, Context.reset]

theorem getCr_reset (c : CtxId) (n : CRegNo) : State.reset.getCr c n = 0#16 := by
  unfold State.getCr
  generalize Params.home _ c n = d
  cases d <;> simp [State.reset, State.ctx, Context.reset]

/-- A control register that is 0 has its reserved bits 0. -/
theorem reservedOk_zero (n : CRegNo) : reservedOk n 0#16 := by simp [reservedOk]

/-- Settles O1: at reset memory is empty and every register and control register is 0. -/
theorem resetMeetsInvariant : Obligations.ResetMeetsInvariant := by
  refine ⟨(inv_iff _).2 ⟨⟨rfl, fun c n => ?_⟩, rfl⟩, fun c => ⟨getReg_reset c _, getReg_reset c _⟩⟩
  rw [getCr_reset]
  exact reservedOk_zero n

end Sys2Proof.Proofs.WholeMachine
end

section
/-! PROOFS. The encoding: decoder and encoder are inverse on well-formed rows (R80 to R97). Each operand format is one
lemma in either direction; the opcode map says which format a row has. -/

namespace Sys2Proof.Proofs.Encoding
open Sys2Proof Sys2Proof.Machine

/-! ## The first byte -/

/-- A byte is decoded as an opcode byte exactly where its condition field is well-formed (R83). -/
theorem startsOpcode_iff (afterXc : Bool) (b : Byte) :
    ¬ (!afterXc && isPrefixByte b) = true ↔ condWellFormed afterXc (condField b) = true := by
  cases afterXc <;> simp [isPrefixByte, condWellFormed]

theorem decode_opcodeByte {k : ImmLen} {afterXc : Bool} {c : BitVec 3} (op : BitVec 5) (bs : List Byte)
    (hc : condWellFormed afterXc c = true) :
    decode k afterXc (opcodeByte c op :: bs) = decodeOperands k (opcodeByte c op) bs := by
  rw [decode_cons, if_neg]
  rwa [startsOpcode_iff, condField_opcodeByte]

/-! ## Immediates -/

theorem decodeImm_encodeImm {len : ImmLen} {w : Word} (rest : List Byte) (h : (Vy.imm w).wellFormed len = true) :
    decodeImm len (encodeImm len w ++ rest) = .ok (w, rest) := by
  cases len with
  | two => simp [decodeImm, encodeImm, encodeWord]
  | one =>
    have small : w.toNat < 256 := of_decide_eq_true h
    have low : (loByte w).setWidth 16 = w := by
      apply BitVec.eq_of_toNat_eq
      simp only [Sys2Proof.loByte_eq, BitVec.toNat_setWidth, BitVec.toNat_ofNat]
      omega
    simp [decodeImm, encodeImm, low]

theorem encodeImm_of_decodeImm {len : ImmLen} {w : Word} {bs rest : List Byte} (h : decodeImm len bs = .ok (w, rest)) :
    (Vy.imm w).wellFormed len = true ∧ bs = encodeImm len w ++ rest := by
  cases len with
  | two =>
    match bs, h with
    | lo :: hi :: bs, h =>
      obtain ⟨rfl, rfl⟩ := Prod.mk.inj (Except.ok.inj h)
      exact ⟨rfl, by simp [encodeImm, encodeWord]⟩
  | one =>
    match bs, h with
    | b :: bs, h =>
      obtain ⟨rfl, rfl⟩ := Prod.mk.inj (Except.ok.inj h)
      have value : (b.setWidth 16).toNat = b.toNat := BitVec.toNat_setWidth_of_le (by decide)
      refine ⟨decide_eq_true (by rw [value]; exact b.isLt), ?_⟩
      rw [encodeImm, Sys2Proof.loByte_eq, value, BitVec.ofNat_toNat, BitVec.setWidth_eq]
      rfl

/-! ## Decoding what each format encodes -/

section
variable {k : ImmLen} {afterXc : Bool} {c : BitVec 3} {op : BitVec 5} (rest : List Byte)

theorem decode_encodeRv {len : ImmLen} {build : BitVec 3 → BitVec 4 → Vy → Instr} {x : BitVec 4} {v : Vy}
    (format : formOf k op = .rv len build) (h : (condWellFormed afterXc c && v.wellFormed len) = true) :
    decode k afterXc (encodeRv len op c x v ++ rest) = .ok (build c x v, rest) := by
  obtain ⟨hc, hv⟩ := Bool.and_eq_true_iff.1 h
  cases v with
  | reg r =>
    have noImm : (r == 15#4) = false := by simpa [Vy.wellFormed] using hv
    simp [encodeRv, decode_opcodeByte _ _ hc, decodeOperands, format, noImm]
  | imm w => simp [encodeRv, decode_opcodeByte _ _ hc, decodeOperands, format, decodeImm_encodeImm rest hv]

theorem decode_encodeRn {build : BitVec 3 → BitVec 4 → BitVec 4 → Instr} {x y : BitVec 4}
    (format : formOf k op = .rn build) (h : (condWellFormed afterXc c && true) = true) :
    decode k afterXc (encodeRn op c x y ++ rest) = .ok (build c x y, rest) := by
  rw [Bool.and_true] at h
  simp [encodeRn, decode_opcodeByte _ _ h, decodeOperands, format]

theorem decode_encodeI16 {build : BitVec 3 → Word → Instr} {w : Word} (format : formOf k op = .word build)
    (h : (condWellFormed afterXc c && true) = true) :
    decode k afterXc (encodeI16 op c w ++ rest) = .ok (build c w, rest) := by
  rw [Bool.and_true] at h
  simp [encodeI16, encodeWord, decode_opcodeByte _ _ h, decodeOperands, format]

theorem decode_opcodeOnly {build : BitVec 3 → Instr} (format : formOf k op = .op build)
    (h : (condWellFormed afterXc c && true) = true) :
    decode k afterXc ([opcodeByte c op] ++ rest) = .ok (build c, rest) := by
  rw [Bool.and_true] at h
  simp [decode_opcodeByte _ _ h, decodeOperands, format]

/-- A byte `110PPPPP` where such a byte can stand is the row that `decodePrefix` says (R81, R93). -/
theorem decode_prefixByte {b : Byte} {i : Instr} (h : isPrefixByte b = true ∧ decodePrefix b = i)
    (standing : (!afterXc && true) = true) : decode k afterXc ([b] ++ rest) = .ok (i, rest) := by
  rw [Bool.and_true] at standing
  rw [List.singleton_append, decode_cons, if_pos (by rw [standing, h.1]; rfl), h.2]

end

theorem decodePrefix_dr (d : RegNo) :
    isPrefixByte (0xD#4 ++ d : Byte) = true ∧ decodePrefix (0xD#4 ++ d : Byte) = .dr d := by revert d; decide

theorem decodePrefix_reservedC6 (p : BitVec 1) :
    isPrefixByte (0x63#7 ++ p : Byte) = true ∧ decodePrefix (0x63#7 ++ p : Byte) = .reservedC6 p := by revert p; decide

theorem decodePrefix_reservedC8 (p : BitVec 3) :
    isPrefixByte (0x19#5 ++ p : Byte) = true ∧ decodePrefix (0x19#5 ++ p : Byte) = .reservedC8 p := by revert p; decide

/-- Settles O54: the opcode map gives each row its format, and each format decodes what it encodes. -/
theorem decodeOfEncodeIsIdentity : Obligations.DecodeOfEncodeIsIdentity := by
  intro k i afterXc rest h
  cases i with
  | add c x v | sub c x v | mlu c x v | mls c x v | dvu c x v | dvs c x v | xor c x v | and c x v | orr c x v
  | shl c x v | sru c x v | srs c x v | mov c x v | cmp c x v | ldw c x v | stw c x v | ldb c x v | stb c x v
  | bra c x v | fca c x v | wrb c p v => exact decode_encodeRv rest rfl h
  | rdc c x n | wrc c n y | rdb c x p | inc c x n => exact decode_encodeRn rest rfl h
  | brr c w | fcr c w | psh c w | pop c w => exact decode_encodeI16 rest rfl h
  | bpt c | hlt c | nop c => exact decode_opcodeOnly rest rfl h
  | xc | tf | xx | xy | xz | reservedC5 => exact decode_prefixByte rest ⟨rfl, rfl⟩ h
  | dr d => exact decode_prefixByte rest (decodePrefix_dr d) h
  | reservedC6 p => exact decode_prefixByte rest (decodePrefix_reservedC6 p) h
  | reservedC8 p => exact decode_prefixByte rest (decodePrefix_reservedC8 p) h

/-! ## Encoding what each format decodes -/

/-- The rows that an entry of the opcode map builds are encoded in its format under opcode `op`, and are well-formed
where their condition field and their value operand are. -/
inductive FormEncodes (k : ImmLen) (op : BitVec 5) : Form → Prop where
  | rv {len : ImmLen} {build : BitVec 3 → BitVec 4 → Vy → Instr}
      (bytes : ∀ c x v, encode k (build c x v) = encodeRv len op c x v)
      (wf : ∀ xc c x v, (build c x v).wellFormed k xc = (condWellFormed xc c && v.wellFormed len)) :
      FormEncodes k op (.rv len build)
  | rn {build : BitVec 3 → BitVec 4 → BitVec 4 → Instr} (bytes : ∀ c x y, encode k (build c x y) = encodeRn op c x y)
      (wf : ∀ xc c x y, (build c x y).wellFormed k xc = (condWellFormed xc c && true)) : FormEncodes k op (.rn build)
  | word {build : BitVec 3 → Word → Instr} (bytes : ∀ c w, encode k (build c w) = encodeI16 op c w)
      (wf : ∀ xc c w, (build c w).wellFormed k xc = (condWellFormed xc c && true)) : FormEncodes k op (.word build)
  | op {build : BitVec 3 → Instr} (bytes : ∀ c, encode k (build c) = [opcodeByte c op])
      (wf : ∀ xc c, (build c).wellFormed k xc = (condWellFormed xc c && true)) : FormEncodes k op (.op build)

/-- The opcode map and the encoder agree on every opcode (R90). -/
theorem formOf_encodes (k : ImmLen) (op : BitVec 5) : FormEncodes k op (formOf k op) := by
  obtain ⟨⟨n, hn⟩⟩ := op
  change n < 32 at hn
  interval_cases n
  all_goals constructor <;> intros <;> rfl

/-- The operand bytes that the decoder reads after an opcode byte are those of the row's encoding. -/
theorem encode_of_decodeOperands {k : ImmLen} {afterXc : Bool} {b : Byte} {bs rest : List Byte} {i : Instr}
    (hc : condWellFormed afterXc (condField b) = true) (h : decodeOperands k b bs = .ok (i, rest)) :
    i.wellFormed k afterXc = true ∧ b :: bs = encode k i ++ rest := by
  unfold decodeOperands at h
  have row := formOf_encodes k (opcodeField b)
  revert row h
  generalize hf : formOf k (opcodeField b) = format
  intro h row
  cases row with
  | op bytes wf =>
    obtain ⟨rfl, rfl⟩ := Prod.mk.inj (Except.ok.inj h)
    rw [wf, bytes, opcodeByte_fields, hc]
    exact ⟨rfl, rfl⟩
  | word bytes wf =>
    match bs, h with
    | lo :: hi :: bs, h =>
      obtain ⟨rfl, rfl⟩ := Prod.mk.inj (Except.ok.inj h)
      rw [wf, bytes, encodeI16, opcodeByte_fields, hc, encodeWord, Sys2Proof.loByte_wordOf, Sys2Proof.hiByte_wordOf]
      exact ⟨rfl, rfl⟩
  | rn bytes wf =>
    match bs, h with
    | pair :: bs, h =>
      obtain ⟨rfl, rfl⟩ := Prod.mk.inj (Except.ok.inj h)
      rw [wf, bytes, encodeRn, opcodeByte_fields, regpair_fields, hc]
      exact ⟨rfl, rfl⟩
  | @rv len build bytes wf =>
    match bs, h with
    | pair :: bs, h =>
      by_cases hy : yNibble pair = 15#4
      · simp only [hy, BEq.rfl, if_true] at h
        cases himm : decodeImm len bs with
        | error e => rw [himm] at h; cases h
        | ok found =>
          obtain ⟨w, left⟩ := found
          rw [himm] at h
          obtain ⟨rfl, rfl⟩ := Prod.mk.inj (Except.ok.inj h)
          obtain ⟨hw, rfl⟩ := encodeImm_of_decodeImm himm
          rw [wf, bytes, encodeRv, opcodeByte_fields, ← hy, regpair_fields, hc, hw]
          exact ⟨rfl, rfl⟩
      · simp only [beq_iff_eq, hy, if_false] at h
        obtain ⟨rfl, rfl⟩ := Prod.mk.inj (Except.ok.inj h)
        rw [wf, bytes, encodeRv, opcodeByte_fields, regpair_fields, hc]
        exact ⟨by simpa [Vy.wellFormed] using hy, rfl⟩

/-- Each of the 32 bytes `110PPPPP` is the encoding of the row it decodes to. -/
theorem encode_decodePrefix (k : ImmLen) (b : Byte) (h : isPrefixByte b = true) :
    (decodePrefix b).wellFormed k false = true ∧ encode k (decodePrefix b) = [b] := by
  revert b
  cases k <;> decide

/-- Settles O55: the first byte is one of a row without operands or an opcode byte, whose operands are read in the
format that also encodes them. -/
theorem encodeOfDecodeIsIdentity : Obligations.EncodeOfDecodeIsIdentity := by
  intro k i afterXc bs rest h
  cases bs with
  | nil => cases h
  | cons b bs =>
    rw [decode_cons] at h
    by_cases first : (!afterXc && isPrefixByte b) = true
    · rw [if_pos first] at h
      obtain ⟨rfl, rfl⟩ := Prod.mk.inj (Except.ok.inj h)
      obtain ⟨notAfterXc, hb⟩ := Bool.and_eq_true_iff.1 first
      obtain rfl : afterXc = false := by simpa using notAfterXc
      obtain ⟨wf, bytes⟩ := encode_decodePrefix k b hb
      rw [bytes]
      exact ⟨wf, rfl⟩
    · rw [if_neg first] at h
      exact encode_of_decodeOperands ((startsOpcode_iff afterXc b).1 first) h

/-- Settles O56: each sequence is closed, and the decoder computes its row. -/
theorem sampleBytesDecode : Obligations.SampleBytesDecode :=
  ⟨rfl, rfl, rfl, rfl, rfl, rfl, rfl, rfl, rfl, rfl, rfl⟩

end Sys2Proof.Proofs.Encoding
end

section
/-! PROOFS. Each opcode that is ready answers what its own execute step answers: `exec` said once for the statements
about what an instruction does (R110, R114 to R116). -/

namespace Sys2Proof.Proofs.Executes
open Sys2Proof Sys2Proof.Machine

variable {cond : BitVec 3} {x y : RegNo} {n : CRegNo} {p : PortNo} {v : Vy} {imm set : Word} {k : BitVec 4} {s : State}

theorem exec_inc (ready : Ready (.inc cond x k) s) :
    exec (.inc cond x k) s = finish s.active (oneResult addResult x (.imm (simm4 k)) (s.writeBack cond) s) :=
  runInsn_of_ready _ rfl ready

theorem exec_shl (ready : Ready (.shl cond x v) s) :
    exec (.shl cond x v) s = finish s.active (shiftEffect shlResult x v (s.writeBack cond) s) :=
  runInsn_of_ready _ rfl ready

theorem exec_sru (ready : Ready (.sru cond x v) s) :
    exec (.sru cond x v) s = finish s.active (shiftEffect sruResult x v (s.writeBack cond) s) :=
  runInsn_of_ready _ rfl ready

theorem exec_srs (ready : Ready (.srs cond x v) s) :
    exec (.srs cond x v) s = finish s.active (shiftEffect srsResult x v (s.writeBack cond) s) :=
  runInsn_of_ready _ rfl ready

theorem exec_mlu (ready : Ready (.mlu cond x v) s) :
    exec (.mlu cond x v) s = finish s.active (mulEffect false x v (s.writeBack cond) s) :=
  runInsn_of_ready _ rfl ready

theorem exec_mls (ready : Ready (.mls cond x v) s) :
    exec (.mls cond x v) s = finish s.active (mulEffect true x v (s.writeBack cond) s) :=
  runInsn_of_ready _ rfl ready

theorem exec_dvu (ready : Ready (.dvu cond x v) s) :
    exec (.dvu cond x v) s = finish s.active (dvuEffect x v (s.writeBack cond) s) := runInsn_of_ready _ rfl ready

theorem exec_dvs (ready : Ready (.dvs cond x v) s) :
    exec (.dvs cond x v) s = finish s.active (dvsEffect x v (s.writeBack cond) s) := runInsn_of_ready _ rfl ready

theorem exec_mov (ready : Ready (.mov cond x v) s) :
    exec (.mov cond x v) s = finish s.active (movEffect x v (s.writeBack cond) s) := runInsn_of_ready _ rfl ready

theorem exec_cmp (ready : Ready (.cmp cond x v) s) :
    exec (.cmp cond x v) s = finish s.active (cmpEffect x v (s.writeBack cond) s) := runInsn_of_ready _ rfl ready

theorem exec_rdc (ready : Ready (.rdc cond x n) s) :
    exec (.rdc cond x n) s = finish s.active (rdcEffect x n (s.writeBack cond) s) := runInsn_of_ready _ rfl ready

theorem exec_wrc (ready : Ready (.wrc cond n y) s) :
    exec (.wrc cond n y) s = finish s.active (wrcEffect n y (s.writeBack cond) s) := runInsn_of_ready _ rfl ready

theorem exec_ldw (ready : Ready (.ldw cond x v) s) :
    exec (.ldw cond x v) s = finish s.active (ldwEffect x v (s.writeBack cond) s) := runInsn_of_ready _ rfl ready

theorem exec_stw (ready : Ready (.stw cond x v) s) :
    exec (.stw cond x v) s = finish s.active (stwEffect x v (s.writeBack cond) s) := runInsn_of_ready _ rfl ready

theorem exec_ldb (ready : Ready (.ldb cond x v) s) :
    exec (.ldb cond x v) s = finish s.active (ldbEffect x v (s.writeBack cond) s) := runInsn_of_ready _ rfl ready

theorem exec_stb (ready : Ready (.stb cond x v) s) :
    exec (.stb cond x v) s = finish s.active (stbEffect x v (s.writeBack cond) s) := runInsn_of_ready _ rfl ready

theorem exec_psh (ready : Ready (.psh cond set) s) :
    exec (.psh cond set) s = finish s.active (pshEffect set (s.writeBack cond) s) := runInsn_of_ready _ rfl ready

theorem exec_pop (ready : Ready (.pop cond set) s) :
    exec (.pop cond set) s = finish s.active (popEffect set (s.writeBack cond) s) := runInsn_of_ready _ rfl ready

theorem exec_bra (ready : Ready (.bra cond x v) s) :
    exec (.bra cond x v) s = finish s.active (braEffect x v (s.writeBack cond) s) := runInsn_of_ready _ rfl ready

theorem exec_brr (ready : Ready (.brr cond imm) s) :
    exec (.brr cond imm) s = finish s.active (brrEffect imm (s.writeBack cond) s) := runInsn_of_ready _ rfl ready

theorem exec_fca (ready : Ready (.fca cond x v) s) :
    exec (.fca cond x v) s = finish s.active (fcaEffect x v (s.writeBack cond) s) := runInsn_of_ready _ rfl ready

theorem exec_rdb (ready : Ready (.rdb cond x p) s) :
    exec (.rdb cond x p) s = finish s.active (rdbEffect x p (s.writeBack cond) s) := runInsn_of_ready _ rfl ready

theorem exec_wrb (ready : Ready (.wrb cond p v) s) :
    exec (.wrb cond p v) s = finish s.active (wrbEffect p v (s.writeBack cond) s) := runInsn_of_ready _ rfl ready

theorem exec_bpt (ready : Ready (.bpt cond) s) :
    exec (.bpt cond) s = finish s.active (bptEffect (s.writeBack cond) s) := runInsn_of_ready _ rfl ready

theorem exec_hlt (ready : Ready (.hlt cond) s) :
    exec (.hlt cond) s = finish s.active (hltEffect (s.writeBack cond) s) := runInsn_of_ready _ rfl ready

theorem exec_nop (ready : Ready (.nop cond) s) :
    exec (.nop cond) s = finish s.active (nopEffect (s.writeBack cond) s) := runInsn_of_ready _ rfl ready

end Sys2Proof.Proofs.Executes
end

section
/-! PROOFS. Compare, increment, shift, move, multiply and divide (R143 to R146, R150 to R155, R158). -/

namespace Sys2Proof.Proofs.Arithmetic
open Sys2Proof Sys2Proof.Machine Sys2Proof.Proofs.Executes

/-! ## Compare, move, increment -/

/-- Settles O5: `CMP` writes the flags of the difference over the state as it stands. -/
theorem cmpWritesFlagsOnly : Obligations.CmpWritesFlagsOnly := by
  intro cond x v s ⟨ready, timerNotOne⟩
  rw [← subResult_flags]
  exact computes_of_done (exec_cmp ready) (regsAfter_refl s) (fun _ _ => rfl) rfl rfl rfl rfl timerNotOne

/-- Settles O13: `MOV` writes one register operand, `Rx`, and the flags of the value. -/
theorem movWritesValueAndFlags : Obligations.MovWritesValueAndFlags := by
  intro cond x v s ⟨ready, timerNotOne⟩
  rw [← zsp_eq_resultFlags (n := 15)]
  exact computes_oneReg (exec_mov ready) timerNotOne

/-- Settles O6: `INC` is the addition of the constant that its nibble stands for. -/
theorem incAddsSmallConstant : Obligations.IncAddsSmallConstant := by
  intro cond x k s ⟨ready, timerNotOne⟩
  rw [← simm4_eq, ← addResult_value, ← addResult_flags]
  exact computes_oneReg (exec_inc ready) timerNotOne

/-! ## Shifts -/

section
variable {i : Instr} {cond : BitVec 3} {x : RegNo} {v : Vy} {s : State}

/-- A shift writes its result of `Rx` and of the count that `SHIFT_COUNT` makes of `Vy`. -/
theorem computes_shift {f : Word → Nat → Result} (hexec : exec i s =
      finish s.active (shiftEffect f x v (s.writeBack cond) s)) (timerNotOne : s.getCr s.active 13#4 ≠ 1#16) :
    Computes i s cond (oneReg (s.rd x) (f (s.getRef (s.rx x)) (shiftCount s.cfg.shiftCount (s.vy v))).value)
      (f (s.getRef (s.rx x)) (shiftCount s.cfg.shiftCount (s.vy v))).flags :=
  computes_oneReg hexec timerNotOne

end

/-- Settles O8: the three shifts are `computes_shift`; their results and flags in the manual's arithmetic are the laws
of `shlResult`, `sruResult` and `srsResult`. -/
theorem shiftsWriteResultAndFlags : Obligations.ShiftsWriteResultAndFlags := by
  intro cond x v s p r hp
  change p = 2 ^ shiftCount s.cfg.shiftCount (s.vy v) at hp
  refine ⟨fun ⟨ready, timer⟩ hr => ?shl, fun ⟨ready, timer⟩ hr => ?sru, fun ⟨ready, timer⟩ hr => ?srs⟩
  case shl =>
    have done := computes_shift (exec_shl ready) timer
    rwa [shlResult_value, shlResult_flags, ← hp, ← hr] at done
  case sru =>
    have done := computes_shift (exec_sru ready) timer
    rw [sruResult_flags, sruResult_value, ← hp, ← hr] at done
    exact ⟨_, done⟩
  case srs =>
    have done := computes_shift (exec_srs ready) timer
    have hp : (2 : Int) ^ shiftCount s.cfg.shiftCount (s.vy v) = (p : Int) := by rw [hp]; norm_cast
    rw [srsResult_flags, srsResult_value, hp, ← hr] at done
    exact ⟨_, done⟩

/-! ## Two results: multiply and divide -/

section
variable {i : Instr} {cond : BitVec 3} {x : RegNo} {v : Vy} {s : State} {f : Word → Word → PairResult}

/-- With different destinations both halves of the result are written (R157). -/
theorem computes_twoResults (hexec : exec i s = finish s.active (twoResults f x v (s.writeBack cond) s))
    (distinct : (s.rd x).num ≠ (s.rdx x).num) (timerNotOne : s.getCr s.active 13#4 ≠ 1#16) :
    Computes i s cond (twoRegs (s.rd x) (f (s.getRef (s.rx x)) (s.vy v)).rd (s.rdx x)
      (f (s.getRef (s.rx x)) (s.vy v)).rdx) (f (s.getRef (s.rx x)) (s.vy v)).flags := by
  refine computes_twoRegs ?_ timerNotOne
  rw [hexec, twoResults, if_neg distinct]

/-- With the same destination the instruction is refused (R158). -/
theorem refused_twoResults (hexec : exec i s = finish s.active (twoResults f x v (s.writeBack cond) s))
    (same : (s.rd x).num = (s.rdx x).num) : exec i s = .refused (.sameDestination s) := by
  rw [hexec, twoResults, if_pos same]
  rfl

end

/-- Settles O9: the product and its flags are the laws of `mulResult`; `VF` is the open `MUL_VF`. -/
theorem multiplyWritesBothHalves : Obligations.MultiplyWritesBothHalves := by
  intro cond x v s p distinct
  refine ⟨fun ⟨ready, timer⟩ hp => ?mlu, fun ⟨ready, timer⟩ hp => ?mls⟩
  case mlu =>
    have done := computes_twoResults (exec_mlu ready) distinct timer
    rw [mulResult_unsigned, ← hp] at done
    exact ⟨_, done⟩
  case mls =>
    have done := computes_twoResults (exec_mls ready) distinct timer
    rw [mulResult_signed, ← hp] at done
    exact ⟨_, done⟩

section
variable {cond : BitVec 3} {x : RegNo} {v : Vy} {wf : Bool} {s : State}

theorem dvuEffect_zero (h : s.vy v = 0#16) : dvuEffect x v wf s = .fault (.divideByZero s) := by
  rw [dvuEffect, if_pos h]

theorem dvuEffect_divides (h : s.vy v ≠ 0#16) : dvuEffect x v wf s = twoResults dvuResult x v wf s := by
  rw [dvuEffect, if_neg h]

theorem dvsEffect_zero (h : s.vy v = 0#16) : dvsEffect x v wf s = .fault (.divideByZero s) := by
  rw [dvsEffect, if_pos h]

theorem dvsEffect_overflow (hx : s.getRef (s.rx x) = 0x8000#16) (hy : s.vy v = 0xFFFF#16) :
    dvsEffect x v wf s = .fault (.divideOverflow s) := by
  rw [dvsEffect, if_neg (by rw [hy]; decide), if_pos ⟨hx, hy⟩]

theorem dvsEffect_divides (hz : s.vy v ≠ 0#16) (ho : ¬ (s.getRef (s.rx x) = 0x8000#16 ∧ s.vy v = 0xFFFF#16)) :
    dvsEffect x v wf s = twoResults (dvsResult s.cfg.dvsRound) x v wf s := by
  rw [dvsEffect, if_neg hz, if_neg ho]

end

/-- Settles O10: the divisor 0 is the fault; any other divides, and `q`, `m` are the machine's quotient and remainder. -/
theorem dvuWritesQuotientAndRemainder : Obligations.DvuWritesQuotientAndRemainder := by
  intro cond x v s
  refine ⟨fun ready zero => ?fault, fun ⟨ready, timer⟩ nonzero distinct q m hq hm => ?divides⟩
  case fault =>
    rw [exec_dvu ready, dvuEffect_zero zero]
    rfl
  case divides =>
    have executes := exec_dvu ready
    rw [dvuEffect_divides nonzero] at executes
    have done := computes_twoResults executes distinct timer
    rwa [dvuResult_of hq hm] at done

/-- Settles O11: the divisor 0 and -32768 by -1 are the faults; the rest divides, with the quotient and remainder of
`dvsResult_spec`. -/
theorem dvsWritesQuotientAndRemainder : Obligations.DvsWritesQuotientAndRemainder := by
  intro cond x v s a b ha hb
  have zero_iff : b = 0 ↔ s.vy v = 0#16 := by rw [hb]; exact BitVec.toInt_inj (y := 0#16)
  have min_iff : a = -32768 ↔ s.getRef (s.rx x) = 0x8000#16 := by rw [ha]; exact BitVec.toInt_inj (y := 0x8000#16)
  have minusOne_iff : b = -1 ↔ s.vy v = 0xFFFF#16 := by rw [hb]; exact BitVec.toInt_inj (y := 0xFFFF#16)
  refine ⟨fun ready zero => ?zero, fun ready min minusOne => ?overflow,
    fun ⟨ready, timer⟩ nonzero inRange distinct => ?divides⟩
  case zero =>
    rw [exec_dvs ready, dvsEffect_zero (zero_iff.1 zero)]
    rfl
  case overflow =>
    rw [exec_dvs ready, dvsEffect_overflow (min_iff.1 min) (minusOne_iff.1 minusOne)]
    rfl
  case divides =>
    have executes := exec_dvs ready
    rw [min_iff, minusOne_iff] at inRange
    rw [dvsEffect_divides (fun h => nonzero (zero_iff.2 h)) inRange] at executes
    have done := computes_twoResults executes distinct timer
    obtain ⟨q, m, hq, hm, htrunc, hfloor, result⟩ := dvsResult_spec s.cfg.dvsRound (a := s.getRef (s.rx x))
      (hb ▸ nonzero)
    rw [result] at done
    rw [← ha, ← hb] at hq
    rw [← hb] at hm hfloor
    rw [← ha] at htrunc
    exact ⟨q, m, hq, hm, htrunc, hfloor, done⟩

/-! ### The same destination twice -/

theorem xor_one_ne (n : RegNo) : n ^^^ 1#4 ≠ n := by revert n; decide

/-- The pairing of `Rdx` with `Rd` never makes them one register; only two `DR` rows that name one do (R94, R95, R158). -/
theorem named_twice {s : State} {x : RegNo} {ps : List Instr} (same : (s.rd x).num = (s.rdx x).num)
    (noted : s.latch = notedPrefixes ps) :
    ∃ d, (notedPrefixes.drNumbers ps)[0]? = some d ∧ (notedPrefixes.drNumbers ps)[1]? = some d := by
  have hrd : s.latch.rd = (notedPrefixes.drNumbers ps)[0]? := by rw [noted]; rfl
  have hrdx : s.latch.rdx = (notedPrefixes.drNumbers ps)[1]? := by rw [noted]; rfl
  simp only [State.rd, State.rdx, hrd, hrdx] at same
  match h : notedPrefixes.drNumbers ps with
  | [] => simp [h, (xor_one_ne x).symm] at same
  | [d] => simp [h, (xor_one_ne d).symm] at same
  | d :: e :: ds => exact ⟨d, rfl, by simpa [h, eq_comm] using same⟩

/-- Settles O12: all four are `twoResults` where they are no divide fault, and that refuses the same destination. -/
theorem sameDestinationIsRefused : Obligations.SameDestinationIsRefused := by
  intro cond x v s same
  refine ⟨fun ready => ?mlu, fun ready => ?mls, fun ready nonzero => ?dvu, fun ready nonzero inRange => ?dvs,
    fun ps noted => named_twice same noted⟩
  case mlu => exact refused_twoResults (exec_mlu ready) same
  case mls => exact refused_twoResults (exec_mls ready) same
  case dvu => exact refused_twoResults ((exec_dvu ready).trans (by rw [dvuEffect_divides nonzero])) same
  case dvs => exact refused_twoResults ((exec_dvs ready).trans (by rw [dvsEffect_divides nonzero inRange])) same

end Sys2Proof.Proofs.Arithmetic
end

section
/-! PROOFS. Completion whether or not it makes the timer expire, and raised exceptions, in the terms of the claims
(R122, R123, R242 to R245). -/

namespace Sys2Proof.Proofs.Completion
open Sys2Proof Sys2Proof.Machine Sys2Proof.Proofs.WholeMachine

/-! ## The count, the timer and the flags -/

theorem insnCount_complete_any (u : State) (c : CtxId) : (u.complete c).insnCount c = u.insnCount c + 1 := by
  by_cases expires : u.getCr c crTimer = 1#16
  · have plain : ∀ n, n = crCountHi ∨ n = crCountLo → (u.complete c).getCr c n = (u.countUp c).getCr c n := by
      rintro n (rfl | rfl) <;>
        rw [complete_of_timer_one expires, getCr_takeException_kept _ (by rintro ⟨-, h | h⟩ <;> exact absurd h (by decide)),
          getCr_setCr_ne _ _ _ _ (by decide)]
    rw [← insnCount_countUp, State.insnCount, State.insnCount, plain _ (.inl rfl), plain _ (.inr rfl)]
  · exact insnCount_complete expires

theorem getCr_complete_timer_any (u : State) (c : CtxId) :
    (u.complete c).getCr c crTimer = timerAfter (u.getCr c crTimer) := by
  by_cases expires : u.getCr c crTimer = 1#16
  · rw [complete_of_timer_one expires, expires,
      getCr_takeException_kept _ (by rintro ⟨-, h | h⟩ <;> exact absurd h (by decide)), getCr_setCr_self]
    rfl
  · exact getCr_complete_timer expires

theorem getCr_complete_flags (u : State) (c d : CtxId) : (u.complete c).getCr d 15#4 = u.getCr d 15#4 :=
  getCr_complete_kept fun h => absurd h.2 (by decide)

/-- The flags of a claim are read from `FLAGS` alone. -/
theorem flagsAfter_congr {s t u : State} {cond : BitVec 3} {w : FlagWrite}
    (h : t.getCr s.active 15#4 = u.getCr s.active 15#4) (hu : FlagsAfter s u cond w) : FlagsAfter s t cond w := by
  unfold FlagsAfter
  rw [h]
  exact hu

/-- The count and the timer that an execute step left alone, once it has completed. -/
theorem counted_complete {s u : State} (hlo : u.getCr s.active 4#4 = s.getCr s.active 4#4)
    (hhi : u.getCr s.active 5#4 = s.getCr s.active 5#4) (htimer : u.getCr s.active 13#4 = s.getCr s.active 13#4) :
    Counted s (u.complete s.active) := by
  constructor
  · rw [insnCount_complete_any, State.insnCount, State.insnCount, hlo, hhi]
  · exact (getCr_complete_timer_any u s.active).trans (by rw [show crTimer = (13#4 : CRegNo) from rfl, htimer]; rfl)

theorem ended_complete {s u : State} (hcfg : u.cfg = s.cfg) (timerNotOne : u.getCr s.active 13#4 ≠ 1#16) :
    Ended s (u.complete s.active) .completed :=
  ⟨complete_ended timerNotOne, complete_latch _ _, by rw [complete_cfg, hcfg]⟩

/-! ## The control registers -/

/-- A completion that raises nothing writes the count and the timer beside what the execute step wrote. -/
theorem cregsKept_complete {s u : State} {written all : List CRegNo} (hcfg : u.cfg = s.cfg)
    (kept : CregsKept s u written) (timerNotOne : u.getCr s.active 13#4 ≠ 1#16) (hw : written ⊆ all)
    (hall : [4#4, 5#4, 13#4] ⊆ all) : CregsKept s (u.complete s.active) all := by
  intro d n hn
  have before : u.getCr d n = s.getCr d n := kept d n fun w => hn ⟨hw w.1, w.2⟩
  by_cases same : s.sameCreg d n
  · have other : ∀ m ∈ [4#4, 5#4, 13#4], n ≠ m := fun m hm e => hn ⟨hall (e ▸ hm), same⟩
    rw [getCr_complete_ne timerNotOne d (other _ (by decide)) (other _ (by decide)) (other _ (by decide)), before]
  · rw [getCr_complete_far timerNotOne d n (by rw [hcfg]; exact fun e => same ((home_eq_iff s d n).1 e)), before]

/-- Any completion writes, beside what the execute step wrote, at most the count, the timer and an exception's record. -/
theorem cregsKept_complete_any {s u : State} {written all : List CRegNo} (hcfg : u.cfg = s.cfg)
    (kept : CregsKept s u written) (hw : written ⊆ all) (hall : hardwareCregs ⊆ all) :
    CregsKept s (u.complete s.active) all := by
  intro d n hn
  rw [getCr_complete_kept fun h => hn ⟨hall h.2, (home_eq_iff s d n).1 (by rw [← hcfg]; exact h.1)⟩]
  exact kept d n fun w => hn ⟨hw w.1, w.2⟩

/-! ## The expiry of the timer -/

section
variable {s u : State} (expires : u.getCr s.active 13#4 = 1#16)
include expires

theorem ended_of_expiry (hcfg : u.cfg = s.cfg) : Ended s (u.complete s.active) (.exception .timer) :=
  ⟨by rw [complete_of_timer_one expires, takeException_ended], complete_latch _ _, by rw [complete_cfg, hcfg]⟩

theorem infoRecords_of_expiry (hcfg : u.cfg = s.cfg) :
    InfoRecords ((u.complete s.active).getCr s.active 11#4) s.cfg.excCodes .timer := by
  rw [complete_of_timer_one expires, show (11#4 : CRegNo) = crExcInfo from rfl, getCr_takeException, if_pos ⟨rfl, rfl⟩,
    setCr_cfg, countUp_cfg, hcfg]
  exact infoRecords_excInfo _ _

theorem active_of_expiry : (u.complete s.active).active = activeAfterExc u := by
  rw [complete_of_timer_one expires, takeException_active, setCr_cfg, countUp_cfg, setCr_active, countUp_active,
    activeAfterExc]

end

/-! ## An exception that the execute step raises -/

/-- An instruction that raises and has changed nothing. -/
theorem raises_unchanged {i : Instr} {s : State} {e : Exc} (hexec : exec i s = finish s.active (.raise e s)) :
    ∃ t, exec i s = .next t ∧ Raises s t e (loosePC s) :=
  ⟨_, hexec, raises_takeException rfl (fun _ _ => rfl) rfl rfl rfl (fun _ _ _ => rfl) fun _ => ⟨rfl, rfl⟩⟩

end Sys2Proof.Proofs.Completion
end

section
/-! PROOFS. Control register access: `RDC` and `WRC` (R170 to R173, R32, R46). -/

namespace Sys2Proof.Proofs.ControlRegisters
open Sys2Proof Sys2Proof.Machine
open Sys2Proof.Proofs.Executes Sys2Proof.Proofs.Completion Sys2Proof.Proofs.WholeMachine

/-! ## `RDC` -/

/-- Settles O14: a read of `EXEC_STATE` is a free value, every other register is read as it stands. -/
theorem rdcReadsControlRegister : Obligations.RdcReadsControlRegister := by
  intro cond x n s ⟨ready, timerNotOne⟩ allowed answers
  have executes := exec_rdc ready
  by_cases execState : isExecState n = true
  · rw [rdcEffect_execState x _ allowed answers execState, okResult_flags] at executes
    refine ⟨s.freeWord, fun h6 h7 => absurd ((isExecState_iff n).1 execState) (by simp [h6, h7]), ?_⟩
    exact computes_of_done executes (regsAfter_drawRef s _) (by simp [State.drawRef]) (by simp [State.drawRef])
      (by simp [State.drawRef]) (by simp [State.drawRef]) (by simp [State.drawRef]) timerNotOne
  · rw [rdcEffect_reads x _ allowed answers (by simpa using execState), okResult_flags] at executes
    exact ⟨_, fun _ _ => rfl, computes_oneReg executes timerNotOne⟩

/-- Settles O15: a failed read draws `Rx` and the flags, a failed write the flags alone, each with `CF` 1. -/
theorem controlAccessFailureSetsCarry : Obligations.ControlAccessFailureSetsCarry := by
  intro cond x y n s
  refine ⟨fun ⟨ready, timer⟩ allowed fails => ?read, fun ⟨ready, timer⟩ allowed h6 h7 reserved fails => ?write⟩
  case read =>
    have executes := exec_rdc ready
    rw [rdcEffect_fails x _ allowed fails] at executes
    exact ⟨s.freeWord, _, _, _, computes_of_done executes (regsAfter_congr (regsAfter_drawRef s _) (by simp))
      (by simp [State.drawRef]) (by simp [State.drawRef]) (by simp [State.drawRef]) (by simp [State.drawRef])
      (by simp [State.drawRef]) timer⟩
  case write =>
    have executes := exec_wrc ready
    have plain : isExecState n = false := by simp [isExecState, h6, h7]
    rw [wrcEffect_fails _ allowed plain reserved fails] at executes
    exact ⟨_, _, _, computes_of_done executes (regsAfter_congr (regsAfter_refl s) (by simp)) (by simp) rfl rfl rfl rfl
      timer⟩

/-- Settles O16: with its mask bit set the access raises in the state as it stands. -/
theorem deniedControlAccessRaises : Obligations.DeniedControlAccessRaises := by
  intro cond x y n s
  exact ⟨fun ready denied => raises_unchanged ((exec_rdc ready).trans (by rw [rdcEffect_denied x _ denied])),
    fun ready denied => raises_unchanged ((exec_wrc ready).trans (by rw [wrcEffect_denied y _ denied]))⟩

/-! ## `WRC` -/

/-- The machine after the execute step of a `WRC` that writes `v` to control register `n` (R172). -/
def wrote (s : State) (n : CRegNo) (v : Word) (wf : Bool) : State :=
  (s.setCr s.active n v).writeFlags s.active wf (okResult v).flags

section
variable (s : State) {n m : CRegNo} (v : Word) (wf : Bool)

@[simp] theorem wrote_cfg : (wrote s n v wf).cfg = s.cfg := by simp [wrote]
@[simp] theorem wrote_mem : (wrote s n v wf).mem = s.mem := by simp [wrote]
@[simp] theorem wrote_ports : (wrote s n v wf).ports = s.ports := by simp [wrote]
@[simp] theorem wrote_active : (wrote s n v wf).active = s.active := by simp [wrote]
@[simp] theorem getReg_wrote (c : CtxId) (i : RegNo) : (wrote s n v wf).getReg c i = s.getReg c i := by simp [wrote]

theorem cregsKept_wrote : CregsKept s (wrote s n v wf) [n, 15#4] := cregsKept_setCr_writeFlags s n v wf _

theorem getCr_wrote_self (h : n ≠ 15#4) : (wrote s n v wf).getCr s.active n = v := by
  rw [wrote, getCr_writeFlags_ne _ _ _ _ _ h, getCr_setCr_self]

theorem getCr_wrote_ne (d : CtxId) (h : m ≠ n) (h15 : m ≠ 15#4) : (wrote s n v wf).getCr d m = s.getCr d m :=
  cregsKept_wrote s v wf d m (by simp [h, h15])

/-- A write of another register than `FLAGS` leaves the flags to the write-back (R120). -/
theorem flagsAfter_wrote (cond : BitVec 3) (h : n ≠ 15#4) :
    FlagsAfter s (wrote s n v (s.writeBack cond)) cond { resultFlags v with c := some false } := by
  rw [← okResult_flags]
  exact flagsAfter_writeFlags cond _ (getCr_setCr_ne _ _ _ _ h.symm)

theorem regsAfter_wrote_complete : RegsAfter s ((wrote s n v wf).complete s.active) noReg :=
  regsAfter_congr (regsAfter_refl s) (by simp)

theorem stays_wrote_complete (h : (wrote s n v wf).getCr s.active 13#4 ≠ 1#16) :
    Stays s ((wrote s n v wf).complete s.active) :=
  stays_complete h ⟨fun a => by simp, by simp, by simp⟩

/-- A write of another register leaves the timer alone. -/
theorem getCr_wrote_timer (h : n ≠ 13#4) : (wrote s n v wf).getCr s.active 13#4 = s.getCr s.active 13#4 :=
  getCr_wrote_ne s v wf s.active h.symm (by decide)

end

/-- A `WRC` that nothing denies, refuses or fails writes the register and completes. -/
theorem exec_wrc_writes {cond : BitVec 3} {n : CRegNo} {y : RegNo} {s : State} (ready : Ready (.wrc cond n y) s)
    (allowed : (s.getCr s.active 1#4).getLsbD n.toNat = false) (plain : n ≠ 6#4 ∧ n ≠ 7#4)
    (reserved : reservedOk n (s.getRef (s.ry y))) (answers : s.cfg.cregFailWrite.getLsbD n.toNat = false) :
    exec (.wrc cond n y) s = .next ((wrote s n (s.getRef (s.ry y)) (s.writeBack cond)).complete s.active) := by
  rw [exec_wrc ready, wrcEffect_writes _ allowed (by simp [isExecState, plain]) reserved answers]
  rfl

/-- Settles O17: the register takes `Ry`, and completion writes only the count and the timer. -/
theorem wrcWritesControlRegister : Obligations.WrcWritesControlRegister := by
  intro cond n y s ⟨ready, timerNotOne⟩ hn allowed reserved answers
  simp only [List.mem_cons, List.not_mem_nil, or_false, not_or] at hn
  obtain ⟨h4, h5, h6, h7, h13, h15⟩ := hn
  have timer := getCr_wrote_timer s (s.getRef (s.ry y)) (s.writeBack cond) h13
  have timer' : (wrote s n (s.getRef (s.ry y)) (s.writeBack cond)).getCr s.active 13#4 ≠ 1#16 := by rwa [timer]
  refine ⟨_, exec_wrc_writes ready allowed ⟨h6, h7⟩ reserved answers, ?_, ?_, regsAfter_wrote_complete _ _ _, ?_,
    ended_complete (wrote_cfg ..) timer', stays_wrote_complete _ _ _ timer',
    flagsAfter_congr (getCr_complete_flags ..) (flagsAfter_wrote s _ cond h15)⟩
  · rw [getCr_complete_ne timer' _ h4 h5 h13, getCr_wrote_self s _ _ h15]
  · exact cregsKept_complete (wrote_cfg ..) (cregsKept_wrote _ _ _) timer' (by simp) (by simp)
  · exact counted_complete (getCr_wrote_ne _ _ _ _ (Ne.symm h4) (by decide))
      (getCr_wrote_ne _ _ _ _ (Ne.symm h5) (by decide)) timer

/-- `FLAGS` after a `WRC` of it: the value, and on top of it the write-back where that is on (D22). -/
theorem getCr_wrote_flags (s : State) (v : Word) (wf : Bool) :
    (wrote s 15#4 v wf).getCr s.active 15#4 = if wf then putFlags v (okResult v).flags else v := by
  have value : (s.setCr s.active crFlags v).getCr s.active crFlags = v := getCr_setCr_self ..
  refine (flags_writeFlags_self (s.setCr s.active crFlags v) s.active wf _).trans ?_
  rw [value]

/-- Settles O18: the write-back of `ZF`, `SF`, `PF` and `CF` lies on top of the value, whose bits from 4 on it keeps. -/
theorem wrcFlagsWriteBackComesLast : Obligations.WrcFlagsWriteBackComesLast := by
  intro cond y s w ⟨ready, timerNotOne⟩ hw allowed reserved answers
  subst hw
  have timer := getCr_wrote_timer s (n := 15#4) (s.getRef (s.ry y)) (s.writeBack cond) (by decide)
  have timer' : (wrote s 15#4 (s.getRef (s.ry y)) (s.writeBack cond)).getCr s.active 13#4 ≠ 1#16 := by rwa [timer]
  refine ⟨_, exec_wrc_writes ready allowed (by decide) reserved answers,
    cregsKept_complete (wrote_cfg ..) (cregsKept_wrote _ _ _) timer' (by simp) (by simp), regsAfter_wrote_complete _ _ _,
    counted_complete (getCr_wrote_ne _ _ _ _ (by decide) (by decide))
      (getCr_wrote_ne _ _ _ _ (by decide) (by decide)) timer,
    ended_complete (wrote_cfg ..) timer', stays_wrote_complete _ _ _ timer', fun off => ?_, fun on => ?_⟩
  · rw [getCr_complete_flags, getCr_wrote_flags, if_neg (by rwa [writeBack_iff])]
  · rw [getCr_complete_flags, getCr_wrote_flags, if_pos ((writeBack_iff s cond).2 on)]
    generalize s.getRef (s.ry y) = w
    refine ⟨(putFlags_zf ..).trans (beq_eq_decide ..), putFlags_sf .., (putFlags_pf ..).trans (parity_eq_oddOnes w),
      putFlags_cf .., fun j hj => ?_⟩
    rcases Nat.lt_or_eq_of_le hj with high | rfl
    · exact putFlags_high _ _ high
    · exact putFlags_vf ..

/-- Settles O19: completion counts the new value, so 1 expires at once and 0 counts nothing. -/
theorem wrcTimerCountsItself : Obligations.WrcTimerCountsItself := by
  intro cond y s w ready hw allowed answers
  subst hw
  have reserved : reservedOk 13#4 (s.getRef (s.ry y)) := reservedOk_of_plain _ (by decide)
  have executes := exec_wrc_writes ready allowed (by decide) reserved answers
  revert executes
  generalize s.getRef (s.ry y) = w
  intro executes
  have timer : (wrote s 13#4 w (s.writeBack cond)).getCr s.active 13#4 = w := getCr_wrote_self s w _ (by decide)
  have counts : ∀ m, m = 4#4 ∨ m = 5#4 → (wrote s 13#4 w (s.writeBack cond)).getCr s.active m = s.getCr s.active m := by
    rintro m (rfl | rfl) <;> exact getCr_wrote_ne s w _ _ (by decide) (by decide)
  refine ⟨_, executes, regsAfter_wrote_complete _ _ _, fun a => by simp, by simp, ?count,
    flagsAfter_congr (getCr_complete_flags ..) (flagsAfter_wrote s w cond (by decide)), ?timer,
    fun notOne => ⟨?_, ?_, ?_⟩, fun one => ⟨?_, ?_, ?_, ?_⟩⟩
  case count => rw [insnCount_complete_any, State.insnCount, State.insnCount, counts _ (.inr rfl), counts _ (.inl rfl)]
  case timer => exact (getCr_complete_timer_any ..).trans (congrArg timerAfter timer)
  · exact cregsKept_complete (wrote_cfg ..) (cregsKept_wrote _ _ _) (by rwa [timer]) (by simp) (by simp)
  · exact ended_complete (wrote_cfg ..) (by rwa [timer])
  · exact (stays_wrote_complete s w _ (by rwa [timer])).active
  · exact cregsKept_complete_any (wrote_cfg ..) (cregsKept_wrote _ _ _) (by simp) (by decide)
  · exact ended_of_expiry (timer.trans one) (wrote_cfg ..)
  · exact infoRecords_of_expiry (timer.trans one) (wrote_cfg ..)
  · rw [active_of_expiry (timer.trans one), activeAfterExc, activeAfterExc, wrote_cfg, wrote_active]

/-- Settles O20: completion adds 1 to the count whose one half the write has replaced. -/
theorem wrcCountThenIncrements : Obligations.WrcCountThenIncrements := by
  intro cond n y s ⟨ready, timerNotOne⟩ hn allowed answers
  have hplain : n ∉ [8#4, 9#4, 10#4, 11#4, 15#4] ∧ n ≠ 13#4 ∧ n ≠ 15#4 ∧ (n ≠ 6#4 ∧ n ≠ 7#4) ∧ n ∈ [4#4, 5#4, 13#4, 15#4] := by
    rcases hn with rfl | rfl <;> decide
  obtain ⟨unreserved, h13, h15, plain, member⟩ := hplain
  have executes := exec_wrc_writes ready allowed plain (reservedOk_of_plain _ unreserved) answers
  revert executes
  generalize s.getRef (s.ry y) = w
  intro executes
  have timer := getCr_wrote_timer s w (s.writeBack cond) h13
  have timer' : (wrote s n w (s.writeBack cond)).getCr s.active 13#4 ≠ 1#16 := by rwa [timer]
  refine ⟨_, executes, cregsKept_complete (wrote_cfg ..) (cregsKept_wrote _ _ _) timer' (by simpa using member) (by simp),
    regsAfter_wrote_complete _ _ _, flagsAfter_congr (getCr_complete_flags ..) (flagsAfter_wrote s w cond h15),
    ended_complete (wrote_cfg ..) timer', stays_wrote_complete _ _ _ timer', ?timer, ?count⟩
  case timer => exact (getCr_complete_timer_any ..).trans (congrArg timerAfter timer)
  case count =>
    rw [insnCount_complete_any, State.insnCount]
    rcases hn with rfl | rfl
    · rw [if_pos rfl, getCr_wrote_self s w _ (by decide), getCr_wrote_ne s w _ _ (by decide) (by decide)]
    · rw [if_neg (by decide), getCr_wrote_self s w _ (by decide), getCr_wrote_ne s w _ _ (by decide) (by decide)]

/-- Settles O21: the two refusals of `wrcEffect`; `EXEC_STATE` has no reserved bits, so they do not meet. -/
theorem wrcRefusesExecStateAndReservedBits : Obligations.WrcRefusesExecStateAndReservedBits := by
  intro cond n y s ready allowed
  refine ⟨fun hn => ?_, fun unmet => ?_⟩
  · rw [exec_wrc ready, wrcEffect_execState y _ allowed ((isExecState_iff n).2 hn)]
    rfl
  · have plain : isExecState n = false := by
      rw [← Bool.not_eq_true, isExecState_iff]
      rintro (rfl | rfl) <;> exact unmet (reservedOk_of_plain _ (by decide))
    rw [exec_wrc ready, wrcEffect_reserved _ allowed plain unmet]
    rfl

end Sys2Proof.Proofs.ControlRegisters
end

section
/-! PROOFS. Loads, stores and the page-table walk (R59 to R64, R72, R180 to R183, R188). -/

namespace Sys2Proof.Proofs.LoadStore
open Sys2Proof Sys2Proof.Machine Sys2Proof.Proofs.Executes Sys2Proof.Proofs.Completion

/-! ## Words and bytes of memory -/

theorem pa_ne_succ (pa : PhysAddr) : pa.toNat ≠ (pa + 1#24).toNat := by bv_omega

/-- A word stored is held where it was stored (R51). -/
theorem holdsWord_withWord (s : State) (pa : PhysAddr) (w : Word) : (s.withWord pa w).holdsWord pa w := by
  constructor
  · rw [State.withWord, putByte_mem, putByte_mem, memory_read_write_other _ _ (pa_ne_succ pa), memory_read_write_same]
  · rw [State.withWord, putByte_mem, memory_read_write_same]

theorem memKeptBut_withWord (s : State) (pa : PhysAddr) (w : Word) : MemKeptBut s (s.withWord pa w) (wordBytes pa) := by
  intro a ha
  simp only [wordBytes, List.mem_cons, List.not_mem_nil, or_false, not_or] at ha
  rw [State.withWord, putByte_mem, putByte_mem, memory_read_write_other _ _ ha.2, memory_read_write_other _ _ ha.1]

section
variable (s : State) (pa : PhysAddr) (w : Word)

@[simp] theorem withWord_cfg : (s.withWord pa w).cfg = s.cfg := rfl
@[simp] theorem withWord_active : (s.withWord pa w).active = s.active := rfl
@[simp] theorem withWord_ports : (s.withWord pa w).ports = s.ports := rfl
@[simp] theorem getReg_withWord (c : CtxId) (i : RegNo) : (s.withWord pa w).getReg c i = s.getReg c i := by
  simp [State.withWord]
@[simp] theorem getCr_withWord (c : CtxId) (n : CRegNo) : (s.withWord pa w).getCr c n = s.getCr c n := by
  simp [State.withWord]

end

/-- Which bytes a memory holds does not depend on the rest of the state. -/
theorem holdsWord_congr {s t : State} {pa : PhysAddr} {w : Word} (h : MemKept s t) (hs : s.holdsWord pa w) :
    t.holdsWord pa w := ⟨(h _).trans hs.1, (h _).trans hs.2⟩

section
variable {s : State} {va : Word} {pa : PhysAddr}

theorem readWord_of (reach : s.wordAt .read va pa) {w : Word} (holds : s.holdsWord pa w) : s.readWord va = .ok w :=
  (readWord_iff s va w).2 ⟨pa, reach, holds⟩

theorem readByte_of (reach : s.byteAt .read va pa) {b : Byte} (holds : Memory.read s.mem pa.toNat = some b) :
    s.readByte va = .ok b := by
  rw [State.readByte, andThen_ok]
  exact ⟨pa, reach.1, physRead_ok.2 ⟨reach.2, holds⟩⟩

theorem writeWord_of (reach : s.wordAt .write va pa) (w : Word) : s.writeWord va w = .ok (s.withWord pa w) := by
  obtain ⟨even, translated, low, high⟩ := reach
  refine writeWord_ok.2 ⟨(even_iff va).1 even, pa, translated, low, high, ?_⟩
  rw [State.withWord, Machine.loByte_eq, Machine.hiByte_eq]
  rfl

theorem writeByte_of (reach : s.byteAt .write va pa) (b : Byte) : s.writeByte va b = .ok (s.putByte pa b) :=
  writeByte_ok.2 ⟨pa, reach.1, reach.2, rfl⟩

/-- The first byte of a word that an access reaches. -/
theorem byteAt_of_wordAt {mode : AccessMode} (reach : s.wordAt mode va pa) : s.byteAt mode va pa :=
  ⟨reach.2.1, reach.2.2.1⟩

/-- A byte access raises what its translation raises, and `EXC_BUS` where the bus does not answer (R62 to R64). -/
theorem readByte_exc {e : Exc} (h : s.translate va .read = .exc e ∨
      ∃ pa, s.translate va .read = .ok pa ∧ e = .bus .read va ∧ physMapHas s.cfg.physMap pa.toNat .read = false) :
    s.readByte va = .exc e := by
  rw [State.readByte, andThen_exc]
  exact h.imp_right fun ⟨pa, translated, he, silent⟩ => ⟨pa, translated, physRead_exc.2 ⟨silent, he⟩⟩

theorem writeByte_exc {e : Exc} (b : Byte) (h : s.translate va .write = .exc e ∨
      ∃ pa, s.translate va .write = .ok pa ∧ e = .bus .write va ∧ physMapHas s.cfg.physMap pa.toNat .write = false) :
    s.writeByte va b = .exc e := by
  rw [State.writeByte, andThen_exc]
  refine h.imp_right fun ⟨pa, translated, he, silent⟩ => ⟨pa, translated, ?_⟩
  rw [if_neg (by rw [silent]; decide), he]

end

/-! ## Loads -/

/-- Settles O22: the word or byte read goes to `Rx` with the flags of its value. -/
theorem loadsWriteValueAndFlags : Obligations.LoadsWriteValueAndFlags := by
  intro cond x v s pa
  refine ⟨fun w ⟨ready, timer⟩ reach holds => ?word, fun b ⟨ready, timer⟩ reach holds => ?byte⟩
  case word =>
    have executes := exec_ldw ready
    rw [ldwEffect, readWord_of reach holds, thenDo_of_ok] at executes
    rw [← zsp_eq_resultFlags (n := 15)]
    exact computes_oneReg executes timer
  case byte =>
    have executes := exec_ldb ready
    rw [ldbEffect, readByte_of reach holds, thenDo_of_ok, widenByte_eq] at executes
    rw [← zsp_eq_resultFlags (n := 15)]
    exact computes_oneReg executes timer

/-! ## Stores -/

/-- An instruction that wrote memory alone, run to completion. -/
theorem completes_of_store {i : Instr} {s u : State} {cond : BitVec 3} (hexec : exec i s = finish s.active (.done u))
    (hregs : ∀ c n, u.getReg c n = s.getReg c n) (hcr : ∀ d n, u.getCr d n = s.getCr d n) (hcfg : u.cfg = s.cfg)
    (hports : u.ports = s.ports) (hact : u.active = s.active) (timerNotOne : s.getCr s.active 13#4 ≠ 1#16) :
    ∃ t, exec i s = .next t ∧ Completes s t cond noReg {} ∧ MemKept u t ∧ t.ports = s.ports ∧ t.active = s.active := by
  refine ⟨_, hexec, completes_of_complete hcfg (regsAfter_congr (regsAfter_refl s) hregs) (flagsAfter_same cond (hcr _ _))
    (fun d n _ => hcr d n) timerNotOne, fun a => by rw [complete_mem], by rw [complete_ports, hports], ?_⟩
  rw [complete_active (by rwa [hcr]), hact]

/-- What `STW` leaves: the word at the address it reaches, and the rest as a completed store leaves it (R181). -/
theorem stw_next {cond : BitVec 3} {x : RegNo} {v : Vy} {s : State} {pa : PhysAddr} (runs : Runs (.stw cond x v) s)
    (reach : s.wordAt .write (s.effAddr x v) pa) :
    ∃ t, exec (.stw cond x v) s = .next t ∧ Completes s t cond noReg {} ∧
      MemKept (s.withWord pa (s.getRef (s.rx x))) t ∧ t.ports = s.ports ∧ t.active = s.active := by
  obtain ⟨ready, timer⟩ := runs
  have executes := exec_stw ready
  rw [stwEffect, writeWord_of reach] at executes
  exact completes_of_store executes (by simp) (by simp) rfl rfl rfl timer

/-- Settles O23: `STW` leaves the memory of `withWord`, `STB` that of `putByte`, both otherwise completed. -/
theorem storesWriteBytes : Obligations.StoresWriteBytes := by
  intro cond x v s pa
  refine ⟨fun runs reach => ?word, fun ⟨ready, timer⟩ reach => ?byte⟩
  case word =>
    obtain ⟨t, executes, completes, mem, ports, active⟩ := stw_next runs reach
    exact ⟨t, executes, completes, holdsWord_congr mem (holdsWord_withWord s pa _),
      fun a ha => (mem a).trans (memKeptBut_withWord s pa _ a ha), ports, active⟩
  case byte =>
    have executes := exec_stb ready
    rw [stbEffect, writeByte_of reach, Machine.loByte_eq] at executes
    obtain ⟨t, executes, completes, mem, ports, active⟩ :=
      completes_of_store executes (by simp) (by simp) rfl rfl rfl timer
    refine ⟨t, executes, completes, (mem _).trans (memory_read_write_same ..), fun a ha => (mem a).trans ?_, ports, active⟩
    exact memory_read_write_other _ _ (by simpa using ha)

/-- Settles O30: the word stands in memory after `STW`, so every access that reaches it reads it or a byte of it. -/
theorem storedWordReadsBackLittleEndian : Obligations.StoredWordReadsBackLittleEndian := by
  intro cond x v s t pa w runs reach executes hw readable
  subst hw
  obtain ⟨t', executes', -, mem, -, -⟩ := stw_next runs reach
  obtain rfl : t' = t := Host.Outcome.next.inj (executes'.symm.trans executes)
  have holds : t'.holdsWord pa (s.getRef (s.rx x)) := holdsWord_congr mem (holdsWord_withWord s pa _)
  exact ⟨readWord_of readable holds, readByte_of (byteAt_of_wordAt readable) holds.1,
    fun next => readByte_of next holds.2⟩

/-- Settles O25: each of the four accesses answers the exception, and raises it in the state as it stands. -/
theorem dataAccessExceptionRaises : Obligations.DataAccessExceptionRaises := by
  intro cond x v s e mode i which cause ready
  rcases which with ⟨rfl, rfl⟩ | ⟨rfl, rfl⟩ | ⟨⟨rfl, rfl⟩ | ⟨rfl, rfl⟩, even⟩
  · have access : s.readByte (s.effAddr x v) = .exc e :=
      readByte_exc (cause.imp_right fun ⟨pa, translated, he, silent⟩ => ⟨pa, translated, he, by simpa using silent⟩)
    exact raises_unchanged ((exec_ldb ready).trans (by rw [ldbEffect, access, thenDo_of_exc]))
  · have access : ∀ b, s.writeByte (s.effAddr x v) b = .exc e := fun b =>
      writeByte_exc b (cause.imp_right fun ⟨pa, translated, he, silent⟩ => ⟨pa, translated, he, by simpa using silent⟩)
    exact raises_unchanged ((exec_stb ready).trans (by rw [stbEffect, access, thenDo_of_exc]))
  · have access : s.readWord (s.effAddr x v) = .exc e :=
      (readWord_exc ..).2 (.inr ⟨even, cause.imp_right fun ⟨pa, translated, he, silent⟩ =>
        ⟨pa, translated, he, by simpa using silent⟩⟩)
    exact raises_unchanged ((exec_ldw ready).trans (by rw [ldwEffect, access, thenDo_of_exc]))
  · have access : ∀ w, s.writeWord (s.effAddr x v) w = .exc e := fun w =>
      (writeWord_exc ..).2 (.inr ⟨even, cause.imp_right fun ⟨pa, translated, he, silent⟩ =>
        ⟨pa, translated, he, by simpa using silent⟩⟩)
    exact raises_unchanged ((exec_stw ready).trans (by rw [stwEffect, access, thenDo_of_exc]))

/-! ## The page-table walk -/

/-- R59, R60 as arithmetic: the table base is the register without its bit 0, in units of 256. -/
theorem pteAddr_toNat (m va : Word) : (pteAddr m va).toNat = m.toNat / 2 * 2 * 256 + 2 * (va.toNat / 256) := by
  have base : (m &&& 0xFFFE#16).toNat = m.toNat / 2 * 2 := by
    have split : m &&& 0xFFFE#16 = (m >>> 1) <<< 1 := by
      apply BitVec.eq_of_getLsbD_eq
      intro j hj
      interval_cases j <;> simp
    have := m.isLt
    rw [split, BitVec.toNat_shiftLeft, BitVec.toNat_ushiftRight, Nat.shiftLeft_eq, Nat.shiftRight_eq_div_pow]
    omega
  have page : (va.extractLsb' 8 8).toNat = va.toNat / 256 := by
    have := va.isLt
    rw [BitVec.extractLsb'_toNat, Nat.shiftRight_eq_div_pow]
    omega
  have hm := m.isLt
  have hva := va.isLt
  rw [pteAddr, BitVec.toNat_add, BitVec.toNat_mul, BitVec.toNat_append, BitVec.toNat_setWidth_of_le (by decide), page,
    ← Nat.shiftLeft_add_eq_or_of_lt (by decide), Nat.shiftLeft_eq, base]
  simp only [BitVec.toNat_ofNat]
  omega

/-- The page's address in front of the offset (R60). -/
theorem pageAddr_toNat (pte va : Word) : (pte ++ va.extractLsb' 0 8 : PhysAddr).toNat = pte.toNat * 256 + va.toNat % 256 := by
  have offset : (va.extractLsb' 0 8).toNat = va.toNat % 256 := by rw [BitVec.extractLsb'_toNat]; rfl
  rw [BitVec.toNat_append, ← Nat.shiftLeft_add_eq_or_of_lt (va.extractLsb' 0 8).isLt, Nat.shiftLeft_eq, offset]

section
variable {s : State} {m va : Word} {mode : AccessMode}

/-- The walk raises `EXC_BUS` where the bus does not answer a byte of the entry (R60, R62). -/
theorem pageTranslate_bus (h : physMapHas s.cfg.physMap (pteAddr m va).toNat .read = false ∨
      physMapHas s.cfg.physMap (pteAddr m va).toNat .read = true ∧ Memory.read s.mem (pteAddr m va).toNat ≠ none ∧
        physMapHas s.cfg.physMap (pteAddr m va + 1).toNat .read = false) :
    s.pageTranslate m va mode = .exc (.bus mode va) := by
  rw [State.pageTranslate, andThen_exc]
  rcases h with silent | ⟨low, written, silent⟩
  · exact .inl (physRead_exc.2 ⟨silent, rfl⟩)
  · obtain ⟨lo, hlo⟩ := Option.ne_none_iff_exists'.1 written
    exact .inr ⟨lo, physRead_ok.2 ⟨low, hlo⟩, andThen_exc.2 (.inl (physRead_exc.2 ⟨silent, rfl⟩))⟩

/-- The walk where the bus answers and memory holds the entry (R60, R61). -/
theorem pageTranslate_entry {pte : Word} (low : physMapHas s.cfg.physMap (pteAddr m va).toNat .read = true)
    (high : physMapHas s.cfg.physMap (pteAddr m va + 1).toNat .read = true) (holds : s.holdsWord (pteAddr m va) pte) :
    s.pageTranslate m va mode =
      if pteFaults s.cfg.pteFault pte mode then .exc (.mmu mode va) else .ok (pte ++ va.extractLsb' 0 8) := by
  rw [State.pageTranslate, physRead_ok.2 ⟨low, holds.1⟩, andThen_of_ok, physRead_ok.2 ⟨high, holds.2⟩, andThen_of_ok,
    wordOf_ofNat_bytes]

end

/-- Settles O32: the statement's entry address is `pteAddr`, and the walk there is `pageTranslate`. -/
theorem pageTranslationWalksTable : Obligations.PageTranslationWalksTable := by
  intro s va mode m ea hm mmuOn hea
  obtain rfl : m = s.membase mode := by cases mode <;> exact hm
  obtain rfl : ea = pteAddr (s.membase mode) va := BitVec.eq_of_toNat_eq (hea.trans (pteAddr_toNat _ va).symm)
  have next : (pteAddr (s.membase mode) va).toNat + 1 = (pteAddr (s.membase mode) va + 1).toNat := by
    rw [BitVec.toNat_add, hea]
    have := (s.membase mode).isLt
    have := va.isLt
    change _ = (_ + 1) % 2 ^ 24
    omega
  rw [next, translate_page mmuOn]
  refine ⟨fun silent => pageTranslate_bus (.inl silent),
    fun low written silent => pageTranslate_bus (.inr ⟨low, written, silent⟩),
    fun pte low high holds => ⟨fun faults => ?_, fun maps => ⟨_, ?_, pageAddr_toNat pte va⟩⟩⟩
  · rw [pageTranslate_entry low high holds, if_pos faults]
  · rw [pageTranslate_entry low high holds, if_neg (by rw [maps]; decide)]

end Sys2Proof.Proofs.LoadStore
end

section
/-! PROOFS. Push and pop (R184, R185, R246), and the unaligned accesses (R54). -/

namespace Sys2Proof.Proofs.Stack
open Sys2Proof Sys2Proof.Machine
open Sys2Proof.Proofs.Executes Sys2Proof.Proofs.Completion Sys2Proof.Proofs.LoadStore

/-! ## What a chain of transfers leaves -/

/-- The two states differ in general registers and memory alone. -/
structure SameRest (s u : State) : Prop where
  active : u.active = s.active
  cfg : u.cfg = s.cfg
  ports : u.ports = s.ports
  cregs : ∀ d n, u.getCr d n = s.getCr d n

theorem SameRest.refl (s : State) : SameRest s s := ⟨rfl, rfl, rfl, fun _ _ => rfl⟩

theorem SameRest.trans {s u v : State} (h : SameRest s u) (k : SameRest u v) : SameRest s v :=
  ⟨k.active.trans h.active, k.cfg.trans h.cfg, k.ports.trans h.ports, fun d n => (k.cregs d n).trans (h.cregs d n)⟩

theorem sameRest_of_push {ptr : RegRef} {n : RegNo} {s u : State} (h : PushesOne ptr n s u) : SameRest s u := by
  obtain ⟨d, pa, rfl, -, rfl⟩ := h
  exact ⟨by simp, by simp, by simp, by simp⟩

theorem sameRest_of_pop {ptr : RegRef} {n : RegNo} {s u : State} (h : PopsOne ptr n s u) : SameRest s u := by
  obtain ⟨w, d, pa, -, -, rfl, rfl⟩ := h
  exact ⟨by simp, by simp, by simp, by simp⟩

theorem mem_of_pop {ptr : RegRef} {n : RegNo} {s u : State} (h : PopsOne ptr n s u) : u.mem = s.mem := by
  obtain ⟨w, d, pa, -, -, rfl, rfl⟩ := h
  simp

/-- A relation that holds from a state to itself, composes, and holds over each transfer, holds over a chain of them. -/
theorem chain_induction {one : RegNo → State → State → Prop} {rel : State → State → Prop} (refl : ∀ s, rel s s)
    (trans : ∀ {s u v : State}, rel s u → rel u v → rel s v)
    (each : ∀ {n : RegNo} {s u : State}, one n s u → rel s u) {ns : List RegNo} {s u : State}
    (h : Chain one ns s u) : rel s u := by
  induction ns generalizing s with
  | nil => cases h; exact refl _
  | cons n ns ih =>
    obtain ⟨v, first, rest⟩ := h
    exact trans (each first) (ih rest)

theorem sameRest_of_pushes {ptr : RegRef} {ns : List RegNo} {s u : State} (h : Chain (PushesOne ptr) ns s u) :
    SameRest s u := chain_induction SameRest.refl SameRest.trans sameRest_of_push h

theorem sameRest_of_pops {ptr : RegRef} {ns : List RegNo} {s u : State} (h : Chain (PopsOne ptr) ns s u) :
    SameRest s u := chain_induction SameRest.refl SameRest.trans sameRest_of_pop h

theorem mem_of_pops {ptr : RegRef} {ns : List RegNo} {s u : State} (h : Chain (PopsOne ptr) ns s u) : u.mem = s.mem :=
  chain_induction (rel := fun s u => u.mem = s.mem) (fun _ => rfl) (fun h k => k.trans h) mem_of_pop h

/-- A chain to the end of the list is done. -/
theorem pushAll_of_chain {ptr : RegRef} {ns : List RegNo} {s u : State} (h : Chain (PushesOne ptr) ns s u) :
    pushAll ptr ns s = .done u := by
  have all := pushAll_chain [] h
  rwa [List.append_nil] at all

theorem popAll_of_chain {ptr : RegRef} {ns : List RegNo} {s u : State} (h : Chain (PopsOne ptr) ns s u) :
    popAll ptr ns s = .done u := by
  have all := popAll_chain [] h
  rwa [List.append_nil] at all

/-! ## Push and pop to the end -/

/-- The completion after an execute step that wrote registers and memory alone. -/
theorem complete_sameRest {s u : State} (rest : SameRest s u) (timerNotOne : s.getCr s.active 13#4 ≠ 1#16) :
    RegsAfter u (u.complete s.active) noReg ∧ CregsKept s (u.complete s.active) [4#4, 5#4, 13#4] ∧
      Counted s (u.complete s.active) ∧ Ended s (u.complete s.active) .completed ∧
      (u.complete s.active).ports = s.ports ∧ (u.complete s.active).active = s.active := by
  have timer : u.getCr s.active 13#4 ≠ 1#16 := by rwa [rest.cregs]
  have kept : CregsKept s u [] := fun d n _ => rest.cregs d n
  refine ⟨regsAfter_congr (regsAfter_refl u) (by simp), cregsKept_complete rest.cfg kept timer (by simp) (by simp),
    counted_complete (rest.cregs _ _) (rest.cregs _ _) (rest.cregs _ _), ended_complete rest.cfg timer, ?_, ?_⟩
  · rw [complete_ports, rest.ports]
  · rw [complete_active timer, rest.active]

theorem exec_psh_of_chain {cond : BitVec 3} {set : Word} {s u : State} (ready : Ready (.psh cond set) s)
    (h : Chain (PushesOne (s.rd 11#4)) (descending set) s u) :
    exec (.psh cond set) s = .next (u.complete s.active) := by
  rw [exec_psh ready, pshEffect, regsOf_reverse_eq_descending, pushAll_of_chain h]
  rfl

theorem exec_pop_of_chain {cond : BitVec 3} {set : Word} {s u : State} (ready : Ready (.pop cond set) s)
    (h : Chain (PopsOne (s.rd 11#4)) (ascending set) s u) :
    exec (.pop cond set) s = .next (u.complete s.active) := by
  rw [exec_pop ready, popEffect, regsOf_eq_ascending, popAll_of_chain h]
  rfl

/-- Settles O26: the machine goes through the chain (`pushAll_chain`) and completes. -/
theorem pshPushesInDescendingOrder : Obligations.PshPushesInDescendingOrder := by
  intro cond set s u ⟨ready, timer⟩ chain
  obtain ⟨regs, cregs, counted, ended, ports, active⟩ := complete_sameRest (sameRest_of_pushes chain) timer
  exact ⟨_, exec_psh_of_chain ready chain, regs, fun a => by rw [complete_mem], cregs, counted, ended, ports, active⟩

/-- Settles O27: the machine goes through the chain (`popAll_chain`), which writes no memory, and completes. -/
theorem popPopsInAscendingOrder : Obligations.PopPopsInAscendingOrder := by
  intro cond set s u ⟨ready, timer⟩ chain
  obtain ⟨regs, cregs, counted, ended, ports, active⟩ := complete_sameRest (sameRest_of_pops chain) timer
  exact ⟨_, exec_pop_of_chain ready chain, regs, cregs, counted, ended,
    ⟨fun a => by rw [complete_mem, mem_of_pops chain], ports, active⟩⟩

/-! ## A transfer that fails -/

/-- The registers left with any value by a `PSH` or `POP` that raises: `PC` and the pointer (R246). -/
def looseStack (s : State) (ptr : RegRef) : CtxId → RegNo → Prop :=
  fun c i => loosePC s c i ∨ (c = ptr.bank ∧ i = ptr.num)

/-- The exception taken where a transfer failed, with the pointer drawn. -/
theorem raises_drawRef {s u : State} (rest : SameRest s u) (ptr : RegRef) (e : Exc) :
    Raises u ((u.drawRef ptr).takeException s.active e) e (looseStack s ptr) := by
  rw [← rest.active]
  refine raises_takeException (by simp [State.drawRef]) (by simp [State.drawRef]) (by simp [State.drawRef])
    (by simp [State.drawRef]) (by simp [State.drawRef]) (fun c i h => ?_) fun _ => .inl ⟨rest.active, rfl⟩
  rw [State.drawRef, getReg_drawReg, if_neg fun w => h (.inr ⟨w.1, w.2.1⟩)]

section
variable {cond : BitVec 3} {set : Word} {s u : State} {before after : List RegNo} {n : RegNo}

/-- `PSH` with the first pushes made answers what the next one does. -/
theorem exec_psh_after (ready : Ready (.psh cond set) s) (split : descending set = before ++ n :: after)
    (chain : Chain (PushesOne (s.rd 11#4)) before s u) :
    exec (.psh cond set) s = finish s.active (pushAll (s.rd 11#4) (n :: after) u) := by
  rw [exec_psh ready, pshEffect, regsOf_reverse_eq_descending, split, pushAll_chain _ chain]

/-- `POP` with the first pops made answers what the next one does. -/
theorem exec_pop_after (ready : Ready (.pop cond set) s) (split : ascending set = before ++ n :: after)
    (chain : Chain (PopsOne (s.rd 11#4)) before s u) :
    exec (.pop cond set) s = finish s.active (popAll (s.rd 11#4) (n :: after) u) := by
  rw [exec_pop ready, popEffect, regsOf_eq_ascending, split, popAll_chain _ chain]

/-- A push whose word cannot be written: the exception, with the earlier pushes made. -/
theorem psh_raises {e : Exc} (ready : Ready (.psh cond set) s) (split : descending set = before ++ n :: after)
    (chain : Chain (PushesOne (s.rd 11#4)) before s u)
    (fails : (u.pointerDown (s.rd 11#4)).wordRaises .write ((u.pointerDown (s.rd 11#4)).getRef (s.rd 11#4)) e) :
    ∃ t, exec (.psh cond set) s = .next t ∧ Raises u t e (looseStack s (s.rd 11#4)) := by
  refine ⟨_, ?_, raises_drawRef (sameRest_of_pushes chain) (s.rd 11#4) e⟩
  rw [exec_psh_after ready split chain, pushAll, State.pushOne, (writeWord_exc _ _ _ e).2 fails]
  rfl

/-- A pop whose word cannot be read: the exception, with the earlier pops made. -/
theorem pop_raises {e : Exc} (ready : Ready (.pop cond set) s) (split : ascending set = before ++ n :: after)
    (chain : Chain (PopsOne (s.rd 11#4)) before s u) (fails : u.wordRaises .read (u.getRef (s.rd 11#4)) e) :
    ∃ t, exec (.pop cond set) s = .next t ∧ Raises u t e (looseStack s (s.rd 11#4)) := by
  refine ⟨_, ?_, raises_drawRef (sameRest_of_pops chain) (s.rd 11#4) e⟩
  rw [exec_pop_after ready split chain, popAll, State.popOne, (readWord_exc _ _ e).2 fails]
  rfl

end

/-- Settles O28: the chain leaves the failing transfer to do, which raises or stops as its word access does. -/
theorem stackExceptionKeepsEarlierTransfers : Obligations.StackExceptionKeepsEarlierTransfers := by
  intro cond set s u d before after n ptr hptr
  subst hptr
  refine ⟨fun ready split chain hd => ?push, fun ready split chain => ?pop⟩
  case push =>
    subst hd
    refine ⟨fun e fails => psh_raises ready split chain fails, fun m stops => ?_⟩
    have access : ∀ w, (u.pointerDown (s.rd 11#4)).writeWord ((u.pointerDown (s.rd 11#4)).getRef (s.rd 11#4)) w =
        .unwritten m := fun w => writeWord_stops w stops
    rw [exec_psh_after ready split chain, pushAll, State.pushOne, access]
    rfl
  case pop =>
    refine ⟨fun e fails => pop_raises ready split chain fails, fun m stops => ?_⟩
    have access : u.readWord (u.getRef (s.rd 11#4)) = .unwritten m := readWord_stops stops
    rw [exec_pop_after ready split chain, popAll, State.popOne, access]
    rfl

/-! ## Odd addresses -/

theorem descending_ne_nil {set : Word} (h : set ≠ 0#16) : descending set ≠ [] := by
  intro empty
  refine h (BitVec.eq_of_getLsbD_eq fun j hj => ?_)
  have absent : BitVec.ofNat 4 j ∉ descending set := by rw [empty]; exact List.not_mem_nil
  have number : (BitVec.ofNat 4 j).toNat = j := by rw [BitVec.toNat_ofNat]; omega
  have listed : ∀ i : RegNo, i ∈ [15#4, 14#4, 13#4, 12#4, 11#4, 10#4, 9#4, 8#4, 7#4, 6#4, 5#4, 4#4, 3#4, 2#4, 1#4, 0#4] := by
    decide
  simpa [descending, List.mem_filter, listed, number] using absent

theorem ascending_eq_reverse (set : Word) : ascending set = (descending set).reverse := by
  rw [descending, ascending, ← List.filter_reverse]
  rfl

/-- A register whose value is odd is not register 0, so it takes what is written to it. -/
theorem getRef_pointerDown {s : State} {ptr : RegRef} (odd : (s.getRef ptr).toNat % 2 = 1) :
    (s.pointerDown ptr).getRef ptr = s.getRef ptr - 2#16 := by
  have notZero : ptr.num ≠ 0#4 := by
    intro h
    rw [State.getRef, h, getReg_zero] at odd
    exact absurd odd (by decide)
  rw [State.pointerDown, State.setRef, State.getRef, getReg_setReg, if_pos ⟨rfl, rfl, notZero⟩]

/-- Settles O24: a load or store at an odd address raises unchanged; a `PSH` or `POP` does so at its first transfer. -/
theorem unalignedAccessRaises : Obligations.UnalignedAccessRaises := by
  intro cond x v set s
  refine ⟨fun ready odd => ?load, fun ready odd => ?store, fun ready nonempty odd => ?push, fun ready nonempty odd => ?pop⟩
  case load =>
    have access := (readWord_exc s (s.effAddr x v) _).2 (.inl ⟨odd, rfl⟩)
    exact raises_unchanged ((exec_ldw ready).trans (by rw [ldwEffect, access, thenDo_of_exc]))
  case store =>
    have access := fun w => (writeWord_exc s (s.effAddr x v) w _).2 (.inl ⟨odd, rfl⟩)
    exact raises_unchanged ((exec_stw ready).trans (by rw [stwEffect, access, thenDo_of_exc]))
  case push =>
    obtain ⟨n, ns, split⟩ := List.exists_cons_of_ne_nil (descending_ne_nil nonempty)
    refine psh_raises (before := []) ready split rfl ?_
    rw [getRef_pointerDown odd]
    exact .inl ⟨by bv_omega, rfl⟩
  case pop =>
    have nonempty' : ascending set ≠ [] := by
      rw [ascending_eq_reverse]
      exact List.reverse_ne_nil_iff.2 (descending_ne_nil nonempty)
    obtain ⟨n, ns, split⟩ := List.exists_cons_of_ne_nil nonempty'
    exact pop_raises (before := []) ready split rfl (.inl ⟨odd, rfl⟩)

/-! ## `POP` after `PSH` -/

theorem chain_append {one : RegNo → State → State → Prop} {xs ys : List RegNo} {s v u : State}
    (h : Chain one xs s v) (k : Chain one ys v u) : Chain one (xs ++ ys) s u := by
  induction xs generalizing s with
  | nil => cases h; exact k
  | cons x xs ih =>
    obtain ⟨w, first, rest⟩ := h
    exact ⟨w, first, ih rest⟩

/-- Context `a` is active, its reads and writes go to the region of `m`, and the bus answers both all over it. -/
structure FlatStack (a : CtxId) (m : Word) (s : State) : Prop where
  active : s.active = a
  readBase : s.getCr a 8#4 = m
  writeBase : s.getCr a 9#4 = m
  mmuOff : m.getLsbD 0 = false
  answers : ∀ va mode, mode ≠ .execute → physMapHas s.cfg.physMap (regionTranslate m va).toNat mode = true

theorem FlatStack.sameRest {a : CtxId} {m : Word} {s u : State} (h : FlatStack a m s) (rest : SameRest s u) :
    FlatStack a m u :=
  ⟨rest.active.trans h.active, (rest.cregs _ _).trans h.readBase, (rest.cregs _ _).trans h.writeBase, h.mmuOff,
    by rw [rest.cfg]; exact h.answers⟩

/-- The second byte of a word at an even address lies in the same region (R58). -/
theorem regionTranslate_succ {va : Word} (m : Word) (even : va.toNat % 2 = 0) :
    regionTranslate m va + 1#24 = regionTranslate m (va + 1#16) := by
  have hva := va.isLt
  have hm := m.isLt
  apply BitVec.eq_of_toNat_eq
  rw [BitVec.toNat_add, Translation.regionTranslate_toNat, Translation.regionTranslate_toNat, BitVec.toNat_add]
  change (_ + 1) % 2 ^ 24 = _ + (_ + 1) % 2 ^ 16
  omega

theorem FlatStack.wordAt {a : CtxId} {m va : Word} {s : State} (h : FlatStack a m s) {mode : AccessMode}
    (hmode : mode ≠ .execute) (even : va.toNat % 2 = 0) : s.wordAt mode va (regionTranslate m va) := by
  have base : s.membase mode = m := by
    cases mode with
    | read => rw [State.membase, h.active]; exact h.readBase
    | write => rw [State.membase, h.active]; exact h.writeBase
    | execute => exact absurd rfl hmode
  refine ⟨even, ?_, h.answers va mode hmode, ?_⟩
  · rw [translate_region (by rw [base]; exact h.mmuOff), base]
  · rw [regionTranslate_succ m even]
    exact h.answers _ mode hmode

/-- Two words at different even addresses of a region have no byte in common. -/
theorem holdsWord_withWord_other {m va va' w w' : Word} {s : State} (even : va.toNat % 2 = 0) (even' : va'.toNat % 2 = 0)
    (ne : va ≠ va') (holds : s.holdsWord (regionTranslate m va) w) :
    (s.withWord (regionTranslate m va') w').holdsWord (regionTranslate m va) w := by
  have ne : va.toNat ≠ va'.toNat := fun h => ne (BitVec.eq_of_toNat_eq h)
  have addr : ∀ v : Word, v.toNat % 2 = 0 →
      (regionTranslate m v).toNat = m.toNat / 256 * 65536 + v.toNat ∧
      (regionTranslate m v + 1#24).toNat = m.toNat / 256 * 65536 + v.toNat + 1 := by
    intro v hv
    refine ⟨Translation.regionTranslate_toNat m v, ?_⟩
    rw [regionTranslate_succ m hv, Translation.regionTranslate_toNat, BitVec.toNat_add]
    have := v.isLt
    change _ + (_ + 1) % 2 ^ 16 = _
    omega
  obtain ⟨low, high⟩ := addr va even
  obtain ⟨low', high'⟩ := addr va' even'
  have kept := memKeptBut_withWord s (regionTranslate m va') w'
  exact ⟨(kept _ (by simp [wordBytes, low, low', high']; omega)).trans holds.1,
    (kept _ (by simp [wordBytes, high, low', high']; omega)).trans holds.2⟩

section
variable {a : CtxId} {m : Word} {n : RegNo} {s : State}

/-- The machine after a push of register `n` onto a flat stack. -/
def pushed (a : CtxId) (m : Word) (s : State) (n : RegNo) : State :=
  (s.setReg a 11#4 (s.getReg a 11#4 - 2#16)).withWord (regionTranslate m (s.getReg a 11#4 - 2#16)) (s.getReg a n)

/-- `R11` is not register 0, so it takes what is written to it. -/
theorem getReg_setReg_sp (s : State) (a c : CtxId) (i : RegNo) (v : Word) :
    (s.setReg a 11#4 v).getReg c i = if c = a ∧ i = 11#4 then v else s.getReg c i := by
  rw [getReg_setReg]
  by_cases h : i = 11#4
  · simp [h]
  · simp [h]

theorem push_flat (flat : FlatStack a m s) (hn : n ≠ 11#4) (even : (s.getReg a 11#4).toNat % 2 = 0) :
    PushesOne ⟨a, 11#4⟩ n s (pushed a m s n) := by
  have down : FlatStack a m (s.setReg a 11#4 (s.getReg a 11#4 - 2#16)) := flat.sameRest ⟨by simp, by simp, by simp, by simp⟩
  have pointer : (s.setReg a 11#4 (s.getReg a 11#4 - 2#16)).getReg a 11#4 = s.getReg a 11#4 - 2#16 := by
    rw [getReg_setReg_sp, if_pos ⟨rfl, rfl⟩]
  have value : (s.setReg a 11#4 (s.getReg a 11#4 - 2#16)).getReg s.active n = s.getReg a n := by
    rw [getReg_setReg_sp, if_neg fun h => hn h.2, flat.active]
  refine ⟨_, regionTranslate m (s.getReg a 11#4 - 2#16), rfl, ?_, ?_⟩
  · rw [pointer]
    exact down.wordAt (by decide) (by bv_omega)
  · rw [setReg_active, value]
    rfl

theorem pop_flat {w : Word} (flat : FlatStack a m s) (hn : n ≠ 11#4) (even : (s.getReg a 11#4).toNat % 2 = 0)
    (holds : s.holdsWord (regionTranslate m (s.getReg a 11#4)) w) :
    PopsOne ⟨a, 11#4⟩ n s ((s.setReg a n w).setReg a 11#4 (s.getReg a 11#4 + 2#16)) := by
  refine ⟨w, _, _, flat.wordAt (by decide) even, holds, by rw [flat.active], ?_⟩
  rw [getReg_setReg, if_neg fun h => hn h.2.1.symm]

/-- One of the `k` words below `sp`. -/
def Slot (sp : Word) (k : Nat) (va : Word) : Prop := ∃ j, 1 ≤ j ∧ j ≤ k ∧ va = sp - BitVec.ofNat 16 (2 * j)

theorem not_slot_succ {sp va : Word} {k : Nat} (h : ¬ Slot sp (k + 1) va) : va ≠ sp - 2#16 ∧ ¬ Slot (sp - 2#16) k va := by
  refine ⟨fun e => h ⟨1, le_refl 1, by omega, e⟩, fun ⟨j, hj, hk, e⟩ => h ⟨j + 1, by omega, by omega, ?_⟩⟩
  rw [e, BitVec.sub_sub, Nat.mul_add, Nat.add_comm, BitVec.ofNat_add]

theorem not_slot_self {sp : Word} {k : Nat} (h : k < 32768) : ¬ Slot sp k sp := by
  rintro ⟨j, hj, hk, e⟩
  have small : (BitVec.ofNat 16 (2 * j)).toNat = 2 * j := by rw [BitVec.toNat_ofNat]; omega
  bv_omega

/-- Popping the pushed registers in the other order, from any state with the memory and the registers of `u`, leads back to
the registers of `s`. -/
def PopsBack (a : CtxId) (m : Word) (ns : List RegNo) (s u : State) : Prop :=
  ∀ v, FlatStack a m v → MemKept u v → (∀ c i, v.getReg c i = u.getReg c i) →
    ∃ w, Chain (PopsOne ⟨a, 11#4⟩) ns.reverse v w ∧ ∀ c i, w.getReg c i = s.getReg c i

end

/-- Pushes onto a flat stack go through, write only the slots below the pointer, and pop back. By induction on the
registers: the later pushes leave the slot of the first alone, so the last pop finds its value there. -/
theorem push_popsBack {a : CtxId} {m : Word} {ns : List RegNo} (noSp : 11#4 ∉ ns) (short : ns.length < 32768) {s : State}
    (flat : FlatStack a m s) (even : (s.getReg a 11#4).toNat % 2 = 0) :
    ∃ u, Chain (PushesOne ⟨a, 11#4⟩) ns s u ∧
      (∀ va w : Word, va.toNat % 2 = 0 → ¬ Slot (s.getReg a 11#4) ns.length va → s.holdsWord (regionTranslate m va) w →
        u.holdsWord (regionTranslate m va) w) ∧
      PopsBack a m ns s u := by
  induction ns generalizing s with
  | nil => exact ⟨s, rfl, fun _ _ _ _ holds => holds, fun v _ _ regs => ⟨v, rfl, regs⟩⟩
  | cons n ns ih =>
    obtain ⟨hn, noSp⟩ : n ≠ 11#4 ∧ 11#4 ∉ ns := by
      simpa [eq_comm] using noSp
    rw [List.length_cons] at short
    have push := push_flat flat hn even
    have flat1 := flat.sameRest (sameRest_of_push push)
    have regs1 : ∀ c i, (pushed a m s n).getReg c i =
        if c = a ∧ i = 11#4 then s.getReg a 11#4 - 2#16 else s.getReg c i := fun c i => by
      rw [pushed, getReg_withWord, getReg_setReg_sp]
    have sp1 : (pushed a m s n).getReg a 11#4 = s.getReg a 11#4 - 2#16 := by rw [regs1, if_pos ⟨rfl, rfl⟩]
    have even1 : (s.getReg a 11#4 - 2#16).toNat % 2 = 0 := by bv_omega
    obtain ⟨u, pushes, slots, back⟩ := ih noSp (by omega) flat1 (by rwa [sp1])
    rw [sp1] at slots
    refine ⟨u, ⟨_, push, pushes⟩, fun va w hva outside holds => ?_, fun v flatV mem regs => ?_⟩
    · obtain ⟨ne, outside⟩ := not_slot_succ outside
      have kept : (s.setReg a 11#4 (s.getReg a 11#4 - 2#16)).holdsWord (regionTranslate m va) w :=
        holdsWord_congr (fun b => by rw [setReg_mem]) holds
      exact slots va w hva outside (holdsWord_withWord_other hva even1 ne kept)
    · obtain ⟨w, pops, regsW⟩ := back v flatV mem regs
      have spW : w.getReg a 11#4 = s.getReg a 11#4 - 2#16 := (regsW _ _).trans sp1
      have holds : w.holdsWord (regionTranslate m (w.getReg a 11#4)) (s.getReg a n) := by
        rw [spW]
        exact holdsWord_congr (fun b => (congrArg (Memory.read · b) (mem_of_pops pops)).trans (mem b))
          (slots _ _ even1 (not_slot_self (by omega)) (holdsWord_withWord _ _ _))
      have pop := pop_flat (flatV.sameRest (sameRest_of_pops pops)) hn (by rwa [spW]) holds
      rw [List.reverse_cons]
      refine ⟨_, chain_append pops ⟨_, pop, rfl⟩, fun c i => ?_⟩
      rw [getReg_setReg_sp, getReg_setReg, spW, BitVec.sub_add_cancel, regsW, regs1]
      by_cases pointer : c = a ∧ i = 11#4
      · rw [if_pos pointer, pointer.1, pointer.2]
      · rw [if_neg pointer, if_neg pointer]
        split
        next h => rw [h.1, h.2.1]
        next => rfl

/-- Settles O29: the machine's pushes and pops are chains, and those of a flat stack pop back (`push_popsBack`). -/
theorem popRestoresWhatPshSaved : Obligations.PopRestoresWhatPshSaved := by
  intro set s t ⟨readyPush, timer⟩ noLatch noSp even sameBase mmuOff answers executes ⟨readyPop, _⟩
  have noSp : 11#4 ∉ descending set := fun h => by
    have : set.getLsbD (11#4).toNat = true := (List.mem_filter.1 h).2
    exact absurd (this.symm.trans noSp) (by decide)
  have short : (descending set).length < 32768 := lt_of_le_of_lt (List.length_filter_le _ _) (by decide)
  have flat : FlatStack s.active (s.getCr s.active 9#4) s := ⟨rfl, sameBase, rfl, mmuOff, answers⟩
  obtain ⟨u, pushes, -, back⟩ := push_popsBack noSp short flat even
  have pointer : ∀ r : State, r.latch = {} → r.rd 11#4 = ⟨r.active, 11#4⟩ := fun r h => by
    simp [State.rd, State.bankOf, h]
  obtain rfl : u.complete s.active = t :=
    Host.Outcome.next.inj ((exec_psh_of_chain readyPush (by rwa [pointer s noLatch])).symm.trans executes)
  have rest := sameRest_of_pushes pushes
  obtain ⟨-, cregs, -, -, -, active⟩ := complete_sameRest rest timer
  have flatT : FlatStack s.active (s.getCr s.active 9#4) (u.complete s.active) :=
    ⟨active, (cregs _ _ (by simp)).trans sameBase, cregs _ _ (by simp), mmuOff,
      by rw [complete_cfg, rest.cfg]; exact answers⟩
  obtain ⟨w, pops, regs⟩ := back _ flatT (fun b => by rw [complete_mem]) (fun c i => getReg_complete ..)
  refine ⟨_, exec_pop_of_chain (u := w) readyPop ?_, regsAfter_congr (regsAfter_refl s) fun c i => ?_⟩
  · rw [ascending_eq_reverse, pointer _ (complete_latch ..), active]
    exact pops
  · rw [getReg_complete, regs]

end Sys2Proof.Proofs.Stack
end

section
/-! PROOFS. Branches and the absolute call (R200 to R202, R204). -/

namespace Sys2Proof.Proofs.Branches
open Sys2Proof Sys2Proof.Machine Sys2Proof.Proofs.Executes Sys2Proof.Proofs.ControlTransfer

theorem regsAfter_bankRegs_none (s : State) : RegsAfter s s (s.bankRegs fun _ => none) := fun c i => by
  simpa [State.bankRegs, noReg] using regsAfter_refl s c i

/-- A jump writes `DPC` and `PC` of the executing context over the registers `f` written before it (R200). -/
theorem regsAfter_jump {s u : State} {f : RegNo → Option Word} (dpc pc : Word) (h : RegsAfter s u (s.bankRegs f)) :
    RegsAfter s ((u.setReg s.active regDPC dpc).setReg s.active regPC pc)
      (s.bankRegs (Function.update (Function.update f regDPC (some dpc)) regPC (some pc))) :=
  regsAfter_setReg_bankRegs regPC pc (regsAfter_setReg_bankRegs regDPC dpc h)

/-- `PC` and `DPC` are different registers, so the order in which they are written does not matter. -/
theorem update_dpc_pc (f : RegNo → Option Word) (dpc pc : Option Word) :
    Function.update (Function.update f regDPC dpc) regPC pc =
      fun i => if i = 15#4 then dpc else if i = 14#4 then pc else f i := by
  rw [Function.update_comm (by decide : regDPC ≠ regPC)]
  funext i
  simp only [Function.update_apply]

/-- Settles O33: `BRA` is a jump to its operands. -/
theorem braWritesDpcAndPc : Obligations.BraWritesDpcAndPc := by
  intro cond x v s ⟨ready, timerNotOne⟩
  have regs := regsAfter_jump (s.getRef (s.rx x)) (s.vy v) (regsAfter_bankRegs_none s)
  rw [update_dpc_pc] at regs
  exact computes_of_done_noflags (exec_bra ready) regs (by simp [State.jumpTo]) (by simp [State.jumpTo])
    (by simp [State.jumpTo]) (by simp [State.jumpTo]) (by simp [State.jumpTo]) timerNotOne

/-- Settles O34: `BRR` writes `PC`, with the target of `relTarget_eq_ofNat`. -/
theorem brrMovesPcByStrides : Obligations.BrrMovesPcByStrides := by
  intro cond imm s ⟨ready, timerNotOne⟩
  rw [← relTarget_eq_ofNat]
  have regs := regsAfter_setReg_bankRegs regPC (s.relTarget imm) (regsAfter_bankRegs_none s)
  have onlyPc : Function.update (fun _ => none) regPC (some (s.relTarget imm)) =
      fun i => if i = 14#4 then some (s.relTarget imm) else none := by
    funext i
    simp only [Function.update_apply]
  rw [onlyPc] at regs
  exact computes_of_done_noflags (exec_brr ready) regs (by simp) (by simp) (by simp) (by simp) (by simp) timerNotOne

/-! ## `FCA` -/

/-- The form that R204 refuses, in the statement's words. -/
theorem linkOperand_iff (s : State) (x : RegNo) (v : Vy) :
    s.linkOperand x v = true ↔ (s.latch.xx = false ∧ (x = 12#4 ∨ x = 13#4)) ∨
      ∃ y, v = .reg y ∧ s.latch.xy = false ∧ (y = 12#4 ∨ y = 13#4) := by
  cases v <;> simp [State.linkOperand, isLink]

theorem fcaEffect_refuses {s : State} {x : RegNo} {v : Vy} (wf : Bool) (h : s.linkOperand x v = true) :
    fcaEffect x v wf s = .refuse (.linkRegisterOperand s) := by rw [fcaEffect, if_pos h]

theorem fcaEffect_calls {s : State} {x : RegNo} {v : Vy} (wf : Bool) (h : s.linkOperand x v = false) :
    fcaEffect x v wf s = .done (s.linked.jumpTo (s.getRef (s.rx x)) (s.vy v)) := by
  rw [fcaEffect, if_neg (by rw [h]; decide)]

/-- Settles O36: `FCA` refuses a link operand and with any other completes. -/
theorem fcaRefusesLinkOperand : Obligations.FcaRefusesLinkOperand := by
  intro cond x v s ready
  rw [← linkOperand_iff, exec_fca ready]
  constructor
  · intro refused
    by_contra h
    rw [fcaEffect_calls _ (by simpa using h)] at refused
    cases refused
  · intro h
    rw [fcaEffect_refuses _ h]
    rfl

/-- An operand in the active bank whose cross-bank mark is off is that bank's register of its number. -/
theorem not_linkOperand {s : State} {x : RegNo} {v : Vy}
    (hx : s.rx x ≠ ⟨s.active, 12#4⟩ ∧ s.rx x ≠ ⟨s.active, 13#4⟩)
    (hy : ∀ y, v = .reg y → s.ry y ≠ ⟨s.active, 12#4⟩ ∧ s.ry y ≠ ⟨s.active, 13#4⟩) : s.linkOperand x v = false := by
  rw [← Bool.not_eq_true, linkOperand_iff]
  rintro (⟨home, rfl | rfl⟩ | ⟨y, rfl, home, rfl | rfl⟩)
  · exact hx.1 (by simp [State.rx, State.bankOf, home])
  · exact hx.2 (by simp [State.rx, State.bankOf, home])
  · exact (hy _ rfl).1 (by simp [State.ry, State.bankOf, home])
  · exact (hy _ rfl).2 (by simp [State.ry, State.bankOf, home])

theorem linked_active (s : State) : s.linked.active = s.active := by simp [State.linked]

/-- The link registers written before the jump (R202). -/
theorem regsAfter_linked (s : State) :
    RegsAfter s s.linked (s.bankRegs fun i =>
      if i = 12#4 then some (s.getReg s.active 14#4) else if i = 13#4 then some (s.getReg s.active 15#4) else none) := by
  have regs := regsAfter_setReg_bankRegs regRA (s.getReg s.active regPC)
    (regsAfter_setReg_bankRegs regRD (s.getReg s.active regDPC) (regsAfter_bankRegs_none s))
  have order : Function.update (Function.update (fun _ => none) regRD (some (s.getReg s.active regDPC))) regRA
      (some (s.getReg s.active regPC)) = fun i =>
        if i = 12#4 then some (s.getReg s.active 14#4) else if i = 13#4 then some (s.getReg s.active 15#4) else none := by
    funext i
    simp only [Function.update_apply]
  rwa [order] at regs

/-- The four registers that `FCA` writes are different, so the order of the writes does not matter. -/
theorem link_jump_order (dpc pc rx v : Option Word) :
    (fun i : RegNo => if i = 15#4 then rx else if i = 14#4 then v else
        if i = 12#4 then pc else if i = 13#4 then dpc else none) =
      fun i => if i = 13#4 then dpc else if i = 12#4 then pc else if i = 15#4 then rx else if i = 14#4 then v else none := by
  funext i
  by_cases h13 : i = 13#4
  · simp [h13]
  · by_cases h12 : i = 12#4
    · simp [h12]
    · simp [h12, h13]

/-- Settles O35: the links are written first and then the jump, to operands read before either. -/
theorem fcaLinksAndBranches : Obligations.FcaLinksAndBranches := by
  intro cond x v s ⟨ready, timerNotOne⟩ hx hy
  have executes := exec_fca ready
  rw [fcaEffect_calls _ (not_linkOperand hx hy), State.jumpTo, linked_active] at executes
  have regs := regsAfter_jump (s.getRef (s.rx x)) (s.vy v) (regsAfter_linked s)
  rw [update_dpc_pc, link_jump_order] at regs
  exact computes_of_done_noflags executes regs (by simp [State.linked]) (by simp [State.linked])
    (by simp [State.linked]) (by simp [State.linked]) (by simp [State.linked]) timerNotOne

end Sys2Proof.Proofs.Branches
end

section
/-! PROOFS. Ports, breakpoint, context swap and no-op (R220 to R226). -/

namespace Sys2Proof.Proofs.PortsAndSystem
open Sys2Proof Sys2Proof.Machine Sys2Proof.Proofs.Executes Sys2Proof.Proofs.Completion

/-! ## Ports -/

/-- A port access whose execute step is done at `u` but for its flags, run to completion. -/
theorem completes_of_done {s u : State} {cond : BitVec 3} {regs : CtxId → RegNo → Option Word} (w : FlagWrite)
    (hregs : RegsAfter s u regs) (hcr : ∀ d n, u.getCr d n = s.getCr d n) (hcfg : u.cfg = s.cfg)
    (timerNotOne : s.getCr s.active 13#4 ≠ 1#16) :
    Completes s ((u.writeFlags s.active (s.writeBack cond) w).complete s.active) cond regs w :=
  completes_of_complete (by rw [writeFlags_cfg, hcfg]) (regsAfter_congr hregs (by simp))
    (flagsAfter_writeFlags cond w (hcr _ _)) (cregsKept_writeFlags _ w hcfg hcr) timerNotOne

/-- The rest of the state after such a completion. -/
theorem rest_of_done {s u : State} (wf : Bool) (w : FlagWrite) (hcr : ∀ d n, u.getCr d n = s.getCr d n)
    (timerNotOne : s.getCr s.active 13#4 ≠ 1#16) :
    MemKept u ((u.writeFlags s.active wf w).complete s.active) ∧
      ((u.writeFlags s.active wf w).complete s.active).active = u.active ∧
      ((u.writeFlags s.active wf w).complete s.active).ports = u.ports := by
  have timer : (u.writeFlags s.active wf w).getCr s.active crTimer ≠ 1#16 := by
    rw [getCr_writeFlags_ne _ _ _ _ _ (by decide), hcr]
    exact timerNotOne
  exact ⟨fun a => by simp, by rw [complete_active timer, writeFlags_active], by simp⟩

theorem rdbEffect_answered {s : State} {p : PortNo} {b : Byte} (x : RegNo) (wf : Bool) (h : s.portAnswer p = some b) :
    rdbEffect x p wf s =
      .done (((s.portReadDone p).setRef (s.rx x) (widened s.cfg.byteExt b)).writeFlags s.active wf
        { resultFlags (widened s.cfg.byteExt b) with c := some false }) := by
  simp only [rdbEffect, h, widenByte_eq, okResult_flags]

theorem rdbEffect_failed {s : State} {p : PortNo} (x : RegNo) (wf : Bool) (h : s.portAnswer p = none) :
    rdbEffect x p wf s =
      .done (((s.portReadDone p).drawRef (s.rx x)).drawn.writeFlags s.active wf
        (failFlags ((s.portReadDone p).drawRef (s.rx x)).freeWord)) := by
  simp only [rdbEffect, h]

/-- Settles O38: with a byte `Rx` and the flags are those of the widened byte, without one they are drawn. -/
theorem rdbReadsPort : Obligations.RdbReadsPort := by
  intro cond x p s ⟨ready, timerNotOne⟩
  have executes := exec_rdb ready
  cases answer : s.portAnswer p with
  | some b =>
    rw [rdbEffect_answered x _ answer] at executes
    have hcr : ∀ d n, ((s.portReadDone p).setRef (s.rx x) (widened s.cfg.byteExt b)).getCr d n = s.getCr d n := by
      simp [State.setRef]
    obtain ⟨mem, active, ports⟩ := rest_of_done (s.writeBack cond) _ hcr timerNotOne
    refine ⟨_, executes, fun a => (mem a).trans (by simp [State.setRef]), active.trans (by simp [State.setRef]), ?_, ?_, ?_⟩
    · rw [ports, State.setRef, setReg_ports, ← answer]
      rfl
    · rintro _ ⟨⟩
      exact completes_of_done _ (regsAfter_setRef (s.portReadDone p) _ _) hcr (by simp [State.setRef]) timerNotOne
    · rintro ⟨⟩
  | none =>
    rw [rdbEffect_failed x _ answer] at executes
    have hcr : ∀ d n, ((s.portReadDone p).drawRef (s.rx x)).drawn.getCr d n = s.getCr d n := by
      simp [State.drawRef]
    obtain ⟨mem, active, ports⟩ := rest_of_done (s.writeBack cond) _ hcr timerNotOne
    refine ⟨_, executes, fun a => (mem a).trans (by simp [State.drawRef]), active.trans (by simp [State.drawRef]), ?_, ?_, ?_⟩
    · rw [ports, drawn_ports, State.drawRef, drawReg_ports, ← answer]
      rfl
    · rintro _ ⟨⟩
    · intro _
      have regs := regsAfter_drawRef (s.portReadDone p) (s.rx x)
      exact ⟨_, _, _, _, completes_of_done _ (regsAfter_congr regs fun c i => getReg_drawn ..) hcr
        (by simp [State.drawRef]) timerNotOne⟩

/-- Settles O39: the access is recorded with the low byte, and the write-back lists `CF` alone. -/
theorem wrbWritesPort : Obligations.WrbWritesPort := by
  intro cond p v s b ⟨ready, timerNotOne⟩ hb
  rw [← Machine.loByte_eq] at hb
  subst hb
  have hcr : ∀ d n, (s.portWriteDone p (loByte (s.vy v))).getCr d n = s.getCr d n := by simp
  obtain ⟨mem, active, ports⟩ := rest_of_done (s.writeBack cond)
    (carryOnly (!s.portAccepts p (loByte (s.vy v)))) hcr timerNotOne
  exact ⟨_, exec_wrb ready, mem, active, ports,
    completes_of_done _ (regsAfter_congr (regsAfter_refl s) (by simp)) hcr rfl timerNotOne⟩

/-! ## System instructions -/

/-- Settles O40: without a debugger `BPT` only completes; with one its step is over with nothing done, and `step` there
is the fault. -/
theorem bptStopsOnlyForDebugger : Obligations.BptStopsOnlyForDebugger := by
  intro cond s
  refine ⟨fun ⟨ready, timerNotOne⟩ alone => ?_, fun ready attached => ?_⟩
  · have executes := exec_bpt ready
    rw [bptEffect, if_neg (by rw [alone]; decide)] at executes
    exact computes_of_done_noflags executes (regsAfter_refl s) (fun _ _ => rfl) rfl rfl rfl rfl timerNotOne
  · have executes := exec_bpt ready
    rw [bptEffect, if_pos attached] at executes
    exact ⟨_, executes, regsAfter_congr (regsAfter_refl s) fun c i => getReg_endStep .., fun d n _ => getCr_endStep ..,
      ⟨fun _ => rfl, rfl, rfl⟩, ⟨rfl, rfl, rfl⟩, rfl⟩

/-- Settles O41: the swap changes the active context alone, and completion is that of the context that executed it. -/
theorem hltSwapsContexts : Obligations.HltSwapsContexts := by
  intro cond s ⟨ready, timerNotOne⟩
  have timer : s.swapContexts.getCr s.active crTimer ≠ 1#16 := by
    rw [getCr_swapContexts]
    exact timerNotOne
  refine ⟨_, exec_hlt ready, ?_, completes_of_complete rfl
    (regsAfter_congr (regsAfter_refl s) fun c i => getReg_swapContexts ..) (flagsAfter_same cond (getCr_swapContexts ..))
    (fun d n _ => getCr_swapContexts ..) timerNotOne, fun a => by rw [complete_mem, swapContexts_mem],
    by rw [complete_ports, swapContexts_ports]⟩
  rw [complete_active timer, swapContexts_active]
  exact CtxId.other_ne _

/-- Settles O42: `NOP` only completes. -/
theorem nopOnlyCompletes : Obligations.NopOnlyCompletes := by
  intro cond s ⟨ready, timerNotOne⟩
  exact computes_of_done_noflags (exec_nop ready) (regsAfter_refl s) (fun _ _ => rfl) rfl rfl rfl rfl timerNotOne

end Sys2Proof.Proofs.PortsAndSystem
end

section
/-! PROOFS. Operands, conditions and the checks around an instruction, and the expiry of the timer (R110 to R123, R245). -/

namespace Sys2Proof.Proofs.Checks
open Sys2Proof Sys2Proof.Machine Sys2Proof.Proofs.Executes Sys2Proof.Proofs.Completion

/-! ## What is noted and how operands resolve -/

theorem withDr_first {l : Latch} (d : RegNo) (h : l.rd = none) : l.withDr d = { l with rd := some d } := by
  simp only [Latch.withDr, h]

theorem withDr_second {l : Latch} (d : RegNo) (h : l.rd ≠ none) (hx : l.rdx = none) :
    l.withDr d = { l with rdx := some d } := by
  obtain ⟨e, he⟩ := Option.ne_none_iff_exists'.1 h
  simp only [Latch.withDr, he, hx]

theorem withDr_third {l : Latch} (d : RegNo) (h : l.rd ≠ none) (hx : l.rdx ≠ none) :
    l.withDr d = { l with extraDr := true } := by
  obtain ⟨e, he⟩ := Option.ne_none_iff_exists'.1 h
  obtain ⟨f, hf⟩ := Option.ne_none_iff_exists'.1 hx
  simp only [Latch.withDr, he, hf]

/-- Settles O43: five of the rows set or toggle their mark, `DR` notes what `withDr` says. -/
theorem prefixesAreNoted : Obligations.PrefixesAreNoted := by
  intro s d
  have dr : exec (.dr d) s = .next (s.setLatch (s.latch.withDr d)) := rfl
  exact ⟨rfl, rfl, rfl, rfl, rfl, fun h => by rw [dr, withDr_first d h], fun h hx => by rw [dr, withDr_second d h hx],
    fun h hx => by rw [dr, withDr_third d h hx]⟩

theorem effAddr_rx {s : State} (x : RegNo) (v : Vy) (h : s.cfg.memBase = .rx) :
    s.effAddr x v = s.getReg (s.rd x).bank (s.rd x).num + s.vy v := by
  simp only [State.effAddr, State.baseDefault, h, State.getRef]

theorem effAddr_zero {s : State} (x : RegNo) (v : Vy) (h : s.cfg.memBase = .zero) :
    s.effAddr x v = s.getReg (s.rd 0#4).bank (s.rd 0#4).num + s.vy v := by
  simp only [State.effAddr, State.baseDefault, h, State.getRef]

/-- Settles O45: each operand by its definition, the optional numbers by whether a `DR` has named them. -/
theorem operandsResolve : Obligations.OperandsResolve := by
  intro s x y dflt w
  refine ⟨rfl, rfl, rfl, rfl, fun h => ?_, fun d h => ?_, fun h => ?_, fun d h => ?_, rfl, rfl,
    fun h v => effAddr_rx x v h, fun h v => effAddr_zero x v h⟩
  · rw [State.rd, h]
    rfl
  · rw [State.rd, h]
    rfl
  · rw [State.rdx, h]
    rfl
  · rw [State.rdx, h]
    rfl

/-! ## Conditions -/

theorem condOn_eq {s : State} {xc : Bool} (h : s.latch.xc = xc) (cond : BitVec 3) :
    s.condOn cond = condHolds (condCode xc cond) (s.getCr s.active 15#4) := by
  rw [State.condOn, h]
  rfl

/-- The codes compare the operands, once `ZF`, `CF` and `SF` against `VF` do (R118). -/
theorem conditions_compare {a b f : Word} (zero : zfOf f = decide (a = b)) (carry : cfOf f = decide (b.toNat ≤ a.toNat))
    (less : (sfOf f != vfOf f) = decide (a.toInt < b.toInt)) {holds : BitVec 4 → Bool}
    (h : holds = fun code => condHolds code f) :
    (holds 0#4 = true ↔ a = b) ∧ (holds 1#4 = true ↔ a ≠ b) ∧ (holds 2#4 = true ↔ b.toNat < a.toNat) ∧
    (holds 3#4 = true ↔ a.toNat ≤ b.toNat) ∧ (holds 4#4 = true ↔ a.toNat < b.toNat) ∧
    (holds 5#4 = true ↔ b.toNat ≤ a.toNat) ∧ (holds 10#4 = true ↔ b.toInt < a.toInt) ∧
    (holds 11#4 = true ↔ a.toInt ≤ b.toInt) ∧ (holds 12#4 = true ↔ a.toInt < b.toInt) ∧
    (holds 13#4 = true ↔ b.toInt ≤ a.toInt) := by
  subst h
  have same : (sfOf f == vfOf f) = !decide (a.toInt < b.toInt) := by rw [← less, bne, Bool.not_not]
  have eqNat : a = b ↔ a.toNat = b.toNat := BitVec.toNat_inj.symm
  have eqInt : a = b ↔ a.toInt = b.toInt := BitVec.toInt_inj.symm
  refine ⟨?eq, ?ne, ?bg, ?se, ?sm, ?be, ?gt, ?le, ?lt, ?ge⟩
  case eq =>
    change zfOf f = true ↔ _
    rw [zero, decide_eq_true_eq]
  case ne =>
    change (!zfOf f) = true ↔ _
    simp [zero]
  case bg =>
    change (cfOf f && !zfOf f) = true ↔ _
    simp [zero, carry, eqNat]
    omega
  case se =>
    change (!cfOf f || zfOf f) = true ↔ _
    simp [zero, carry, eqNat]
    omega
  case sm =>
    change (!cfOf f) = true ↔ _
    simp [carry]
  case be =>
    change cfOf f = true ↔ _
    rw [carry, decide_eq_true_eq]
  case gt =>
    change (!zfOf f && (sfOf f == vfOf f)) = true ↔ _
    simp [zero, same, eqInt]
    omega
  case le =>
    change (zfOf f || (sfOf f != vfOf f)) = true ↔ _
    simp [zero, less, eqInt]
    omega
  case lt =>
    change (sfOf f != vfOf f) = true ↔ _
    rw [less, decide_eq_true_eq]
  case ge =>
    change (sfOf f == vfOf f) = true ↔ _
    simp [same]

/-- The sign of a difference, corrected by its signed overflow, is the signed order of the operands (R23). -/
theorem diff_less (a b : Word) :
    (decide (2 ^ 16 ≤ 2 * (a - b).toNat) != signedOverflow (a.toInt - b.toInt)) = decide (a.toInt < b.toInt) := by
  have := a.isLt
  have := b.isLt
  have ha := toInt_cases a
  have hb := toInt_cases b
  rw [BitVec.toNat_sub, signedOverflow, Bool.eq_iff_iff]
  simp only [bne_iff_ne, ne_eq, decide_eq_decide, decide_eq_true_eq]
  omega

theorem diff_zero (a b : Word) : decide ((a - b).toNat = 0) = decide (a = b) := by
  rw [decide_eq_decide]
  bv_omega

/-- The flags that an unconditional `CMP` or `SUB` leaves. -/
theorem flags_of_difference {i : Instr} {x : RegNo} {v : Vy} {s t : State} (hi : i = .cmp 7#3 x v ∨ i = .sub 7#3 x v)
    (runs : Runs i s) (executes : exec i s = .next t) :
    FlagsAfter s t 7#3 (diffFlags (s.getRef (s.rx x)) (s.vy v)) := by
  rcases hi with rfl | rfl
  · obtain ⟨t', executes', completes, -⟩ := Arithmetic.cmpWritesFlagsOnly 7#3 x v s runs
    obtain rfl : t' = t := Host.Outcome.next.inj (executes'.symm.trans executes)
    exact completes.flags
  · obtain ⟨t', executes', completes, -⟩ := ArithmeticLogic.subWritesDifferenceAndFlags 7#3 x v s runs
    obtain rfl : t' = t := Host.Outcome.next.inj (executes'.symm.trans executes)
    exact completes.flags

/-- Settles O46: the table by its definition; after a difference the flags are those of `diffFlags`, and their formulas
are the comparisons. -/
theorem conditionsHoldAsTabulated : Obligations.ConditionsHoldAsTabulated := by
  refine ⟨fun s cond f hf => ?table, fun i x v s t a b hi runs noTf noXc ha hb executes holds hholds => ?compare⟩
  case table =>
    subst hf
    constructor <;> intro xc
    · refine ⟨?_, ?_, ?_, ?_, ?_, ?_, ?_⟩ <;> (rintro rfl; exact condOn_eq xc _)
    · refine ⟨?_, ?_, ?_, ?_, ?_, ?_, ?_, ?_⟩ <;> (rintro rfl; exact condOn_eq xc _)
  case compare =>
    subst ha hb
    have on : s.writesFlags 7#3 := by simp [State.writesFlags, noTf, noXc]
    obtain ⟨zero, sign, -, carry, overflow, -⟩ := (flags_of_difference hi runs executes).1 on
    refine conditions_compare (zero.trans (diff_zero _ _)) carry ?_ hholds
    rw [sign, overflow]
    exact diff_less _ _

/-! ## The checks before the execute step -/

/-- Settles O47: every opcode row is run by `runInsn`, which then only completes. -/
theorem falseConditionOnlyCompletes : Obligations.FalseConditionOnlyCompletes := by
  intro i r s hrow xregs opcode fit off timerNotOne
  obtain ⟨sh, body, hr, executes⟩ := exec_shape hrow
  rw [hr] at fit opcode
  have done := (executes s).trans (runInsn_of_false body xregs opcode fit off)
  exact computes_of_done_noflags done (regsAfter_refl s) (fun _ _ => rfl) rfl rfl rfl rfl timerNotOne

/-- Settles O48: the deny checks come first in `runInsn`, whatever the condition. -/
theorem deniedInstructionRaises : Obligations.DeniedInstructionRaises := by
  intro i r s hrow denied
  obtain ⟨sh, body, hr, executes⟩ := exec_shape hrow
  rw [hr] at denied
  exact raises_unchanged ((executes s).trans (runInsn_of_denied body denied))

/-- Settles O49: after the deny checks `runInsn` refuses what does not fit, before it looks at the condition. -/
theorem misplacedPrefixIsRefused : Obligations.MisplacedPrefixIsRefused := by
  intro i r s hrow xregs opcode misfit
  obtain ⟨sh, body, hr, executes⟩ := exec_shape hrow
  rw [hr] at misfit opcode
  exact (executes s).trans (runInsn_of_misfit body xregs opcode misfit)

/-! ## The expiry of the timer -/

/-- What a completion that takes `TIMER` from 1 to 0 leaves, where the execute step left registers `regs` and flags
`flags` and wrote no other control register than those of `written`, none of them a count or the timer. -/
structure ExpiresWith (s t : State) (cond : BitVec 3) (regs : CtxId → RegNo → Option Word) (flags : FlagWrite)
    (all : List CRegNo) : Prop where
  regs : RegsAfter s t regs
  flags : FlagsAfter s t cond flags
  counted : Counted s t
  mem : MemKept s t
  ports : t.ports = s.ports
  cregs : CregsKept s t all
  ended : Ended s t (.exception .timer)
  info : InfoRecords (t.getCr s.active 11#4) s.cfg.excCodes .timer

theorem expiresWith_complete {s u : State} {cond : BitVec 3} {regs : CtxId → RegNo → Option Word} {flags : FlagWrite}
    {written all : List CRegNo} (one : s.getCr s.active 13#4 = 1#16) (hregs : RegsAfter s u regs)
    (hflags : FlagsAfter s u cond flags) (kept : CregsKept s u written)
    (hwritten : ∀ n ∈ [4#4, 5#4, 13#4], n ∉ written) (hw : written ⊆ all) (hall : WholeMachine.hardwareCregs ⊆ all)
    (hcfg : u.cfg = s.cfg) (hmem : u.mem = s.mem) (hports : u.ports = s.ports) :
    ExpiresWith s (u.complete s.active) cond regs flags all := by
  have same : ∀ n ∈ [4#4, 5#4, 13#4], u.getCr s.active n = s.getCr s.active n := fun n hn =>
    kept _ n fun w => hwritten n hn w.1
  have timer : u.getCr s.active 13#4 = 1#16 := (same _ (by simp)).trans one
  exact ⟨regsAfter_congr hregs (by simp), flagsAfter_congr (getCr_complete_flags ..) hflags,
    counted_complete (same _ (by simp)) (same _ (by simp)) (same _ (by simp)),
    fun a => by rw [complete_mem, hmem], by rw [complete_ports, hports],
    cregsKept_complete_any hcfg kept hw hall, ended_of_expiry timer hcfg, infoRecords_of_expiry timer hcfg⟩

/-- An `RDC` of `TIMER` reads the 1 that its own completion then counts down (R123). -/
theorem rdcTimer_expires {cond : BitVec 3} {x : RegNo} {s : State} (ready : Ready (.rdc cond x 13#4) s)
    (one : s.getCr s.active 13#4 = 1#16) (allowed : (s.getCr s.active 0#4).getLsbD 13 = false)
    (answers : s.cfg.cregFailRead.getLsbD 13 = false) :
    ∃ t, exec (.rdc cond x 13#4) s = .next t ∧ t.active = activeAfterExc s ∧
      ExpiresWith s t cond (oneReg (s.rx x) 1#16) { resultFlags (1#16) with c := some false }
        [4#4, 5#4, 11#4, 12#4, 13#4, 15#4] := by
  have executes := exec_rdc ready
  rw [rdcEffect_reads x _ allowed answers (by decide), one, okResult_flags] at executes
  have hcr : ∀ d n, (s.setRef (s.rx x) 1#16).getCr d n = s.getCr d n := by simp [State.setRef]
  refine ⟨_, executes, ?_, expiresWith_complete one
    (regsAfter_congr (regsAfter_setRef s _ _) (by simp)) (flagsAfter_writeFlags cond _ (hcr _ _))
    (cregsKept_writeFlags _ _ (by simp [State.setRef]) hcr) (by decide) (by simp) (by decide) (by simp [State.setRef])
    (by simp [State.setRef]) (by simp [State.setRef])⟩
  rw [active_of_expiry]
  · simp [activeAfterExc, State.setRef]
  · rw [getCr_writeFlags_ne _ _ _ _ _ (by decide), hcr, one]

/-- An instruction that changes at most which context is active, completing at `TIMER` 1. -/
theorem idle_expires {s u : State} {cond : BitVec 3} (one : s.getCr s.active 13#4 = 1#16)
    (hregs : ∀ c i, u.getReg c i = s.getReg c i) (hcr : ∀ d n, u.getCr d n = s.getCr d n) (hcfg : u.cfg = s.cfg)
    (hmem : u.mem = s.mem) (hports : u.ports = s.ports) :
    ExpiresWith s (u.complete s.active) cond noReg {} [4#4, 5#4, 11#4, 12#4, 13#4] :=
  expiresWith_complete one (regsAfter_congr (regsAfter_refl s) hregs) (flagsAfter_same cond (hcr _ _))
    (written := []) (fun d n _ => hcr d n) (by simp) (by simp) (by decide) hcfg hmem hports

theorem nop_active_of_expiry {s : State} (one : s.getCr s.active 13#4 = 1#16) :
    (s.complete s.active).active = s.active ↔ s.cfg.excAction = .stop := by
  rw [active_of_expiry one, activeAfterExc]
  cases s.cfg.excAction <;> simp

theorem hlt_active_of_expiry {s : State} (one : s.getCr s.active 13#4 = 1#16) :
    (s.swapContexts.complete s.active).active = s.active ↔ s.cfg.excAction ≠ .stop := by
  rw [active_of_expiry ((getCr_swapContexts ..).trans one), activeAfterExc]
  cases h : s.cfg.excAction <;> simp [h]

/-- Settles O50: `exec_at_timer` compares the execute steps at `TIMER` 1 and 2, `complete_expires` their completions; the
outright clauses are `rdcTimer_expires` and `idle_expires`. -/
theorem timerExpiryIsPrecise : Obligations.TimerExpiryIsPrecise := by
  refine ⟨fun i r s u hrow one notTimer executes completed => ?compared, fun cond x s ready one allowed answers => ?rdc,
    fun i cond s hi ready one => ?idle⟩
  case compared =>
    obtain ⟨t, executes', rfl, timer⟩ := exec_at_timer s 2#16 hrow notTimer executes completed
    refine ⟨_, executes', complete_expires ?_ (timer.trans one)⟩
    rw [← exec_cfg executes', complete_cfg]
  case rdc =>
    obtain ⟨t, executes, active, e⟩ := rdcTimer_expires ready one allowed answers
    exact ⟨t, executes, e.regs, e.flags, e.counted, e.mem, e.ports, e.cregs, e.ended, e.info, active⟩
  case idle =>
    rcases hi with rfl | rfl
    · have e := idle_expires (u := s) (cond := cond) one (fun _ _ => rfl) (fun _ _ => rfl) rfl rfl rfl
      refine ⟨_, exec_nop ready, e.regs, e.mem, e.ports, e.cregs, e.counted, e.ended, e.info, ?_⟩
      rw [nop_active_of_expiry one]
      simp
    · have e := idle_expires (u := s.swapContexts) (cond := cond) one (fun _ _ => getReg_swapContexts ..)
        (fun _ _ => getCr_swapContexts ..) rfl rfl rfl
      refine ⟨_, exec_hlt ready, e.regs, e.mem, e.ports, e.cregs, e.counted, e.ended, e.info, ?_⟩
      rw [hlt_active_of_expiry one]
      simp

end Sys2Proof.Proofs.Checks
end

section
/-! PROOFS. What a step fetches and runs: prefixes, an opcode row, and a fetch cut short (R80, R83, R110 to R113, R242). -/

namespace Sys2Proof.Proofs.StepCycle
open Sys2Proof Sys2Proof.Machine Sys2Proof.Proofs.WholeMachine Sys2Proof.Proofs.Encoding

/-! ## The machine after part of a fetch -/

section
variable (s : State) (n m : Nat) (l : Latch)

theorem advanced_fetched : (s.fetched n l).advanced m = s.fetched (n + m) l := by
  rw [fetched_eq, fetched_eq, setLatch_advanced, advanced_advanced]

/-- `PC` is past the bytes fetched (R18). -/
theorem pc_fetched : (s.fetched n l).getReg (s.fetched n l).active 14#4 =
    s.getReg s.active 14#4 + BitVec.ofNat 16 n * (1#16 + s.getReg s.active 15#4) := by
  simp [State.fetched, getReg_setReg]

/-- `INSN_ADDR` holds the address of the first byte (R41). -/
theorem insnAddr_fetched : (s.fetched n l).getCr s.active 14#4 = s.getReg s.active 14#4 := by
  simp [State.fetched]

theorem membase_fetched (mode : AccessMode) : (s.fetched n l).membase mode = s.membase mode := by
  have noMembase : ∀ k : CRegNo, k ≠ crInsnAddr → (s.fetched n l).getCr s.active k = s.getCr s.active k :=
    fun k h => getCr_fetched n l fun w => h w.2
  cases mode <;> exact (congrArg (fun c => (s.fetched n l).getCr c _) (fetched_active s n l)).trans
    (noMembase _ (by decide))

theorem translate_fetched (va : Word) (mode : AccessMode) :
    (s.fetched n l).translate va mode = s.translate va mode :=
  translate_congr (fetched_mem s n l) (fetched_cfg s n l) (membase_fetched s n l) va mode

theorem codeAt_fetched (va : Word) (bs : List Byte) : (s.fetched n l).codeAt va bs ↔ s.codeAt va bs := by
  rw [fetched_eq, codeAt_setLatch, codeAt_advanced, codeAt_begin]

/-- The next code byte is read at the address that the stride gives it, through the mapping of before (R111). -/
theorem codeByte_fetched {va : Word}
    (hva : va = s.getReg s.active 14#4 + BitVec.ofNat 16 n * (1#16 + s.getReg s.active 15#4)) :
    (s.fetched n l).codeByte = (s.translate va .execute).andThen fun pa => s.physRead .execute .execute va pa := by
  subst hva
  simp only [State.codeByte, show regPC = 14#4 from rfl, pc_fetched, translate_fetched,
    physRead_congr (fetched_mem s n l) (fetched_cfg s n l)]

end

/-! ## A run of prefixes -/

/-- A run of prefixes that an instruction can have: `XC` at most as the last (R83), and no more than the fetch can pass
before it is back at its first byte (assumption log entry 16). -/
structure PrefixRun (ps : List Instr) : Prop where
  short : ps.length ≤ 65536
  prefixes : ∀ p ∈ ps, p.isPrefix = true
  xcLast : ∀ p ∈ ps.dropLast, p ≠ .xc

theorem PrefixRun.nil : PrefixRun [] := ⟨by simp, by simp, by simp⟩

theorem PrefixRun.take {ps : List Instr} (run : PrefixRun ps) (n : Nat) : PrefixRun (ps.take n) where
  short := (List.length_take_le' n ps).trans run.short
  prefixes := fun p h => run.prefixes p (List.mem_of_mem_take h)
  xcLast := fun p h => run.xcLast p (List.mem_of_mem_take (by rwa [List.dropLast_take_eq_take_dropLast] at h))

/-- Every prefix is one byte (R93). -/
theorem PrefixRun.length_bytes {ps : List Instr} (run : PrefixRun ps) (k : ImmLen) :
    (ps.flatMap (encode k)).length = ps.length := by
  have oneByte : ∀ p ∈ ps, (encode k p).length = 1 := by
    intro p h
    have hp := run.prefixes p h
    cases p with
    | xc | tf | xx | xy | xz | dr d => rfl
    | _ => cases hp
  rw [List.length_flatMap, List.map_congr_left oneByte]
  simp

/-- A step whose first bytes are a run of prefixes comes to the row after them with what they noted. -/
theorem step_after_prefixes {s : State} {ps : List Instr} (free : s.ended ≠ .breakpoint) (run : PrefixRun ps)
    (code : s.codeAt (s.getReg s.active 14#4) (ps.flatMap (encode s.cfg.wrbImm))) :
    ∃ k, step s = runRows (k + 1) (s.fetched (ps.flatMap (encode s.cfg.wrbImm)).length (notedPrefixes ps)) := by
  have rows : maxRows = (65536 - ps.length + 1) + ps.length := by have := run.short; unfold maxRows; omega
  have cfg : s.begin.cfg = s.cfg := by simp [State.begin]
  have latch : s.begin.latch = {} := rfl
  refine ⟨65536 - ps.length, ?_⟩
  rw [step_of_not_breakpoint free, rows, runRows_prefixes _ run.prefixes run.xcLast (by rw [latch]), cfg, latch,
    foldl_note run.prefixes, fetched_eq]
  rwa [cfg, begin_pc, codeAt_begin]

/-! ## A whole instruction -/

/-- A step runs the opcode row that stands after a run of prefixes, with what they noted. -/
theorem step_runs {s : State} {ps : List Instr} {i : Instr} {row : List Byte} (free : s.ended ≠ .breakpoint)
    (run : PrefixRun ps) (hd : decode s.cfg.wrbImm (ps.contains .xc) row = .ok (i, [])) (hi : i.isPrefix = false)
    (code : s.codeAt (s.getReg s.active 14#4) (ps.flatMap (encode s.cfg.wrbImm) ++ row)) :
    step s = exec i (s.fetched (ps.flatMap (encode s.cfg.wrbImm) ++ row).length (notedPrefixes ps)) := by
  obtain ⟨before, here⟩ := (codeAt_append ..).1 code
  obtain ⟨k, hk⟩ := step_after_prefixes free run before
  rw [hk, runRows_opcode (by rw [fetched_cfg]; exact hd) (by rwa [pc_fetched, codeAt_fetched]) hi, advanced_fetched,
    List.length_append]

/-- Settles O51: an instruction without prefixes. -/
theorem stepRunsDecodedInstruction : Obligations.StepRunsDecodedInstruction := by
  intro s i bs free hd hi code
  have h := step_runs (row := bs) free PrefixRun.nil hd hi code
  rwa [List.flatMap_nil, List.nil_append, show notedPrefixes [] = {} from rfl] at h

/-- Settles O52: the decoder gives the row back from its encoding. -/
theorem stepRunsPrefixedInstruction : Obligations.StepRunsPrefixedInstruction := by
  rintro s ps i _ free short prefixes xcLast hi wf rfl code
  have hd := decodeOfEncodeIsIdentity s.cfg.wrbImm i (ps.contains .xc) [] wf
  rw [List.append_nil] at hd
  exact step_runs free ⟨short, prefixes, xcLast⟩ hd hi code

/-! ## The reserved prefixes -/

theorem decodePrefix_reserved : ∀ b : Byte, 0xC5 ≤ b.toNat → b.toNat ≤ 0xCF → isPrefixByte b = true ∧
    (decodePrefix b = .reservedC5 ∨ decodePrefix b = .reservedC6 (b.extractLsb' 0 1) ∨
      decodePrefix b = .reservedC8 (b.extractLsb' 0 3)) := by decide

theorem exec_reserved {i : Instr} {p : BitVec 1} {q : BitVec 3} (s : State)
    (h : i = .reservedC5 ∨ i = .reservedC6 p ∨ i = .reservedC8 q) :
    i.isPrefix = false ∧ exec i s = .fault (.reservedPrefix s) := by
  rcases h with rfl | rfl | rfl <;> exact ⟨rfl, rfl⟩

/-- Settles O44: a reserved prefix ends the run of prefixes as an opcode row would. -/
theorem reservedPrefixFaults : Obligations.ReservedPrefixFaults := by
  refine ⟨fun _ _ _ => ⟨rfl, rfl, rfl⟩, ?_⟩
  rintro s ps b _ free short prefixes low high rfl code
  have run : PrefixRun ps :=
    ⟨short, fun p h => (prefixes p h).1, fun p h => (prefixes p (List.dropLast_subset ps h)).2⟩
  have noXc : ps.contains .xc = false := by
    simpa using fun h => (prefixes .xc h).2 rfl
  obtain ⟨isPrefixByte, reserved⟩ := decodePrefix_reserved b low high
  have hd : decode s.cfg.wrbImm (ps.contains .xc) [b] = .ok (decodePrefix b, []) := by
    rw [noXc]; simp [decode, isPrefixByte]
  rw [step_runs free run hd (exec_reserved s reserved).1 code]
  exact (exec_reserved _ reserved).2

/-! ## A fetch cut short -/

/-- The bytes of an instruction before a given one are those of its first prefixes and the first part `row` of the row
that the byte belongs to, itself a prefix or the opcode row. -/
theorem row_of_byte {k : ImmLen} {ps : List Instr} {i : Instr} {done rest : List Byte} {b : Byte}
    (run : PrefixRun ps) (wf : i.wellFormed k (ps.contains .xc) = true)
    (bytes : ps.flatMap (encode k) ++ encode k i = done ++ b :: rest) :
    ∃ row tail j, done = (ps.take done.length).flatMap (encode k) ++ row ∧
      decode k ((ps.take done.length).contains .xc) (row ++ b :: tail) = .ok (j, []) := by
  by_cases inPrefixes : done.length < ps.length
  case pos =>
    obtain ⟨p, after, hdrop⟩ := List.exists_cons_of_ne_nil (l := ps.drop done.length) (by simpa using inPrefixes)
    have split : ps = ps.take done.length ++ p :: after := by rw [← hdrop, List.take_append_drop]
    have isPrefix : p.isPrefix = true := run.prefixes p (by rw [split]; simp)
    have hd := decode_prefixRow k isPrefix
    have noXc : (ps.take done.length).contains .xc = false := by
      have early : ∀ q ∈ ps.take done.length, q ∈ ps.dropLast := by
        rw [List.dropLast_eq_take]
        exact fun q h => List.take_subset_take_left ps (by omega) h
      simpa using fun h => run.xcLast _ (early _ h) rfl
    have hlen : ((ps.take done.length).flatMap (encode k)).length = done.length := by
      rw [(run.take _).length_bytes, List.length_take]; omega
    rw [split, List.flatMap_append, List.append_assoc] at bytes
    obtain ⟨hdone, hrest⟩ := List.append_inj bytes hlen
    have one : encode k p = [b] := by
      have len : (encode k p).length = 1 := by
        simpa using PrefixRun.length_bytes (ps := [p]) ⟨by simp, by simpa using isPrefix, by simp⟩ k
      obtain ⟨x, hx⟩ := List.length_eq_one_iff.1 len
      rw [List.flatMap_cons, hx] at hrest
      rw [hx, (List.cons.inj hrest).1]
    exact ⟨[], [], p, by rw [List.append_nil, hdone], by rw [noXc, List.nil_append, ← one]; exact hd⟩
  case neg =>
    have all : ps.take done.length = ps := List.take_of_length_le (Nat.le_of_not_lt inPrefixes)
    have hlen : (ps.flatMap (encode k)).length ≤ done.length := by rw [run.length_bytes]; omega
    obtain ⟨row, hdone⟩ : ps.flatMap (encode k) <+: done :=
      List.prefix_of_prefix_length_le ⟨_, bytes⟩ ⟨_, rfl⟩ hlen
    have hrow : encode k i = row ++ b :: rest := by
      rw [← hdone, List.append_assoc] at bytes
      exact List.append_cancel_left bytes
    have hd := decodeOfEncodeIsIdentity k i (ps.contains .xc) [] wf
    exact ⟨row, rest, i, by rw [all, hdone], by rw [all, ← hrow, ← List.append_nil (encode k i)]; exact hd⟩

/-- A step whose fetch ends with `F` at the byte after `done` comes to a row whose fetch ends so. -/
theorem step_cut {F : (α : Type) → Fetch α} (hF : Fetch.Final F) {s : State} {ps : List Instr} {i : Instr}
    {done rest : List Byte} {b : Byte} (free : s.ended ≠ .breakpoint) (run : PrefixRun ps)
    (wf : i.wellFormed s.cfg.wrbImm (ps.contains .xc) = true)
    (bytes : ps.flatMap (encode s.cfg.wrbImm) ++ encode s.cfg.wrbImm i = done ++ b :: rest)
    (code : s.codeAt (s.getReg s.active 14#4) done)
    (hb : (s.fetched done.length (notedPrefixes (ps.take done.length))).fetchByte = F Byte) :
    ∃ k u, step s = runRows (k + 1) u ∧ u.fetchRow = F (List Byte) := by
  obtain ⟨row, tail, j, hdone, hd⟩ := row_of_byte run wf bytes
  generalize hqs : ps.take done.length = qs at hb hdone hd
  obtain ⟨before, here⟩ := (codeAt_append ..).1 (hdone ▸ code)
  obtain ⟨k, hk⟩ := step_after_prefixes free (hqs ▸ run.take done.length : PrefixRun qs) before
  refine ⟨k, _, hk, fetchRow_cut hF (by rw [fetched_cfg]; exact hd) (by rwa [pc_fetched, codeAt_fetched]) ?_⟩
  rwa [advanced_fetched, ← List.length_append, ← hdone]

theorem runRows_of_fetch_exc {k : Nat} {u t : State} {e : Exc} (h : u.fetchRow = .exc e t) :
    runRows (k + 1) u = .next (t.takeException t.active e) := by
  unfold runRows; rw [h]

theorem runRows_of_fetch_unwritten {k a : Nat} {u t : State} (h : u.fetchRow = .unwritten a t) :
    runRows (k + 1) u = .fault (.unwrittenMemory a t) := by
  unfold runRows; rw [h]

theorem andThen_unwritten {α β : Type} {x : Access α} {k : α → Access β} {a : Nat} :
    x.andThen k = .unwritten a ↔ x = .unwritten a ∨ ∃ v, x = .ok v ∧ k v = .unwritten a := by
  cases x <;> simp [Access.andThen]

theorem physRead_unwritten {s : State} {kind mode : AccessMode} {va : Word} {pa : PhysAddr} {a : Nat} :
    s.physRead kind mode va pa = .unwritten a ↔
      physMapHas s.cfg.physMap pa.toNat kind = true ∧ Memory.read s.mem pa.toNat = none ∧ a = pa.toNat := by
  unfold State.physRead
  by_cases answers : physMapHas s.cfg.physMap pa.toNat kind = true
  · cases read : Memory.read s.mem pa.toNat with
    | none => simp [answers, eq_comm]
    | some b => simp [answers]
  · simp [answers]

theorem fetchByte_unwritten {s t : State} {a : Nat} :
    s.fetchByte = .unwritten a t ↔ s.codeByte = .unwritten a ∧ t = s := by
  unfold State.fetchByte; cases s.codeByte <;> simp [eq_comm]

/-- An exception of the fetch leaves its record and some `PC` (R111, R243, R246). -/
theorem raises_fetched (s : State) (n : Nat) (l : Latch) (e : Exc) :
    Raises (s.fetched 0 {}) ((s.fetched n l).takeException s.active e) e (loosePC s) := by
  have h := raises_takeException (s := s.fetched 0 {}) (u := s.fetched n l) (e := e) (loose := loosePC s)
    (by simp only [fetched_cfg]) (fun d k => by simp [State.fetched]) (by simp only [fetched_active])
    (by simp only [fetched_mem]) (by simp [State.fetched])
    (fun c r kept => by
      have elsewhere : ∀ q : Prop, ¬ (c = s.active ∧ r = 14#4 ∧ q) := fun _ h => kept ⟨h.1, h.2.1⟩
      simp [State.fetched, getReg_setReg, elsewhere])
    (fun _ => ⟨fetched_active s 0 {}, rfl⟩)
  rwa [fetched_active] at h

/-- The record of an exception leaves `INSN_ADDR` alone (R242). -/
theorem insnAddr_takeException_fetched (s : State) (n : Nat) (l : Latch) (e : Exc) :
    ((s.fetched n l).takeException s.active e).getCr s.active 14#4 = s.getReg s.active 14#4 := by
  rw [getCr_takeException_kept, insnAddr_fetched]
  exact fun h => absurd h.2 (by decide)

/-- Settles O53: the row that the byte belongs to is cut short, and the step ends as its fetch does. -/
theorem fetchExceptionRaises : Obligations.FetchExceptionRaises := by
  intro s ps i done rest b va free short prefixes xcLast _ wf bytes code hva
  have run : PrefixRun ps := ⟨short, prefixes, xcLast⟩
  have atByte := codeByte_fetched s done.length (notedPrefixes (ps.take done.length)) hva
  constructor
  · intro e fails
    have hb : (s.fetched done.length (notedPrefixes (ps.take done.length))).fetchByte = .exc e _ :=
      fetchByte_exc.2 ⟨by simpa only [atByte, andThen_exc, physRead_exc] using fails, rfl⟩
    obtain ⟨k, u, hstep, hrow⟩ := step_cut (final_exc e _) free run wf bytes code hb
    refine ⟨_, hstep.trans (runRows_of_fetch_exc hrow), ?_⟩
    rw [fetched_active]
    exact ⟨raises_fetched .., insnAddr_takeException_fetched ..⟩
  · intro a stops
    have hb : (s.fetched done.length (notedPrefixes (ps.take done.length))).fetchByte = .unwritten a _ :=
      fetchByte_unwritten.2 ⟨by simpa only [atByte, andThen_unwritten, physRead_unwritten] using stops, rfl⟩
    obtain ⟨k, u, hstep, hrow⟩ := step_cut (final_unwritten a _) free run wf bytes code hb
    exact hstep.trans (runRows_of_fetch_unwritten hrow)

end Sys2Proof.Proofs.StepCycle
end
